-- ==== Sys2Proof/Word.lean ====
section
/-!
DEFINITION. The words of the GSOF framing engine: the widths of its ports, registers and fields
(00_scope.md R9, R11). All arithmetic on registers wraps; wider arithmetic is on `Nat` (R12).
-/

namespace Sys2Proof

/-- One octet: the byte-in port, every parser register, a buffer cell (R9, R21, R27). -/
abbrev Byte := BitVec 8

/-- One word of the host register map (R40). -/
abbrev Word := BitVec 32

/-- The bit pattern of an IEEE-754 binary32 value; it is copied, never computed with (R11). -/
abbrev F32 := BitVec 32

/-- The bit pattern of an IEEE-754 binary64 value (R11). -/
abbrev F64 := BitVec 64

/-- A byte address of the host register map, 9 bits (R40). -/
abbrev HostAddr := BitVec 9

end Sys2Proof
end

