-- ==== Sys2Proof/Syntax.lean ====
section
/-!
DEFINITION. The syntax of the engine: the states of FRAMER (10_state.md R22), what a host can present
(43_host_ops.md, 40_framing.md R85), the four formats of the opcode table (30_encoding.md R84) and `Instr`, one
constructor for each row of spec/opcode_table.json.
-/

namespace Sys2Proof

/-- The FRAMER states, in the order of their codes (R22). -/
inductive FsmState where
  | awaitStart | status | packetType | length | data | checksum | endOfFrame | halted
  deriving DecidableEq, Repr

/-- How many bits a host READ asks for. Only 32 has a meaning; a narrower read is refused (R132). -/
inductive ReadWidth where
  | w8 | w16 | w32
  deriving DecidableEq, Repr

/-- One host transaction (R20, R85, R130, R133, R157). -/
inductive Transaction where
  /-- FEED(b): one octet on the byte-in port. -/
  | feed (b : Byte)
  /-- READ(a), with the number of bits asked for. -/
  | read (width : ReadWidth) (a : HostAddr)
  /-- WRITE(a, w). -/
  | write (a : HostAddr) (w : Word)
  /-- RESET. -/
  | reset
  deriving DecidableEq, Repr

/-- The four formats of the opcode table (R84). -/
inductive Format where
  | fsmByte | packetType | itemKind | hostOp
  deriving DecidableEq, Repr

/-- The rows of spec/opcode_table.json, in its order. The operands are the bits of the word that the row does not fix
by itself: the byte `b` of a FEED, the packet type `t`, the kind `k` and the length byte `l` of an item header. -/
inductive Instr where
  -- format fsm-byte (R86 to R96)
  | feedAwaitStartStx
  | feedAwaitStartOther (b : Byte)
  | feedStatus (b : Byte)
  | feedPacketType (b : Byte)
  | feedLengthOk (b : Byte)
  | feedLengthOverflowFailclosed (b : Byte)
  | feedLengthOverflowAbort (b : Byte)
  | feedData (b : Byte)
  | feedChecksumMatch (b : Byte)
  | feedChecksumMismatch (b : Byte)
  | feedEndOfFrame (b : Byte)
  | feedHalted (b : Byte)
  -- format packet-type (R102 to R104)
  | dispatchAggregate
  | dispatchOther (t : Byte)
  -- format item-kind (R106 to R109, R118 to R125)
  | itemTime (l : Byte)
  | itemPosition (l : Byte)
  | itemVelocity (l : Byte)
  | itemDop (l : Byte)
  | itemSigma (l : Byte)
  | itemIns (l : Byte)
  | itemInsrms (l : Byte)
  | itemMsl (l : Byte)
  | itemInRangeUndecoded (k l : Byte)
  | itemOutOfRangeSkip (k l : Byte)
  | itemOutOfRangeAbort (k l : Byte)
  -- format host-op (R130, R133, R157)
  | read (width : ReadWidth) (a : HostAddr)
  | write (a : HostAddr) (w : Word)
  | reset
  deriving DecidableEq, Repr

/-- The format of a row (R84). -/
def Instr.format : Instr → Format
  | .feedAwaitStartStx => .fsmByte
  | .feedAwaitStartOther _ => .fsmByte
  | .feedStatus _ => .fsmByte
  | .feedPacketType _ => .fsmByte
  | .feedLengthOk _ => .fsmByte
  | .feedLengthOverflowFailclosed _ => .fsmByte
  | .feedLengthOverflowAbort _ => .fsmByte
  | .feedData _ => .fsmByte
  | .feedChecksumMatch _ => .fsmByte
  | .feedChecksumMismatch _ => .fsmByte
  | .feedEndOfFrame _ => .fsmByte
  | .feedHalted _ => .fsmByte
  | .dispatchAggregate => .packetType
  | .dispatchOther _ => .packetType
  | .itemTime _ => .itemKind
  | .itemPosition _ => .itemKind
  | .itemVelocity _ => .itemKind
  | .itemDop _ => .itemKind
  | .itemSigma _ => .itemKind
  | .itemIns _ => .itemKind
  | .itemInsrms _ => .itemKind
  | .itemMsl _ => .itemKind
  | .itemInRangeUndecoded _ _ => .itemKind
  | .itemOutOfRangeSkip _ _ => .itemKind
  | .itemOutOfRangeAbort _ _ => .itemKind
  | .read _ _ => .hostOp
  | .write _ _ => .hostOp
  | .reset => .hostOp

end Sys2Proof
end

