-- ==== Sys2Proof/Config.lean ====
section
/-!
DEFINITION. What one instance of the block fixes (00_scope.md R7, R8) and the free values of the model.

The parameters are plain data, and the machine carries them in its state as constants, so that every claim about "every
state" is a claim about every parameter set. DESIGN CHOICE (log entry 3), safe: no rule writes them, and nothing the
spec says of them is lost.
-/

namespace Sys2Proof

/-- UNKNOWN_KIND_POLICY (R7): what an item kind above MAX_KIND does (R108, R109). -/
inductive UnknownKindPolicy where
  | skip | abort
  deriving DecidableEq, Repr

/-- OVERFLOW_POLICY (R7): what a length byte above CAP does (R90, R91). -/
inductive OverflowPolicy where
  | failClosed | abort
  deriving DecidableEq, Repr

/-- RAD2DEG (R7): the radians-to-degrees function of one instance, any total function on binary64 patterns, as plain data.
DESIGN CHOICE (log entry 14), safe: the default of R126, but for the inputs of `table`, which have the results listed
there. There are finitely many patterns, so every function is some such value. -/
structure Rad2deg where
  /-- Which free choice of NaN results this instance has under the default (R126, I3; log entry 15). -/
  nanChoice : Nat
  /-- The inputs on which this instance differs from the default, each with its result; the first entry counts. -/
  table : List (F64 × F64)
  deriving DecidableEq, Repr

/-- The parameters of R7. MAX_KIND is derived (`Params.maxKind`). -/
structure Params where
  /-- CAP, the payload buffer capacity in bytes. -/
  cap : Nat
  unknownKind : UnknownKindPolicy
  overflow : OverflowPolicy
  /-- AGG_TYPE. -/
  aggType : Byte
  kindTime : Byte
  kindPosition : Byte
  kindVelocity : Byte
  kindDop : Byte
  kindSigma : Byte
  kindIns : Byte
  kindInsrms : Byte
  kindMsl : Byte
  rad2deg : Rad2deg
  deriving DecidableEq, Repr

/-- The eight decoded kinds, in the order of R7. -/
def Params.kinds (p : Params) : List Byte :=
  [p.kindTime, p.kindPosition, p.kindVelocity, p.kindDop, p.kindSigma, p.kindIns, p.kindInsrms, p.kindMsl]

/-- MAX_KIND: the largest of the eight kinds (R7, R8). -/
def Params.maxKind (p : Params) : Nat :=
  p.kinds.foldl (fun m k => max m k.toNat) 0

/-- The values R7 gives as defaults. The codes are the spec's general knowledge, PRESUMED (log entry 4), unsafe for a
claim that needs them. The two policies are OPEN in R7; DESIGN CHOICE (log entry 5), unsafe for a claim that needs one
of them: the production policies Skip and FailClosed. RAD2DEG is the default of R126, with the NaN results of choice 0,
which nothing can evaluate. -/
def Params.default : Params where
  cap := 255
  unknownKind := .skip
  overflow := .failClosed
  aggType := 0x40
  kindTime := 1
  kindPosition := 2
  kindVelocity := 8
  kindDop := 9
  kindSigma := 12
  kindIns := 49
  kindInsrms := 50
  kindMsl := 70
  rad2deg := { nanChoice := 0, table := [] }

/-- The free value of R126: the word from which the NaN pattern is taken that RAD2DEG gives for a NaN input. It has no
body, so nothing can be proved of it but that it is the same for the same input in one instance (90_conflicts.md C11;
log entry 15). Its first argument tells the choices of different instances apart. -/
opaque Config.rad2degNaN : Nat → F64 → F64

/-- The free values of R131: what an OREG register holds from reset until its first write, of which the spec says only that
hardware holds some value (R48). The first argument is the free choice of one reset, the second the register's place in
the map; a narrower register takes the low bits. It has no body, so nothing can be proved of the values (log entry 11). -/
opaque Config.oregAtReset : Nat → Nat → BitVec 64

end Sys2Proof
end

