-- ==== Sys2Proof/WellFormed.lean ====
section
/-!
DEFINITION. Which parameter sets are an instance of the block (00_scope.md R8), and in which context an instruction is
the row that the opcode table selects (the "condition" column of spec/opcode_table.json; 30_encoding.md R72, R79).
-/

namespace Sys2Proof

/-- STX, the start marker (R7, R66). -/
def stx : Byte := 0x02

/-- R8: the eight kinds are pairwise distinct and CAP is at most 255. (MAX_KIND is their maximum by definition, and
AGG_TYPE is any byte.) -/
def Params.wf (p : Params) : Bool :=
  decide p.kinds.Nodup && decide (p.cap ≤ 255)

/-- What selects a row besides the word itself: the parameters, and for the byte-in port the FRAMER state and the
checksum accumulator. -/
structure Ctx where
  params : Params
  st : FsmState
  acc : Byte
  deriving DecidableEq, Repr

/-- The instruction is the row that the table selects for its word in this context. -/
def Instr.wf (cx : Ctx) : Instr → Bool
  | .feedAwaitStartStx => cx.st == .awaitStart
  | .feedAwaitStartOther b => cx.st == .awaitStart && b != stx
  | .feedStatus _ => cx.st == .status
  | .feedPacketType _ => cx.st == .packetType
  | .feedLengthOk b => cx.st == .length && decide (b.toNat ≤ cx.params.cap)
  | .feedLengthOverflowFailclosed b =>
    cx.st == .length && decide (cx.params.cap < b.toNat) && cx.params.overflow == .failClosed
  | .feedLengthOverflowAbort b =>
    cx.st == .length && decide (cx.params.cap < b.toNat) && cx.params.overflow == .abort
  | .feedData _ => cx.st == .data
  | .feedChecksumMatch b => cx.st == .checksum && b == cx.acc
  | .feedChecksumMismatch b => cx.st == .checksum && b != cx.acc
  | .feedEndOfFrame _ => cx.st == .endOfFrame
  | .feedHalted _ => cx.st == .halted
  | .dispatchAggregate => true
  | .dispatchOther t => t != cx.params.aggType
  | .itemTime _ => true
  | .itemPosition _ => true
  | .itemVelocity _ => true
  | .itemDop _ => true
  | .itemSigma _ => true
  | .itemIns _ => true
  | .itemInsrms _ => true
  | .itemMsl _ => true
  | .itemInRangeUndecoded k _ => decide (k.toNat ≤ cx.params.maxKind) && !cx.params.kinds.contains k
  | .itemOutOfRangeSkip k _ => decide (cx.params.maxKind < k.toNat) && cx.params.unknownKind == .skip
  | .itemOutOfRangeAbort k _ => decide (cx.params.maxKind < k.toNat) && cx.params.unknownKind == .abort
  | .read _ _ => true
  | .write _ _ => true
  | .reset => true

end Sys2Proof
end

