-- ==== Sys2Proof/Machine/State.lean ====
section
/-!
DEFINITION. The state of the engine as plain data (10_state.md), the reasons a step can stop, and the state after RESET
(R48). Every register of R21, the payload buffer (R27), the record bitset (R28), the output register file (R29 to R37)
and the sequencing state (R26) has one field; `params`, `resp` and `input` are the model's own (log entries 3, 7, 2).
-/

namespace Sys2Proof.Machine

/-- The result codes of a FEED (R85, R142). -/
inductive ResultCode where
  | incomplete | frameOk | frameBad | fault
  deriving DecidableEq, Repr

/-- The causes of a halt (R142, R144). -/
inductive HaltCause where
  | none | unknownKind | lengthOverflow
  deriving DecidableEq, Repr

/-- The payload buffer as the cells that have been written since reset (R27). -/
abbrev Memory := List Host.Cell

/-- What has been written to an OREG register since reset (R37): a value, or `unwritten`. An unwritten register still holds
the value it came up with, which the spec leaves unspecified (R48) and which is a free value here: every register holds
a value in every state, `Oreg.contents` in Operands.lean (log entry 11). -/
abbrev OregField (α : Type) := Option α

/-- The mark that R48 gives every OREG register at reset: it holds its reset value. -/
abbrev OregField.unwritten {α : Type} : OregField α := none

/-- TIME (R29). -/
structure TimeSlot where
  towMs : OregField (BitVec 32)
  week : OregField (BitVec 32)
  sats : OregField Byte
  flags1 : OregField Byte
  flags2 : OregField Byte
  deriving DecidableEq, Repr

/-- POS (R30). -/
structure PosSlot where
  lat : OregField F64
  lon : OregField F64
  hgt : OregField F64
  deriving DecidableEq, Repr

/-- VEL (R31). -/
structure VelSlot where
  hspeed : OregField F32
  vspeed : OregField F32
  heading : OregField F32
  deriving DecidableEq, Repr

/-- DOP (R32). -/
structure DopSlot where
  hdop : OregField F32
  deriving DecidableEq, Repr

/-- SIG (R33). -/
structure SigSlot where
  east : OregField F32
  north : OregField F32
  vert : OregField F32
  deriving DecidableEq, Repr

/-- INS (R34). -/
structure InsSlot where
  week : OregField (BitVec 16)
  timeMs : OregField (BitVec 32)
  align : OregField Byte
  fix : OregField Byte
  lat : OregField F64
  lon : OregField F64
  alt : OregField F64
  vn : OregField F32
  ve : OregField F32
  vd : OregField F32
  speed : OregField F32
  roll : OregField F64
  pitch : OregField F64
  heading : OregField F64
  track : OregField F64
  deriving DecidableEq, Repr

/-- RMS (R35). -/
structure RmsSlot where
  week : OregField (BitVec 16)
  timeMs : OregField (BitVec 32)
  align : OregField Byte
  fix : OregField Byte
  deriving DecidableEq, Repr

/-- MSL (R36). -/
structure MslSlot where
  latDeg : OregField F64
  lonDeg : OregField F64
  alt : OregField F64
  deriving DecidableEq, Repr

/-- The output register file, one slot for each decoded kind (R29 to R36). -/
structure Oreg where
  time : TimeSlot
  pos : PosSlot
  vel : VelSlot
  dop : DopSlot
  sig : SigSlot
  ins : InsSlot
  rms : RmsSlot
  msl : MslSlot
  deriving DecidableEq, Repr

/-- Every field `unwritten` (R37, R48). -/
def Oreg.unwritten : Oreg where
  time := ⟨.unwritten, .unwritten, .unwritten, .unwritten, .unwritten⟩
  pos := ⟨.unwritten, .unwritten, .unwritten⟩
  vel := ⟨.unwritten, .unwritten, .unwritten⟩
  dop := ⟨.unwritten⟩
  sig := ⟨.unwritten, .unwritten, .unwritten⟩
  ins := ⟨.unwritten, .unwritten, .unwritten, .unwritten, .unwritten, .unwritten, .unwritten, .unwritten, .unwritten,
          .unwritten, .unwritten, .unwritten, .unwritten, .unwritten, .unwritten⟩
  rms := ⟨.unwritten, .unwritten, .unwritten, .unwritten⟩
  msl := ⟨.unwritten, .unwritten, .unwritten⟩

/-- Where a DISPATCH is (R26, R101, R104, R111). Between transactions it is `idle`: the cursor has no value then (R26).
The other phases exist only inside the FEED of a matching checksum byte (log entry 8). -/
inductive Disp where
  /-- No FEED is in progress. -/
  | idle
  /-- DISPATCH is invoked and has not tested the packet type. -/
  | entry
  /-- The walk is at cursor `c`; `any` is `matchedAny` so far. -/
  | walk (c : Nat) (any : Bool)
  /-- DISPATCH has returned (matchedAny, fault). -/
  | done (any fault : Bool)
  deriving DecidableEq, Repr

/-- What the last transaction answered on its port (R20): a FEED its result code, a READ its word, a WRITE and a RESET
nothing. DESIGN CHOICE (log entry 7), safe: no rule reads it. -/
inductive Response where
  | none
  | result (r : ResultCode)
  | word (w : Word)
  /-- The READ of address `a` met a register not written since reset: the condition UnwrittenRead of R131. `w` is what
  hardware returns, a free value in the unwritten registers' bits (log entry 11). -/
  | unwrittenRead (a : HostAddr) (w : Word)
  deriving DecidableEq, Repr

/-- The state of the engine. -/
structure State where
  /-- The parameters of this instance (R7); no rule writes them. -/
  params : Params
  st : FsmState
  statusB : Byte
  ptype : Byte
  n : Byte
  count : Byte
  acc : Byte
  rxCk : Byte
  etx : Byte
  lastResult : ResultCode
  haltCause : HaltCause
  /-- The payload buffer, in the canonical form `Memory.wf`. -/
  buf : Memory
  /-- Bit k stands for kind k; only bits 0 to MAX_KIND belong to the register (R28; log entry 16). -/
  bitset : BitVec 256
  oreg : Oreg
  /-- Which free choice of reset values the unwritten OREG registers hold; each RESET goes to the next (log entry 11). -/
  resetChoice : Nat
  disp : Disp
  resp : Response
  /-- The host transactions still to be taken, the next one first (log entry 2). -/
  input : List Transaction
  deriving DecidableEq, Repr

/-- Why the machine stops. -/
inductive Fault where
  /-- Read of a buffer cell that this frame has not written, or that does not exist (R13, R27,
  93_implementation_defined.md I2). Raised by the item walk and the decoders, in states that no run from reset reaches
  (R58). Safe. -/
  | unwrittenCell (i : Nat)
  /-- Write at an index that the buffer does not have (R57). Raised by FEED in Data, in states that no run from reset
  reaches (R23). Safe. -/
  | bufferOverrun (i : Nat)
  deriving DecidableEq, Repr

/-- Why an operation has no meaning. -/
inductive Refusal where
  /-- The instruction has no meaning in this model yet. Raised only by an arm of `exec`. Safe. -/
  | notModelled (mnemonic : String)
  /-- READ at an address that is no multiple of 4, or narrower than 32 bits (R130, R132). Safe. -/
  | misalignedRead
  /-- A host transaction inside a FEED that has not completed (R61, R134, 93_implementation_defined.md I12, I13). Raised
  by every FEED row and host operation when `disp` is not `idle`. Safe. -/
  | overlap
  /-- The table does not select this row in this state: its condition fails (R85: exactly one row applies). Raised by
  every row but the host operations, and never for a row that was decoded in that state. Safe. -/
  | rowNotSelected
  /-- The parameters break R8: there is no such instance. Raised by `step`. Safe. -/
  | noInstance
  deriving DecidableEq, Repr

/-- What a meaning answers. -/
abbrev Result := Host.Outcome State Fault Refusal

/-- The state after RESET (R48) of the instance with the default parameters, with no transaction pending. The zeros are
the spec's own choice (D2; log entry 13), unsafe for a claim that needs one before the register's first write. -/
def State.reset : State where
  params := Params.default
  st := .awaitStart
  statusB := 0
  ptype := 0
  n := 0
  count := 0
  acc := 0
  rxCk := 0
  etx := 0
  lastResult := .incomplete
  haltCause := .none
  buf := []
  bitset := 0
  oreg := Oreg.unwritten
  resetChoice := 0
  disp := .idle
  resp := .none
  input := []

end Sys2Proof.Machine
end

