-- ==== Sys2Proof/Machine/Ops.lean ====
section
/-!
DEFINITION. The named operations over the buffer and the registers: reading and writing a buffer cell (R13, R27, R57),
reporting a result (R85, R98), entering Halted (R144) and leaving it by RESET (R145, R157), and the two guards every
row begins with.
-/

namespace Sys2Proof.Machine

/-! ### The payload buffer -/

/-- The canonical form: indices strictly rising and below CAP. An unlisted cell is `unwritten` and reads as no value,
so no entry can equal it. -/
abbrev Memory.wf (cap : Nat) (m : Memory) : Prop :=
  m.Pairwise (fun a b => a.1 < b.1) ∧ ∀ c ∈ m, c.1 < cap

/-- Cell `i`: `none` is `unwritten` (R27). -/
def Memory.cell : Memory → Nat → Option Byte
  | [], _ => none
  | (j, x) :: m, i => if i = j then some x else Memory.cell m i

/-- The buffer with byte `b` in cell `i`. -/
def Memory.set : Memory → Nat → Byte → Memory
  | [], i, b => [(i, b)]
  | (j, x) :: m, i, b =>
    if i < j then (i, b) :: (j, x) :: m
    else if i = j then (i, b) :: m
    else (j, x) :: Memory.set m i b

/-- The cell holds a payload byte of this frame: it lies in the buffer and below `count` (R21, R27). -/
def State.received (s : State) (i : Nat) : Bool :=
  decide (i < s.count.toNat) && decide (i < s.params.cap)

/-- `Buf[i]` (R13): a cell this frame has not written, and so one that is unwritten or that the buffer does not have, is
a model fault (R27, 93_implementation_defined.md I2). -/
def State.bufRead (s : State) (i : Nat) : Except Fault Byte :=
  match if s.received i then s.buf.cell i else none with
  | some b => .ok b
  | none => .error (.unwrittenCell i)

/-- `BufWrite(i, b)` (R13), never past the buffer (R57). -/
def State.bufWrite (s : State) (i : Nat) (b : Byte) : Except Fault State :=
  if i < s.params.cap then .ok { s with buf := s.buf.set i b } else .error (.bufferOverrun i)

/-! ### Results and halting -/

/-- `emit R`: the result code goes to the result port and to `last_result` (R85, R98). -/
def State.emit (s : State) (r : ResultCode) : State :=
  { s with lastResult := r, resp := .result r }

/-- `raise Halt(cause)` (R144): the state and the cause; nothing is saved and nothing else changes. -/
def State.raiseHalt (s : State) (cause : HaltCause) : State :=
  { s with st := .halted, haltCause := cause }

/-- RESET (R157): every piece of state takes its value of R48. The parameters are not state, and the transactions the
host has still to present are the host's (log entry 21); the OREG registers come up with new values (log entry 11). It is the only way out of Halted (R145). -/
def State.resetAll (s : State) : State :=
  { State.reset with params := s.params, input := s.input, resetChoice := s.resetChoice + 1 }

/-! ### Results of the model -/

/-- Goes on from a next state, and stops where the first part stops. -/
def andThen (r : Result) (f : State → Result) : Result :=
  match r with
  | .next s => f s
  | .fault x => .fault x
  | .refused x => .refused x

/-- A host transaction takes place between FEED transactions (R60, R134, R157); inside one it has no meaning. -/
def between (s : State) (r : Result) : Result :=
  if s.disp = .idle then r else .refused .overlap

/-- A FEED row: between transactions, and only where the table selects it (R85). -/
def feedRow (s : State) (selected : Bool) (r : Result) : Result :=
  between s (if selected then r else .refused .rowNotSelected)

/-- The context the decoder reads a word in. -/
def State.ctx (s : State) : Ctx :=
  { params := s.params, st := s.st, acc := s.acc }

end Sys2Proof.Machine
end

