-- ==== Sys2Proof/Machine/Flags.lean ====
section
/-!
DEFINITION. The status computations. The block has no condition codes (R39); what takes their place is the checksum
accumulator (R97), the record bitset (R28) and the numeric codes of the status fields (R22, R142).
-/

namespace Sys2Proof.Machine

/-- acc <- acc +8 b (R97). -/
def State.accumulate (s : State) (b : Byte) : State :=
  { s with acc := s.acc + b }

/-- Bit k of a bitset word, k the kind (R28). -/
def bitOf (k : Byte) : BitVec 256 := 1#256 <<< k.toNat

/-- bitset[k] <- 1 (R106). -/
def State.setBit (s : State) (k : Byte) : State :=
  { s with bitset := s.bitset ||| bitOf k }

/-- The bits 0 to MAX_KIND, the ones the register has (R28). -/
def bitsetMask (p : Params) : BitVec 256 :=
  BitVec.ofNat 256 (2 ^ (p.maxKind + 1) - 1)

/-- The encoding of `st` (R22). -/
def stCode : FsmState → BitVec 3
  | .awaitStart => 0
  | .status => 1
  | .packetType => 2
  | .length => 3
  | .data => 4
  | .checksum => 5
  | .endOfFrame => 6
  | .halted => 7

/-- The encoding of the result codes (R142). -/
def resultBits : ResultCode → BitVec 2
  | .incomplete => 0
  | .frameOk => 1
  | .frameBad => 2
  | .fault => 3

/-- The encoding of `halt_cause` (R142). -/
def causeBits : HaltCause → BitVec 2
  | .none => 0
  | .unknownKind => 1
  | .lengthOverflow => 2

end Sys2Proof.Machine
end

