-- ==== Sys2Proof/Machine/Numeric.lean ====
section
/-!
DEFINITION. RAD2DEG (42_decoders.md R126): one IEEE-754 binary64 multiplication by K, rounded to nearest, ties to even;
subnormals are kept, no flag is recorded, and which NaN comes out for a NaN is left open.
-/

namespace Sys2Proof.Machine

/-- K, the binary64 value nearest 180/π (R126). -/
def degPerRad : F64 := 0x404CA5DC1A63C1F8

/-- The exponent field. -/
def f64Exp (x : F64) : Nat := (x.extractLsb' 52 11).toNat

/-- The fraction field. -/
def f64Frac (x : F64) : Nat := (x.extractLsb' 0 52).toNat

/-- The sign bit. -/
def f64Sign (x : F64) : Bool := x.getLsbD 63

def f64IsNaN (x : F64) : Bool := f64Exp x == 2047 && f64Frac x != 0

def f64IsInf (x : F64) : Bool := f64Exp x == 2047 && f64Frac x == 0

/-- The significand of a finite value, an integer below 2 ^ 53. -/
def f64Sig (x : F64) : Nat := if f64Exp x = 0 then f64Frac x else 2 ^ 52 + f64Frac x

/-- The exponent of the significand's unit: a finite value is ± f64Sig · 2 ^ f64Unit. -/
def f64Unit (x : F64) : Int := if f64Exp x = 0 then -1074 else (f64Exp x : Int) - 1075

/-- `m / 2 ^ k` rounded to the nearest integer, ties to even. -/
def roundEven (m k : Nat) : Nat :=
  let q := m / 2 ^ k
  let r := m % 2 ^ k
  if 2 * r < 2 ^ k then q else if 2 ^ k < 2 * r then q + 1 else q + q % 2

/-- The infinity pattern without its sign, 0x7FF0000000000000. -/
def infMagnitude : Nat := 2047 * 2 ^ 52

/-- The unit to which the exact value m · 2 ^ e is rounded: 53 significant bits, and never below the subnormal unit. -/
def roundUnit (m : Nat) (e : Int) : Int := max ((Nat.log2 m : Int) + e - 52) (-1074)

/-- The binary64 pattern without its sign nearest to m · 2 ^ e: the significand counted in `roundUnit`, packed with the
exponent field so that a significand rounded up to a power of two carries into it; above the largest finite value,
infinity. -/
def roundMagnitude (m : Nat) (e : Int) : Nat :=
  if m = 0 then 0
  else
    let u := roundUnit m e
    let q := if u ≤ e then m * 2 ^ (e - u).toNat else roundEven m (u - e).toNat
    min infMagnitude ((u + 1074).toNat * 2 ^ 52 + q)

/-- A pattern from its sign and the rest. -/
def withSign (neg : Bool) (magnitude : Nat) : F64 :=
  BitVec.ofNat 64 (if neg then 2 ^ 63 + magnitude else magnitude)

/-- The product of two finite values, rounded to nearest even. -/
def mulFinite (x y : F64) : F64 :=
  withSign (f64Sign x != f64Sign y) (roundMagnitude (f64Sig x * f64Sig y) (f64Unit x + f64Unit y))

/-- The NaN pattern given by a free word: its sign and fraction, a zero fraction read as 1. Every NaN pattern is the
image of itself, so none is shut out (R126: any NaN pattern). -/
def nanOf (w : F64) : F64 :=
  withSign (f64Sign w) (infMagnitude + max 1 (f64Frac w))

/-- The default RAD2DEG (R126). PRESUMED by the spec for the constant K (log entry 14); the NaN pattern is the instance's
free choice (log entry 15). -/
def rad2degDefault (nanChoice : Nat) (x : F64) : F64 :=
  if f64IsNaN x then nanOf (Config.rad2degNaN nanChoice x)
  else if f64IsInf x then x
  else mulFinite x degPerRad

/-- RAD2DEG of an instance (R7): its own result where it lists one, the default elsewhere. -/
def rad2deg (r : Rad2deg) (x : F64) : F64 :=
  (r.table.lookup x).getD (rad2degDefault r.nanChoice x)

end Sys2Proof.Machine
end

