-- ==== Sys2Proof/Machine/Operands.lean ====
section
/-!
DEFINITION. The operand forms: the item header at the cursor (30_encoding.md R70, 41_dispatch.md R105), big-endian fields
(42_decoders.md R114), the containment test (R115) and the field store (R116).
-/

namespace Sys2Proof.Machine

/-- be8 (R114). -/
def State.be8 (s : State) (p : Nat) : Except Fault Byte := s.bufRead p

/-- be16 (R114): the byte at the lower index is the more significant. -/
def State.be16 (s : State) (p : Nat) : Except Fault (BitVec 16) := do
  let hi ← s.be8 p
  let lo ← s.be8 (p + 1)
  return hi ++ lo

/-- be32 (R114). -/
def State.be32 (s : State) (p : Nat) : Except Fault (BitVec 32) := do
  let hi ← s.be16 p
  let lo ← s.be16 (p + 2)
  return hi ++ lo

/-- be64 (R114). -/
def State.be64 (s : State) (p : Nat) : Except Fault (BitVec 64) := do
  let hi ← s.be32 p
  let lo ← s.be32 (p + 4)
  return hi ++ lo

/-- The readable extent E = min(L, n − v) of an item with value start `v` and length `l` (R115). -/
def State.extent (s : State) (v : Nat) (l : Byte) : Nat :=
  min l.toNat (s.n.toNat - v)

/-- Present(off, w) (R115). -/
def State.present (s : State) (v : Nat) (l : Byte) (off w : Nat) : Bool :=
  decide (off + w ≤ s.extent v l)

/-- The read of GET (R116): the value the field is to take, or `none` where it is not present and keeps its value. -/
def getField {α : Type} (s : State) (v : Nat) (l : Byte) (off w : Nat) (rd : Nat → Except Fault α) :
    Except Fault (Option α) :=
  if s.present v l off w then (rd (v + off)).map some else .ok none

/-- GET of a u8 field. -/
def get8 (s : State) (v : Nat) (l : Byte) (off : Nat) : Except Fault (Option Byte) :=
  getField s v l off 1 s.be8

/-- GET of a u16 field. -/
def get16 (s : State) (v : Nat) (l : Byte) (off : Nat) : Except Fault (Option (BitVec 16)) :=
  getField s v l off 2 s.be16

/-- GET of a u32 or f32 field. -/
def get32 (s : State) (v : Nat) (l : Byte) (off : Nat) : Except Fault (Option (BitVec 32)) :=
  getField s v l off 4 s.be32

/-- GET of an f64 field. -/
def get64 (s : State) (v : Nat) (l : Byte) (off : Nat) : Except Fault (Option (BitVec 64)) :=
  getField s v l off 8 s.be64

/-- The header (kind, length) of the item at cursor `c`, where both its bytes lie inside the payload (R105); `none`
where the walk has ended. -/
def State.itemAt (s : State) (c : Nat) : Except Fault (Option (Byte × Byte)) :=
  if c + 1 < s.n.toNat then do
    let k ← s.bufRead c
    let l ← s.bufRead (c + 1)
    return some (k, l)
  else .ok none

/-! ### The field store: a written field replaces the prior value, any other keeps it (R37, R116) -/

def TimeSlot.store (d o : TimeSlot) : TimeSlot :=
  { towMs := d.towMs.or o.towMs, week := d.week.or o.week, sats := d.sats.or o.sats, flags1 := d.flags1.or o.flags1,
    flags2 := d.flags2.or o.flags2 }

def PosSlot.store (d o : PosSlot) : PosSlot :=
  { lat := d.lat.or o.lat, lon := d.lon.or o.lon, hgt := d.hgt.or o.hgt }

def VelSlot.store (d o : VelSlot) : VelSlot :=
  { hspeed := d.hspeed.or o.hspeed, vspeed := d.vspeed.or o.vspeed, heading := d.heading.or o.heading }

def DopSlot.store (d o : DopSlot) : DopSlot :=
  { hdop := d.hdop.or o.hdop }

def SigSlot.store (d o : SigSlot) : SigSlot :=
  { east := d.east.or o.east, north := d.north.or o.north, vert := d.vert.or o.vert }

def InsSlot.store (d o : InsSlot) : InsSlot :=
  { week := d.week.or o.week, timeMs := d.timeMs.or o.timeMs, align := d.align.or o.align, fix := d.fix.or o.fix,
    lat := d.lat.or o.lat, lon := d.lon.or o.lon, alt := d.alt.or o.alt, vn := d.vn.or o.vn, ve := d.ve.or o.ve,
    vd := d.vd.or o.vd, speed := d.speed.or o.speed, roll := d.roll.or o.roll, pitch := d.pitch.or o.pitch,
    heading := d.heading.or o.heading, track := d.track.or o.track }

def RmsSlot.store (d o : RmsSlot) : RmsSlot :=
  { week := d.week.or o.week, timeMs := d.timeMs.or o.timeMs, align := d.align.or o.align, fix := d.fix.or o.fix }

def MslSlot.store (d o : MslSlot) : MslSlot :=
  { latDeg := d.latDeg.or o.latDeg, lonDeg := d.lonDeg.or o.lonDeg, alt := d.alt.or o.alt }

/-- The fields that `d` writes, over the register file `o`. -/
def Oreg.store (d o : Oreg) : Oreg :=
  { time := d.time.store o.time, pos := d.pos.store o.pos, vel := d.vel.store o.vel, dop := d.dop.store o.dop,
    sig := d.sig.store o.sig, ins := d.ins.store o.ins, rms := d.rms.store o.rms, msl := d.msl.store o.msl }

/-! ### What the registers hold -/

/-- The value of every OREG register at reset, under one free choice (R48; log entry 11). -/
def Oreg.atReset (choice : Nat) : Oreg :=
  let held (w place : Nat) : Option (BitVec w) := some ((Config.oregAtReset choice place).setWidth w)
  { time := ⟨held 32 0x040, held 32 0x044, held 8 0x048, held 8 0x049, held 8 0x04A⟩
    pos := ⟨held 64 0x050, held 64 0x058, held 64 0x060⟩
    vel := ⟨held 32 0x070, held 32 0x074, held 32 0x078⟩
    dop := ⟨held 32 0x080⟩
    sig := ⟨held 32 0x090, held 32 0x094, held 32 0x098⟩
    ins := ⟨held 16 0x0A0, held 32 0x0A4, held 8 0x0A8, held 8 0x0A9, held 64 0x0B0, held 64 0x0B8, held 64 0x0C0,
            held 32 0x0C8, held 32 0x0CC, held 32 0x0D0, held 32 0x0D4, held 64 0x0D8, held 64 0x0E0, held 64 0x0E8,
            held 64 0x0F0⟩
    rms := ⟨held 16 0x100, held 32 0x104, held 8 0x108, held 8 0x109⟩
    msl := ⟨held 64 0x110, held 64 0x118, held 64 0x120⟩ }

/-- What every OREG register holds: the value last written, or its value at reset (R37, R48). -/
def Oreg.contents (o : Oreg) (choice : Nat) : Oreg := o.store (Oreg.atReset choice)

end Sys2Proof.Machine
end

