-- ==== Sys2Proof/Machine/Items.lean ====
section
/-!
DEFINITION. The eight field decoders (42_decoders.md R117 to R126) and the eleven item rows of the opcode table
(41_dispatch.md R105 to R111).

A decoder gives the fields its item writes: `some` value where the field is present (and, for Velocity, its gate bit is
set), `none` where it is not read and keeps its value. It reads only `Buf[v .. v + E − 1]` and nothing of OREG (R117,
R127).
-/

namespace Sys2Proof.Machine

/-- DECODE_TIME (R118). -/
def decodeTime (s : State) (v : Nat) (l : Byte) : Except Fault Oreg := do
  let towMs ← get32 s v l 0
  let week ← get32 s v l 4
  let sats ← get8 s v l 8
  let flags1 ← get8 s v l 9
  let flags2 ← get8 s v l 10
  return { Oreg.unwritten with
    time := { towMs := towMs, week := week, sats := sats, flags1 := flags1, flags2 := flags2 } }

/-- DECODE_POSITION (R119). -/
def decodePosition (s : State) (v : Nat) (l : Byte) : Except Fault Oreg := do
  let lat ← get64 s v l 0
  let lon ← get64 s v l 8
  let hgt ← get64 s v l 16
  return { Oreg.unwritten with pos := { lat := lat, lon := lon, hgt := hgt } }

/-- GET of a Velocity field under its gate bit (R120): not read where the bit is clear. -/
def gated (gate : Bool) (field : Except Fault (Option F32)) : Except Fault (Option F32) :=
  if gate then field else .ok none

/-- DECODE_VELOCITY (R120): bit 0 of the flags byte gates the speeds, bit 2 the heading. -/
def decodeVelocity (s : State) (v : Nat) (l : Byte) : Except Fault Oreg := do
  match ← get8 s v l 0 with
  | none => return Oreg.unwritten
  | some flags =>
    let hspeed ← gated (flags.getLsbD 0) (get32 s v l 1)
    let vspeed ← gated (flags.getLsbD 0) (get32 s v l 9)
    let heading ← gated (flags.getLsbD 2) (get32 s v l 5)
    return { Oreg.unwritten with vel := { hspeed := hspeed, vspeed := vspeed, heading := heading } }

/-- DECODE_DOP (R121). -/
def decodeDop (s : State) (v : Nat) (l : Byte) : Except Fault Oreg := do
  let hdop ← get32 s v l 4
  return { Oreg.unwritten with dop := { hdop := hdop } }

/-- DECODE_SIGMA (R122). -/
def decodeSigma (s : State) (v : Nat) (l : Byte) : Except Fault Oreg := do
  let east ← get32 s v l 4
  let north ← get32 s v l 8
  let vert ← get32 s v l 16
  return { Oreg.unwritten with sig := { east := east, north := north, vert := vert } }

/-- DECODE_INS (R123). -/
def decodeIns (s : State) (v : Nat) (l : Byte) : Except Fault Oreg := do
  let week ← get16 s v l 0
  let timeMs ← get32 s v l 2
  let align ← get8 s v l 6
  let fix ← get8 s v l 7
  let lat ← get64 s v l 8
  let lon ← get64 s v l 16
  let alt ← get64 s v l 24
  let vn ← get32 s v l 32
  let ve ← get32 s v l 36
  let vd ← get32 s v l 40
  let speed ← get32 s v l 44
  let roll ← get64 s v l 48
  let pitch ← get64 s v l 56
  let heading ← get64 s v l 64
  let track ← get64 s v l 72
  return { Oreg.unwritten with
    ins := { week := week, timeMs := timeMs, align := align, fix := fix, lat := lat, lon := lon, alt := alt, vn := vn,
             ve := ve, vd := vd, speed := speed, roll := roll, pitch := pitch, heading := heading, track := track } }

/-- DECODE_INSRMS (R124). -/
def decodeInsrms (s : State) (v : Nat) (l : Byte) : Except Fault Oreg := do
  let week ← get16 s v l 0
  let timeMs ← get32 s v l 2
  let align ← get8 s v l 6
  let fix ← get8 s v l 7
  return { Oreg.unwritten with rms := { week := week, timeMs := timeMs, align := align, fix := fix } }

/-- DECODE_MSL (R125): latitude and longitude converted to degrees by the instance's RAD2DEG (R7, R126), the altitude copied. -/
def decodeMsl (s : State) (v : Nat) (l : Byte) : Except Fault Oreg := do
  let lat ← get64 s v l 0
  let lon ← get64 s v l 8
  let alt ← get64 s v l 16
  return { Oreg.unwritten with msl := { latDeg := lat.map (rad2deg s.params.rad2deg), lonDeg := lon.map (rad2deg s.params.rad2deg),
                                         alt := alt } }

/-! ### The item rows -/

/-- An item row at the cursor: it is the row only while a walk is at an item with this header (R105); `body` gets the
cursor and `matchedAny`. -/
def itemRow (s : State) (k l : Byte) (selected : Bool) (body : Nat → Bool → Result) : Result :=
  match s.disp with
  | .walk c any =>
    match s.itemAt c with
    | .ok (some h) => if h = (k, l) ∧ selected = true then body c any else .refused .rowNotSelected
    | .ok none => .refused .rowNotSelected
    | .error f => .fault f
  | .idle => .refused .rowNotSelected
  | .entry => .refused .rowNotSelected
  | .done _ _ => .refused .rowNotSelected

/-- The end of every handled item: `matchedAny` is true (R111) and the cursor is at c + 2 + L (R110). -/
def State.nextItem (s : State) (c : Nat) (l : Byte) : State :=
  { s with disp := .walk (c + 2 + l.toNat) true }

/-- A decoded item (R106): the bit, then the decoder on the value start c + 2. -/
def decodedItem (s : State) (k l : Byte) (dec : State → Nat → Byte → Except Fault Oreg) : Result :=
  itemRow s k l true fun c _ =>
    match dec s (c + 2) l with
    | .ok d => .next ({ (s.setBit k) with oreg := d.store s.oreg }.nextItem c l)
    | .error f => .fault f

/-- ITEM.TIME (R106, R118). -/
def execItemTime (l : Byte) (s : State) : Result := decodedItem s s.params.kindTime l decodeTime

/-- ITEM.POSITION (R106, R119). -/
def execItemPosition (l : Byte) (s : State) : Result := decodedItem s s.params.kindPosition l decodePosition

/-- ITEM.VELOCITY (R106, R120). -/
def execItemVelocity (l : Byte) (s : State) : Result := decodedItem s s.params.kindVelocity l decodeVelocity

/-- ITEM.DOP (R106, R121). -/
def execItemDop (l : Byte) (s : State) : Result := decodedItem s s.params.kindDop l decodeDop

/-- ITEM.SIGMA (R106, R122). -/
def execItemSigma (l : Byte) (s : State) : Result := decodedItem s s.params.kindSigma l decodeSigma

/-- ITEM.INS (R106, R123). -/
def execItemIns (l : Byte) (s : State) : Result := decodedItem s s.params.kindIns l decodeIns

/-- ITEM.INSRMS (R106, R124). -/
def execItemInsrms (l : Byte) (s : State) : Result := decodedItem s s.params.kindInsrms l decodeInsrms

/-- ITEM.MSL (R106, R125). -/
def execItemMsl (l : Byte) (s : State) : Result := decodedItem s s.params.kindMsl l decodeMsl

/-- ITEM.in_range_undecoded (R107): the bit and nothing else. -/
def execItemInRangeUndecoded (k l : Byte) (s : State) : Result :=
  itemRow s k l (decide (k.toNat ≤ s.params.maxKind) && !s.params.kinds.contains k) fun c _ =>
    .next ((s.setBit k).nextItem c l)

/-- ITEM.out_of_range.skip (R108): the item is passed over. -/
def execItemOutOfRangeSkip (k l : Byte) (s : State) : Result :=
  itemRow s k l (decide (s.params.maxKind < k.toNat) && s.params.unknownKind == .skip) fun c _ =>
    .next (s.nextItem c l)

/-- ITEM.out_of_range.abort (R109): DISPATCH returns with a fault; what earlier items did stays (R155). -/
def execItemOutOfRangeAbort (k l : Byte) (s : State) : Result :=
  itemRow s k l (decide (s.params.maxKind < k.toNat) && s.params.unknownKind == .abort) fun _ any =>
    .next { s with disp := .done any true }

end Sys2Proof.Machine
end

