-- ==== Sys2Proof/Machine/Disp.lean ====
section
/-!
DEFINITION. DISPATCH (41_dispatch.md R101 to R112): the two packet-type rows, the item walk, and the whole procedure as
FRAMER runs it inside the FEED of a matching checksum byte.
-/

namespace Sys2Proof.Machine

/-- A packet-type row: only where DISPATCH has been invoked and has not yet tested the type (R102, R103). -/
def dispatchRow (s : State) (selected : Bool) (s' : State) : Result :=
  if s.disp = .entry ∧ selected = true then .next s' else .refused .rowNotSelected

/-- DISPATCH.aggregate: the bitset is cleared (R102), the sub-header skipped, the walk begins at offset 3 (R104). -/
def execDispatchAggregate (s : State) : Result :=
  dispatchRow s (s.ptype == s.params.aggType) { s with bitset := 0, disp := .walk 3 false }

/-- DISPATCH.other: the bitset is cleared (R102) and DISPATCH returns (false, false) (R103). -/
def execDispatchOther (t : Byte) (s : State) : Result :=
  dispatchRow s (s.ptype == t && t != s.params.aggType) { s with bitset := 0, disp := .done false false }

/-- The packet-type test (R103). -/
def dispatchType (s : State) : Result :=
  if s.ptype = s.params.aggType then execDispatchAggregate s else execDispatchOther s.ptype s

/-- One item, by the chain of R112. -/
def handleItem (k l : Byte) (s : State) : Result :=
  if s.params.maxKind < k.toNat then
    match s.params.unknownKind with
    | .skip => execItemOutOfRangeSkip k l s
    | .abort => execItemOutOfRangeAbort k l s
  else if k = s.params.kindTime then execItemTime l s
  else if k = s.params.kindPosition then execItemPosition l s
  else if k = s.params.kindVelocity then execItemVelocity l s
  else if k = s.params.kindDop then execItemDop l s
  else if k = s.params.kindSigma then execItemSigma l s
  else if k = s.params.kindIns then execItemIns l s
  else if k = s.params.kindInsrms then execItemInsrms l s
  else if k = s.params.kindMsl then execItemMsl l s
  else execItemInRangeUndecoded k l s

/-- The item loop of R112: while `c + 1 < n`, take the item at the cursor; then return (any, false). The fuel bounds the
number of turns; n + 1 is enough, since each item moves the cursor by at least 2 (log entry 22). -/
def walkItems : Nat → State → Result
  | 0, s => .next s
  | fuel + 1, s =>
    match s.disp with
    | .walk c any =>
      match s.itemAt c with
      | .ok (some (k, l)) => andThen (handleItem k l s) (walkItems fuel)
      | .ok none => .next { s with disp := .done any false }
      | .error f => .fault f
    | .idle => .next s
    | .entry => .next s
    | .done _ _ => .next s

/-- DISPATCH() (R112). -/
def dispatch (s : State) : Result :=
  andThen (dispatchType { s with disp := .entry }) fun t => walkItems (t.n.toNat + 1) t

/-- What FRAMER does with DISPATCH's (matchedAny, fault) (R93), ending the FEED. -/
def State.finishFeed (s : State) (any fault : Bool) : State :=
  if fault then { (s.raiseHalt .unknownKind).emit .fault with disp := .idle }
  else { s.emit (if any then .frameOk else .frameBad) with st := .endOfFrame, disp := .idle }

/-- The end of the FEED that ran DISPATCH. A DISPATCH that has not returned has no result to report. -/
def finish (s : State) : Result :=
  match s.disp with
  | .done any fault => .next (s.finishFeed any fault)
  | .idle => .refused .rowNotSelected
  | .entry => .refused .rowNotSelected
  | .walk _ _ => .refused .rowNotSelected

end Sys2Proof.Machine
end

