-- ==== Sys2Proof/Machine/Feed.lean ====
section
/-!
DEFINITION. The twelve FEED rows (40_framing.md R86 to R96), one definition each. Every one writes its result code to
`last_result` and to the result port (R85, R98).
-/

namespace Sys2Proof.Machine

/-- FEED.AwaitStart.STX (R86). -/
def execFeedAwaitStartStx (s : State) : Result :=
  feedRow s (s.st == .awaitStart) <|
    .next ({ s with count := 0, acc := 0, st := .status }.emit .incomplete)

/-- FEED.AwaitStart.other (R86): the byte is discarded. -/
def execFeedAwaitStartOther (b : Byte) (s : State) : Result :=
  feedRow s (s.st == .awaitStart && b != stx) <|
    .next (s.emit .incomplete)

/-- FEED.Status (R87). -/
def execFeedStatus (b : Byte) (s : State) : Result :=
  feedRow s (s.st == .status) <|
    .next ({ s.accumulate b with statusB := b, st := .packetType }.emit .incomplete)

/-- FEED.PacketType (R88). -/
def execFeedPacketType (b : Byte) (s : State) : Result :=
  feedRow s (s.st == .packetType) <|
    .next ({ s.accumulate b with ptype := b, st := .length }.emit .incomplete)

/-- FEED.Length.ok (R89): an admissible length; N = 0 goes straight to Checksum. -/
def execFeedLengthOk (b : Byte) (s : State) : Result :=
  feedRow s (s.st == .length && decide (b.toNat ≤ s.params.cap)) <|
    .next ({ s.accumulate b with n := b, st := if b = 0 then .checksum else .data }.emit .incomplete)

/-- FEED.Length.overflow.failclosed (R90): the frame is rejected; `n` is not written. -/
def execFeedLengthOverflowFailclosed (b : Byte) (s : State) : Result :=
  feedRow s (s.st == .length && decide (s.params.cap < b.toNat) && s.params.overflow == .failClosed) <|
    .next ({ s.accumulate b with st := .awaitStart }.emit .frameBad)

/-- FEED.Length.overflow.abort (R91): the block halts; `n` is not written. -/
def execFeedLengthOverflowAbort (b : Byte) (s : State) : Result :=
  feedRow s (s.st == .length && decide (s.params.cap < b.toNat) && s.params.overflow == .abort) <|
    .next (((s.accumulate b).raiseHalt .lengthOverflow).emit .fault)

/-- FEED.Data (R92): the byte goes to the cell at the old `count`; the new count is compared with `n`. -/
def execFeedData (b : Byte) (s : State) : Result :=
  feedRow s (s.st == .data) <|
    match s.bufWrite s.count.toNat b with
    | .error f => .fault f
    | .ok s1 =>
      let k := s.count.toNat + 1
      .next ({ s1.accumulate b with
        count := BitVec.ofNat 8 k
        st := if k = s.n.toNat then .checksum else .data }.emit .incomplete)

/-- FEED.Checksum.match (R93): DISPATCH runs inside this FEED; its outcome is the result. -/
def execFeedChecksumMatch (b : Byte) (s : State) : Result :=
  feedRow s (s.st == .checksum && b == s.acc) <|
    andThen (dispatch { s with rxCk := b }) finish

/-- FEED.Checksum.mismatch (R94): no dispatch. -/
def execFeedChecksumMismatch (b : Byte) (s : State) : Result :=
  feedRow s (s.st == .checksum && b != s.acc) <|
    .next ({ s with rxCk := b, st := .endOfFrame }.emit .frameBad)

/-- FEED.EndOfFrame (R95): any byte is the end marker. -/
def execFeedEndOfFrame (b : Byte) (s : State) : Result :=
  feedRow s (s.st == .endOfFrame) <|
    .next ({ s with etx := b, st := .awaitStart }.emit .incomplete)

/-- FEED.Halted (R96): the byte is accepted and dropped. -/
def execFeedHalted (_b : Byte) (s : State) : Result :=
  feedRow s (s.st == .halted) <|
    .next (s.emit .fault)

end Sys2Proof.Machine
end

