-- ==== Sys2Proof/Machine/RegMap.lean ====
section
/-!
DEFINITION. The host register map (10_state.md R40 to R46): the 32-bit word at each address. An entry is `none` where an
OREG register placed in it is still `unwritten` (R131); the READ then answers UnwrittenRead with what the registers hold. An address with no entry is a reserved word and reads 0 (R46).
-/

namespace Sys2Proof.Machine

/-- STATUS (R41). -/
def State.statusWord (s : State) : Word :=
  0#22 ++ causeBits s.haltCause ++ 0#2 ++ resultBits s.lastResult ++ 0#1 ++ stCode s.st

/-- CONFIG (R42). -/
def configWord (p : Params) : Word :=
  BitVec.ofNat 8 p.cap ++ BitVec.ofNat 8 p.maxKind ++ p.aggType ++ 0#6 ++
    (match p.overflow with | .failClosed => 0#1 | .abort => 1#1) ++
    (match p.unknownKind with | .skip => 0#1 | .abort => 1#1)

/-- KINDS0 (R42). -/
def kinds0Word (p : Params) : Word := p.kindDop ++ p.kindVelocity ++ p.kindPosition ++ p.kindTime

/-- KINDS1 (R42). -/
def kinds1Word (p : Params) : Word := p.kindMsl ++ p.kindInsrms ++ p.kindIns ++ p.kindSigma

/-- FRAME0 (R43). -/
def State.frame0Word (s : State) : Word := s.rxCk ++ s.n ++ s.ptype ++ s.statusB

/-- FRAME1 (R43). -/
def State.frame1Word (s : State) : Word := 0#8 ++ s.etx ++ s.acc ++ s.count

/-- BITSETi (R44): bits 32i to 32i + 31 of the bitset, 0 above MAX_KIND. -/
def State.bitsetWord (s : State) (i : Nat) : Word :=
  (s.bitset &&& bitsetMask s.params).extractLsb' (32 * i) 32

/-- The words of STATUS, CONFIG, FRAME0, FRAME1, BITSET0 to BITSET7, KINDS0 and KINDS1 (R40). -/
def State.systemWords (s : State) : List (Nat × Option Word) :=
  [(0x000, some s.statusWord), (0x004, some (configWord s.params)), (0x008, some s.frame0Word),
   (0x00C, some s.frame1Word), (0x010, some (s.bitsetWord 0)), (0x014, some (s.bitsetWord 1)),
   (0x018, some (s.bitsetWord 2)), (0x01C, some (s.bitsetWord 3)), (0x020, some (s.bitsetWord 4)),
   (0x024, some (s.bitsetWord 5)), (0x028, some (s.bitsetWord 6)), (0x02C, some (s.bitsetWord 7)),
   (0x030, some (kinds0Word s.params)), (0x034, some (kinds1Word s.params))]

/-- The two words of an f64 field, the low word at the lower address (R45). -/
def f64Words (a : Nat) (x : Option F64) : List (Nat × Option Word) :=
  [(a, x.map (·.extractLsb' 0 32)), (a + 4, x.map (·.extractLsb' 32 32))]

/-- The word of a u16 field (R45). -/
def u16Word (x : Option (BitVec 16)) : Option Word := x.map (0#16 ++ ·)

/-- The word of two u8 fields, the first in the low byte (R45). -/
def bytePairWord (x y : Option Byte) : Option Word := do
  let x ← x
  let y ← y
  return 0#16 ++ y ++ x

/-- TIME_MISC (R45). -/
def timeMiscWord (t : TimeSlot) : Option Word := do
  let sats ← t.sats
  let flags1 ← t.flags1
  let flags2 ← t.flags2
  return 0#8 ++ flags2 ++ flags1 ++ sats

def TimeSlot.words (t : TimeSlot) : List (Nat × Option Word) :=
  [(0x040, t.towMs), (0x044, t.week), (0x048, timeMiscWord t)]

def PosSlot.words (t : PosSlot) : List (Nat × Option Word) :=
  f64Words 0x050 t.lat ++ f64Words 0x058 t.lon ++ f64Words 0x060 t.hgt

def VelSlot.words (t : VelSlot) : List (Nat × Option Word) :=
  [(0x070, t.hspeed), (0x074, t.vspeed), (0x078, t.heading)]

def DopSlot.words (t : DopSlot) : List (Nat × Option Word) :=
  [(0x080, t.hdop)]

def SigSlot.words (t : SigSlot) : List (Nat × Option Word) :=
  [(0x090, t.east), (0x094, t.north), (0x098, t.vert)]

def InsSlot.words (t : InsSlot) : List (Nat × Option Word) :=
  [(0x0A0, u16Word t.week), (0x0A4, t.timeMs), (0x0A8, bytePairWord t.align t.fix)] ++
    f64Words 0x0B0 t.lat ++ f64Words 0x0B8 t.lon ++ f64Words 0x0C0 t.alt ++
    [(0x0C8, t.vn), (0x0CC, t.ve), (0x0D0, t.vd), (0x0D4, t.speed)] ++
    f64Words 0x0D8 t.roll ++ f64Words 0x0E0 t.pitch ++ f64Words 0x0E8 t.heading ++ f64Words 0x0F0 t.track

def RmsSlot.words (t : RmsSlot) : List (Nat × Option Word) :=
  [(0x100, u16Word t.week), (0x104, t.timeMs), (0x108, bytePairWord t.align t.fix)]

def MslSlot.words (t : MslSlot) : List (Nat × Option Word) :=
  f64Words 0x110 t.latDeg ++ f64Words 0x118 t.lonDeg ++ f64Words 0x120 t.alt

/-- The OREG slot words (R45). -/
def Oreg.words (o : Oreg) : List (Nat × Option Word) :=
  o.time.words ++ o.pos.words ++ o.vel.words ++ o.dop.words ++ o.sig.words ++ o.ins.words ++ o.rms.words ++ o.msl.words

/-- The register map (R40). -/
def State.regMap (s : State) : List (Nat × Option Word) :=
  s.systemWords ++ s.oreg.words

/-- The word of the registers' contents at an OREG address, written or not (R131: what hardware returns). -/
def State.contentsWord (s : State) (a : HostAddr) : Word :=
  (((s.oreg.contents s.resetChoice).words.lookup a.toNat).getD none).getD 0

/-- What a READ of an address answers (R130): its word; UnwrittenRead where the word holds an unwritten register, with
what the registers hold (R131; log entry 11); 0 where it is reserved (R46). -/
def State.readResponse (s : State) (a : HostAddr) : Response :=
  match s.regMap.lookup a.toNat with
  | some (some w) => .word w
  | some none => .unwrittenRead a (s.contentsWord a)
  | none => .word 0

end Sys2Proof.Machine
end

