-- ==== Sys2Proof/Machine/HostOps.lean ====
section
/-!
DEFINITION. The host operations READ, WRITE and RESET (43_host_ops.md, 70_reset_and_hazards.md R157). Each takes place
between FEED transactions (R134, R157).
-/

namespace Sys2Proof.Machine

/-- READ (R130): a misaligned or narrow read is refused (R132); any other is answered, a word with an unwritten register
as UnwrittenRead (R131; log entry 11), and no state of the engine changes (R56). -/
def execRead (width : ReadWidth) (a : HostAddr) (s : State) : Result :=
  between s <|
    if a.toNat % 4 ≠ 0 ∨ width ≠ .w32 then .refused .misalignedRead
    else .next { s with resp := s.readResponse a }

/-- WRITE (R133): ignored; it returns nothing. -/
def execWrite (_a : HostAddr) (_w : Word) (s : State) : Result :=
  between s <| .next { s with resp := .none }

/-- RESET (R157). -/
def execReset (s : State) : Result :=
  between s <| .next s.resetAll

end Sys2Proof.Machine
end

