-- ==== Sys2Proof/Machine/Dispatch.lean ====
section
/-!
DEFINITION. One arm for each row of the opcode table.
-/

namespace Sys2Proof.Machine

def exec (i : Instr) (s : State) : Host.Outcome State Fault Refusal :=
  match i with
  | .feedAwaitStartStx => Sys2Proof.Machine.execFeedAwaitStartStx s
  | .feedAwaitStartOther b => Sys2Proof.Machine.execFeedAwaitStartOther b s
  | .feedStatus b => Sys2Proof.Machine.execFeedStatus b s
  | .feedPacketType b => Sys2Proof.Machine.execFeedPacketType b s
  | .feedLengthOk b => Sys2Proof.Machine.execFeedLengthOk b s
  | .feedLengthOverflowFailclosed b => Sys2Proof.Machine.execFeedLengthOverflowFailclosed b s
  | .feedLengthOverflowAbort b => Sys2Proof.Machine.execFeedLengthOverflowAbort b s
  | .feedData b => Sys2Proof.Machine.execFeedData b s
  | .feedChecksumMatch b => Sys2Proof.Machine.execFeedChecksumMatch b s
  | .feedChecksumMismatch b => Sys2Proof.Machine.execFeedChecksumMismatch b s
  | .feedEndOfFrame b => Sys2Proof.Machine.execFeedEndOfFrame b s
  | .feedHalted b => Sys2Proof.Machine.execFeedHalted b s
  | .dispatchAggregate => Sys2Proof.Machine.execDispatchAggregate s
  | .dispatchOther t => Sys2Proof.Machine.execDispatchOther t s
  | .itemTime l => Sys2Proof.Machine.execItemTime l s
  | .itemPosition l => Sys2Proof.Machine.execItemPosition l s
  | .itemVelocity l => Sys2Proof.Machine.execItemVelocity l s
  | .itemDop l => Sys2Proof.Machine.execItemDop l s
  | .itemSigma l => Sys2Proof.Machine.execItemSigma l s
  | .itemIns l => Sys2Proof.Machine.execItemIns l s
  | .itemInsrms l => Sys2Proof.Machine.execItemInsrms l s
  | .itemMsl l => Sys2Proof.Machine.execItemMsl l s
  | .itemInRangeUndecoded k l => Sys2Proof.Machine.execItemInRangeUndecoded k l s
  | .itemOutOfRangeSkip k l => Sys2Proof.Machine.execItemOutOfRangeSkip k l s
  | .itemOutOfRangeAbort k l => Sys2Proof.Machine.execItemOutOfRangeAbort k l s
  | .read width a => Sys2Proof.Machine.execRead width a s
  | .write a w => Sys2Proof.Machine.execWrite a w s
  | .reset => Sys2Proof.Machine.execReset s

end Sys2Proof.Machine
end

