-- ==== Sys2Proof/Decode.lean ====
section
/-!
DEFINITION. Decoding and encoding (30_encoding.md; the conditions of spec/opcode_table.json).

A word alone does not say its row: the byte-in port is read under the FRAMER state, an item header under the
parameters (R84). So the decoder takes a context and a `Code`, the word together with the place it was read from.
Host operations have no bit pattern ("n/a" in the table): they arrive as typed transactions (log entry 18).
-/

namespace Sys2Proof

/-- A word and the place it was read from, one constructor for each format (the host operations and FEED share the
first: both are host transactions). -/
inductive Code where
  | transaction (t : Transaction)
  /-- The packet-type register as DISPATCH tests it (R103). -/
  | packetType (t : Byte)
  /-- The two header bytes of the item at the cursor (R70). -/
  | itemHeader (k l : Byte)
  deriving DecidableEq, Repr

/-- Why bytes are no word of a format. -/
inductive DecodeError where
  /-- There is no byte. -/
  | noByte
  /-- One byte is left where an item header needs two; it is no item (R105). -/
  | danglingByte
  /-- A host operation has no byte encoding in the table. -/
  | notAByteFormat
  deriving DecidableEq, Repr

/-- The row of a FEED byte (R85: exactly one of R86 to R96, chosen by `st` and, in AwaitStart, Length and Checksum, by
the byte). -/
def decodeFeed (cx : Ctx) (b : Byte) : Instr :=
  match cx.st with
  | .awaitStart => if b = stx then .feedAwaitStartStx else .feedAwaitStartOther b
  | .status => .feedStatus b
  | .packetType => .feedPacketType b
  | .length =>
    if b.toNat ≤ cx.params.cap then .feedLengthOk b
    else match cx.params.overflow with
      | .failClosed => .feedLengthOverflowFailclosed b
      | .abort => .feedLengthOverflowAbort b
  | .data => .feedData b
  | .checksum => if b = cx.acc then .feedChecksumMatch b else .feedChecksumMismatch b
  | .endOfFrame => .feedEndOfFrame b
  | .halted => .feedHalted b

/-- The row of a packet type (R103). -/
def decodePacketType (p : Params) (t : Byte) : Instr :=
  if t = p.aggType then .dispatchAggregate else .dispatchOther t

/-- The row of an item header: the chain of R112 (classes of R72). -/
def decodeItem (p : Params) (k l : Byte) : Instr :=
  if p.maxKind < k.toNat then
    match p.unknownKind with
    | .skip => .itemOutOfRangeSkip k l
    | .abort => .itemOutOfRangeAbort k l
  else if k = p.kindTime then .itemTime l
  else if k = p.kindPosition then .itemPosition l
  else if k = p.kindVelocity then .itemVelocity l
  else if k = p.kindDop then .itemDop l
  else if k = p.kindSigma then .itemSigma l
  else if k = p.kindIns then .itemIns l
  else if k = p.kindInsrms then .itemInsrms l
  else if k = p.kindMsl then .itemMsl l
  else .itemInRangeUndecoded k l

/-- The decoder: every word has exactly one row (R79). -/
def decode (cx : Ctx) : Code → Instr
  | .transaction (.feed b) => decodeFeed cx b
  | .transaction (.read w a) => .read w a
  | .transaction (.write a w) => .write a w
  | .transaction .reset => .reset
  | .packetType t => decodePacketType cx.params t
  | .itemHeader k l => decodeItem cx.params k l

/-- The decoder on bytes: the first word of the format, and the bytes after it. -/
def decodeBytes (cx : Ctx) : Format → List Byte → Except DecodeError (Instr × List Byte)
  | .fsmByte, b :: rest => .ok (decode cx (.transaction (.feed b)), rest)
  | .packetType, t :: rest => .ok (decode cx (.packetType t), rest)
  | .itemKind, k :: l :: rest => .ok (decode cx (.itemHeader k l), rest)
  | .itemKind, [_] => .error .danglingByte
  | .hostOp, _ => .error .notAByteFormat
  | .fsmByte, [] => .error .noByte
  | .packetType, [] => .error .noByte
  | .itemKind, [] => .error .noByte

/-- The encoder: the word of a row (the "match" column, with the row's parameter in place of its default; R71). -/
def encode (p : Params) : Instr → Code
  | .feedAwaitStartStx => .transaction (.feed stx)
  | .feedAwaitStartOther b => .transaction (.feed b)
  | .feedStatus b => .transaction (.feed b)
  | .feedPacketType b => .transaction (.feed b)
  | .feedLengthOk b => .transaction (.feed b)
  | .feedLengthOverflowFailclosed b => .transaction (.feed b)
  | .feedLengthOverflowAbort b => .transaction (.feed b)
  | .feedData b => .transaction (.feed b)
  | .feedChecksumMatch b => .transaction (.feed b)
  | .feedChecksumMismatch b => .transaction (.feed b)
  | .feedEndOfFrame b => .transaction (.feed b)
  | .feedHalted b => .transaction (.feed b)
  | .dispatchAggregate => .packetType p.aggType
  | .dispatchOther t => .packetType t
  | .itemTime l => .itemHeader p.kindTime l
  | .itemPosition l => .itemHeader p.kindPosition l
  | .itemVelocity l => .itemHeader p.kindVelocity l
  | .itemDop l => .itemHeader p.kindDop l
  | .itemSigma l => .itemHeader p.kindSigma l
  | .itemIns l => .itemHeader p.kindIns l
  | .itemInsrms l => .itemHeader p.kindInsrms l
  | .itemMsl l => .itemHeader p.kindMsl l
  | .itemInRangeUndecoded k l => .itemHeader k l
  | .itemOutOfRangeSkip k l => .itemHeader k l
  | .itemOutOfRangeAbort k l => .itemHeader k l
  | .read w a => .transaction (.read w a)
  | .write a w => .transaction (.write a w)
  | .reset => .transaction .reset

/-- The format a word is read in. -/
def codeFormat : Code → Format
  | .transaction (.feed _) => .fsmByte
  | .transaction (.read _ _) => .hostOp
  | .transaction (.write _ _) => .hostOp
  | .transaction .reset => .hostOp
  | .packetType _ => .packetType
  | .itemHeader _ _ => .itemKind

/-- The bytes of a word, in the order they are read; a host operation has none. -/
def codeBytes : Code → List Byte
  | .transaction (.feed b) => [b]
  | .transaction (.read _ _) => []
  | .transaction (.write _ _) => []
  | .transaction .reset => []
  | .packetType t => [t]
  | .itemHeader k l => [k, l]

/-! ### The opcode table's own numbering

The table's words carry no format and no FRAMER state. `decodeTableWord` reads a word under the default parameters in
AwaitStart, as the first row in the table's order whose fixed bits it has: DESIGN CHOICE (log entry 20), safe. So a one-byte 0x02
is FEED.AwaitStart.STX, and the Position kind, which has the same code, needs the header's second byte to be told from
it. -/

/-- `k` bytes of a table word, the first the least significant. -/
def tableBytes : Nat → Nat → List Byte
  | 0, _ => []
  | k + 1, w => BitVec.ofNat 8 w :: tableBytes k (w / 256)

/-- The bytes of a table word laid out for the decoder: at least the two of an item header, zeros above `nbits`. -/
def tableLayout (nbits w : Nat) : List Byte :=
  tableBytes (max 2 ((nbits + 7) / 8)) (w % 2 ^ nbits)

/-- The format of a table word: a word of more than one byte is an item header (no other format has more); a
one-byte word is STX, AGG_TYPE or a decoded kind if it is the fixed bits of that row, and any other is a FEED byte. -/
def tableFormat (p : Params) (nbits w : Nat) : Format :=
  let b := BitVec.ofNat 8 (w % 2 ^ nbits)
  if 8 < nbits then .itemKind
  else if b = stx then .fsmByte
  else if b = p.aggType then .packetType
  else if p.kinds.contains b then .itemKind
  else .fsmByte

/-- The instruction the decoder reads from a table word. -/
def decodeTableWord (nbits w : Nat) : Option Instr :=
  let p := Params.default
  match decodeBytes { params := p, st := .awaitStart, acc := 0 } (tableFormat p nbits w) (tableLayout nbits w) with
  | .ok (i, _) => some i
  | .error _ => none

end Sys2Proof
end

