-- ==== Sys2Proof/Machine/Fetch.lean ====
section
/-!
DEFINITION. What the machine does next. Between transactions it takes the next host transaction, if there is one
(20_memory.md R60, 70_reset_and_hazards.md R170). In a state inside a FEED, which no run from reset stops in, it goes
on with that FEED row by row (log entry 8).
-/

namespace Sys2Proof.Machine

/-- The next row and the state it runs in, or `none` where no row of the table is next. -/
def State.fetch (s : State) : Except Fault (Option (Instr × State)) :=
  match s.disp with
  | .idle =>
    match s.input with
    | [] => .ok none
    | t :: rest => .ok (some (decode s.ctx (.transaction t), { s with input := rest }))
  | .entry => .ok (some (decode s.ctx (.packetType s.ptype), s))
  | .walk c _ =>
    match s.itemAt c with
    | .ok (some (k, l)) => .ok (some (decode s.ctx (.itemHeader k l), s))
    | .ok none => .ok none
    | .error f => .error f
  | .done _ _ => .ok none

/-- What happens where no row is next: nothing between transactions (60_exceptions.md R154), the end of the item walk
(R105), or the end of the FEED (R93). -/
def State.advance (s : State) : Result :=
  match s.disp with
  | .idle => .next s
  | .entry => .next s
  | .walk _ any => .next { s with disp := .done any false }
  | .done any fault => .next (s.finishFeed any fault)

/-- The buffer holding `bs` from index `i` on, over the cells `m`. -/
def Memory.load : Memory → Nat → List Byte → Memory
  | m, _, [] => m
  | m, i, b :: bs => Memory.load (m.set i b) (i + 1) bs

/-- `s` with the instruction of a table word next (log entry 20): a FEED byte pending in AwaitStart; a packet type in
its register with DISPATCH invoked; an item header in the buffer behind the sub-header, with the walk at it. -/
def State.placeWord (s : State) (nbits w : Nat) : State :=
  let bytes := tableLayout nbits w
  match tableFormat s.params nbits w with
  | .fsmByte => { s with st := .awaitStart, disp := .idle, input := [.feed (bytes.headD 0)] }
  | .packetType => { s with ptype := bytes.headD 0, disp := .entry }
  | .itemKind =>
    { s with buf := s.buf.load 3 bytes, n := BitVec.ofNat 8 (3 + bytes.length),
             count := BitVec.ofNat 8 (3 + bytes.length), disp := .walk 3 false }
  | .hostOp => s

end Sys2Proof.Machine
end

