-- ==== Sys2Proof/Machine/Step.lean ====
section
/-!
DEFINITION. One step of the engine: the next host transaction, decoded and run whole (00_scope.md R14). There is no
program counter; the transactions the host presents are the program (20_memory.md R64).
-/

namespace Sys2Proof.Machine

/-- One step. A parameter set that breaks R8 has no instance. -/
def step (s : State) : Host.Outcome State Fault Refusal :=
  if s.params.wf then
    match s.fetch with
    | .ok (some (i, t)) => exec i t
    | .ok none => s.advance
    | .error f => .fault f
  else .refused .noInstance

/-- `s` with the instruction of a table word placed so that the next step runs it. -/
def State.withFetchWord (s : State) (nbits w : Nat) : State := s.placeWord nbits w

end Sys2Proof.Machine
end

