-- ==== Sys2Proof/Safety.lean ====
section
/-!
DEFINITION. What claims about the engine are stated in: the invariant of its states (10_state.md R23, R24), the meaning of a
payload as a list of bytes, given from the rules and without the machine's buffer or cursor (30_encoding.md R69, R70,
R74; 42_decoders.md R114, R115), and the values of binary64 patterns as numbers (R126).
-/

namespace Sys2Proof.Machine

/-! ### The invariant -/

/-- The sum mod 256 of the payload bytes in cells 0 to k − 1 (R97). -/
def payloadSum (m : Memory) : Nat → Byte
  | 0 => 0
  | k + 1 => payloadSum m k + (m.cell k).getD 0

/-- R24: what the checksum accumulator holds while a frame is being taken. -/
def SumOk (s : State) : Prop :=
  match s.st with
  | .status => s.acc = 0
  | .packetType => s.acc = s.statusB
  | .length => s.acc = s.statusB + s.ptype
  | .data => s.acc = s.statusB + s.ptype + s.n + payloadSum s.buf s.count.toNat
  | .checksum => s.acc = s.statusB + s.ptype + s.n + payloadSum s.buf s.count.toNat
  | .awaitStart => True
  | .endOfFrame => True
  | .halted => True

/-- R23: bytes received ≤ N ≤ capacity, with N not yet reached in Data and reached in Checksum; none before Data. -/
def CountOk (s : State) : Prop :=
  s.count.toNat ≤ s.n.toNat ∧ s.n.toNat ≤ s.params.cap ∧
  (match s.st with
    | .status => s.count = 0
    | .packetType => s.count = 0
    | .length => s.count = 0
    | .data => s.count.toNat < s.n.toNat
    | .checksum => s.count = s.n
    | .awaitStart => True
    | .endOfFrame => True
    | .halted => True)

/-- What holds of the engine between transactions. -/
structure Inv (s : State) : Prop where
  /-- R8. -/
  params : s.params.wf = true
  /-- The buffer is in its canonical form, inside CAP (R57). -/
  memory : s.buf.wf s.params.cap
  /-- R23. -/
  counts : CountOk s
  /-- The cells received so far are written (R58). -/
  written : ∀ i < s.count.toNat, (s.buf.cell i).isSome
  /-- R24. -/
  sum : SumOk s
  /-- No bit above MAX_KIND (R28). -/
  bits : ∀ k, s.params.maxKind < k → s.bitset.getLsbD k = false
  /-- Halted goes with a cause and with the result Fault (R144, R96). -/
  halt : (s.st = .halted ↔ s.haltCause ≠ .none) ∧ (s.st = .halted → s.lastResult = .fault)
  /-- The dispatch cursor has no value between transactions (R26). -/
  idle : s.disp = .idle

/-- The answer is a next state. -/
def Completes (r : Result) : Prop := ∃ t, r = .next t

/-! ### A payload as a list of bytes -/

/-- The unsigned number whose big-endian bytes are `bs` (R12, R51). -/
def beNat (bs : List Byte) : Nat := bs.foldl (fun x b => x * 256 + b.toNat) 0

/-- The field of `w` bytes at value offset `off` of an item's readable bytes, where it lies wholly inside them
(R114, R115). -/
def wireField (value : List Byte) (off w : Nat) : Option (BitVec (8 * w)) :=
  if off + w ≤ value.length then some (BitVec.ofNat (8 * w) (beNat ((value.drop off).take w))) else none

/-- What an item of kind `k` with these readable bytes writes (the layouts of R118 to R125). -/
def wireItem (p : Params) (k : Byte) (value : List Byte) : Oreg :=
  let u8 (off : Nat) : Option Byte := wireField value off 1
  let u16 (off : Nat) : Option (BitVec 16) := wireField value off 2
  let u32 (off : Nat) : Option (BitVec 32) := wireField value off 4
  let f64 (off : Nat) : Option F64 := wireField value off 8
  let o := Oreg.unwritten
  if k = p.kindTime then { o with time := ⟨u32 0, u32 4, u8 8, u8 9, u8 10⟩ }
  else if k = p.kindPosition then { o with pos := ⟨f64 0, f64 8, f64 16⟩ }
  else if k = p.kindVelocity then
    let gate (bit : Nat) (x : Option F32) : Option F32 := if (value.headD 0).getLsbD bit then x else none
    { o with vel := { hspeed := gate 0 (u32 1), heading := gate 2 (u32 5), vspeed := gate 0 (u32 9) } }
  else if k = p.kindDop then { o with dop := ⟨u32 4⟩ }
  else if k = p.kindSigma then { o with sig := ⟨u32 4, u32 8, u32 16⟩ }
  else if k = p.kindIns then
    { o with ins := ⟨u16 0, u32 2, u8 6, u8 7, f64 8, f64 16, f64 24, u32 32, u32 36, u32 40, u32 44, f64 48, f64 56,
                     f64 64, f64 72⟩ }
  else if k = p.kindInsrms then { o with rms := ⟨u16 0, u32 2, u8 6, u8 7⟩ }
  else if k = p.kindMsl then { o with msl := ⟨(f64 0).map (rad2deg p.rad2deg), (f64 8).map (rad2deg p.rad2deg), f64 16⟩ }
  else o

/-- The items of a byte list: kind and readable value bytes; a single byte left over is no item (R70, R105). -/
def itemsFrom : Nat → List Byte → List (Byte × List Byte)
  | 0, _ => []
  | _ + 1, [] => []
  | _ + 1, [_] => []
  | fuel + 1, k :: l :: rest => (k, rest.take l.toNat) :: itemsFrom fuel (rest.drop l.toNat)

/-- The items of an aggregate payload, behind its sub-header of three bytes (R69). -/
def payloadItems (payload : List Byte) : List (Byte × List Byte) :=
  itemsFrom payload.length (payload.drop 3)

/-- The items that DISPATCH handles: all of them under Skip, those before the first out-of-range kind under Abort
(R108, R109). -/
def handledItems (p : Params) (items : List (Byte × List Byte)) : List (Byte × List Byte) :=
  match p.unknownKind with
  | .skip => items
  | .abort => items.takeWhile fun x => decide (x.1.toNat ≤ p.maxKind)

/-- DISPATCH meets an out-of-range kind under Abort (R109). -/
def abortsOn (p : Params) (items : List (Byte × List Byte)) : Bool :=
  p.unknownKind == .abort && items.any fun x => decide (p.maxKind < x.1.toNat)

/-- The bitset of a list of items: the bits of its in-range kinds (R106 to R108). -/
def bitsOf (p : Params) (items : List (Byte × List Byte)) : BitVec 256 :=
  items.foldl (fun b x => if x.1.toNat ≤ p.maxKind then b ||| bitOf x.1 else b) 0

/-- The register file after a list of items, one after another (R128). -/
def storeItems (p : Params) (items : List (Byte × List Byte)) (o : Oreg) : Oreg :=
  items.foldl (fun o x => (wireItem p x.1 x.2).store o) o

/-- The buffer holds this payload, all of it received by this frame (R27, R92). -/
def HoldsPayload (s : State) (payload : List Byte) : Prop :=
  payload.length = s.n.toNat ∧ s.count = s.n ∧ s.n.toNat ≤ s.params.cap ∧ ∀ i, (h : i < payload.length) → s.buf.cell i = some payload[i]

/-- The walk is at an item with this header and these readable value bytes (R70, R105, R115). -/
structure AtItem (s : State) (c : Nat) (any : Bool) (k l : Byte) (value : List Byte) : Prop where
  phase : s.disp = .walk c any
  inside : c + 1 < s.n.toNat
  received : s.n.toNat ≤ s.count.toNat
  fits : s.n.toNat ≤ s.params.cap
  kind : s.buf.cell c = some k
  length : s.buf.cell (c + 1) = some l
  extent : value.length = min l.toNat (s.n.toNat - (c + 2))
  value : ∀ i, (h : i < value.length) → s.buf.cell (c + 2 + i) = some value[i]

/-! ### Numbers -/

/-- The pattern of a finite binary64 value. -/
def f64IsFinite (x : F64) : Bool := f64Exp x != 2047

/-- The number a finite binary64 pattern stands for (R126). -/
def f64Value (x : F64) : ℚ :=
  (if f64Sign x then -1 else 1) * (f64Sig x : ℚ) * (2 : ℚ) ^ f64Unit x

end Sys2Proof.Machine
end

