-- ==== Sys2Proof/Certificates/Slice0/Obligations.lean ====
section
/-!
DEFINITION. The statements for the provers, from the numbered rules of spec/. A docstring names the rules; where a clause
rests on a choice of the model it names the log entry.
-/

open Sys2Proof Sys2Proof.Machine

/-! ### Encoding -/

/-- Every row, in every context in which the table selects it, is what its own word decodes to: no operand bit is
dropped (R79, R84). -/
def Obligations.EveryInstructionDecodesBack : Prop :=
  ∀ (cx : Ctx) (i : Instr), cx.params.wf = true → i.wf cx = true → decode cx (encode cx.params i) = i

/-- Every word decodes to a row that the table selects for it, and that row's word is the word that was read: no two
words share a row with its operands (R72, R79). -/
def Obligations.EveryWordEncodesBack : Prop :=
  ∀ (cx : Ctx) (c : Code), (decode cx c).wf cx = true ∧ encode cx.params (decode cx c) = c

/-- R79: every byte value in every state has exactly one row. -/
def Obligations.EveryByteHasExactlyOneRow : Prop :=
  ∀ (cx : Ctx) (b : Byte), ∃! i : Instr,
    i.format = .fsmByte ∧ i.wf cx = true ∧ encode cx.params i = .transaction (.feed b)

/-- The bytes of a row's word, with anything behind them, decode to the row and leave the rest; a single byte is no item
header, and a host operation has no bytes (R70, R105; log entry 18). -/
def Obligations.BytesDecodeAndLeaveTheRest : Prop :=
  (∀ (cx : Ctx) (i : Instr) (rest : List Byte), cx.params.wf = true → i.wf cx = true → i.format ≠ .hostOp →
    decodeBytes cx i.format (codeBytes (encode cx.params i) ++ rest) = .ok (i, rest)) ∧
  (∀ (cx : Ctx) (b : Byte), decodeBytes cx .itemKind [b] = .error .danglingByte) ∧
  (∀ (cx : Ctx) (bs : List Byte), decodeBytes cx .hostOp bs = .error .notAByteFormat)

/-- Words written out from the table's match column, under the default parameters (R71; log entries 4 and 20). -/
def Obligations.TableWordsDecodeToTheirRows : Prop :=
  decodeTableWord 8 0x02 = some .feedAwaitStartStx ∧ decodeTableWord 8 0x55 = some (.feedAwaitStartOther 0x55) ∧
  decodeTableWord 8 0x40 = some .dispatchAggregate ∧ decodeTableWord 8 0x01 = some (.itemTime 0) ∧
  decodeTableWord 16 0x1802 = some (.itemPosition 24) ∧ decodeTableWord 8 0x08 = some (.itemVelocity 0) ∧
  decodeTableWord 8 0x09 = some (.itemDop 0) ∧ decodeTableWord 8 0x0C = some (.itemSigma 0) ∧
  decodeTableWord 8 0x31 = some (.itemIns 0) ∧ decodeTableWord 8 0x32 = some (.itemInsrms 0) ∧
  decodeTableWord 8 0x46 = some (.itemMsl 0) ∧ decodeTableWord 16 0x0203 = some (.itemInRangeUndecoded 3 2) ∧
  decodeTableWord 16 0x02C8 = some (.itemOutOfRangeSkip 0xC8 2)

/-! ### The step -/

/-- Between transactions a step takes the next host transaction, decodes it in the present context and runs it, with the
transaction taken off the list; with none pending nothing changes (R14, R60, R170; log entry 2). -/
def Obligations.StepRunsTheDecodedTransaction : Prop :=
  ∀ s : State, s.params.wf = true → s.disp = .idle →
    (∀ (t : Transaction) (rest : List Transaction), s.input = t :: rest →
      step s = exec (decode s.ctx (.transaction t)) { s with input := rest }) ∧
    (s.input = [] → step s = .next s)

/-- Inside a FEED (log entry 8) a step runs the row of the packet type, then the row of each item header at the cursor;
where no item is left the walk returns, and what DISPATCH returned ends the FEED (R93, R103, R105, R112). -/
def Obligations.StepInsideAFeedRunsItsRows : Prop :=
  ∀ s : State, s.params.wf = true →
    (s.disp = .entry → step s = exec (decode s.ctx (.packetType s.ptype)) s) ∧
    (∀ c any k l, s.disp = .walk c any → s.itemAt c = .ok (some (k, l)) →
      step s = exec (decode s.ctx (.itemHeader k l)) s) ∧
    (∀ c any, s.disp = .walk c any → ¬ c + 1 < s.n.toNat → step s = .next { s with disp := .done any false }) ∧
    (∀ any, s.disp = .done any false → step s =
      .next { s with st := .endOfFrame, disp := .idle, lastResult := if any then .frameOk else .frameBad,
                     resp := .result (if any then .frameOk else .frameBad) }) ∧
    (∀ any, s.disp = .done any true → step s =
      .next { s with st := .halted, haltCause := .unknownKind, disp := .idle, lastResult := .fault,
                     resp := .result .fault })

/-! ### FRAMER -/

/-- R86: in AwaitStart STX resets `count` and `acc` and goes to Status; any other byte changes nothing but the result. -/
def Obligations.FeedInAwaitStart : Prop :=
  ∀ s : State, s.disp = .idle → s.st = .awaitStart →
    exec .feedAwaitStartStx s =
      .next { s with count := 0, acc := 0, st := .status, lastResult := .incomplete, resp := .result .incomplete } ∧
    ∀ b : Byte, b ≠ 0x02 →
      exec (.feedAwaitStartOther b) s = .next { s with lastResult := .incomplete, resp := .result .incomplete }

/-- R87, R88: the status byte and the packet type are stored and accumulated. -/
def Obligations.FeedInStatusAndPacketType : Prop :=
  ∀ (s : State) (b : Byte), s.disp = .idle →
    (s.st = .status → exec (.feedStatus b) s =
      .next { s with statusB := b, acc := s.acc + b, st := .packetType, lastResult := .incomplete,
                     resp := .result .incomplete }) ∧
    (s.st = .packetType → exec (.feedPacketType b) s =
      .next { s with ptype := b, acc := s.acc + b, st := .length, lastResult := .incomplete,
                     resp := .result .incomplete })

/-- R89: an admissible length is stored and accumulated; N = 0 goes straight to Checksum. -/
def Obligations.FeedAdmissibleLength : Prop :=
  ∀ (s : State) (b : Byte), s.disp = .idle → s.st = .length → b.toNat ≤ s.params.cap →
    exec (.feedLengthOk b) s =
      .next { s with n := b, acc := s.acc + b, st := if b = 0 then .checksum else .data, lastResult := .incomplete,
                     resp := .result .incomplete }

/-- R90, R91: a length above CAP is not stored; FailClosed rejects the frame at once, Abort halts with cause 2. -/
def Obligations.FeedOverflowingLength : Prop :=
  ∀ (s : State) (b : Byte), s.disp = .idle → s.st = .length → s.params.cap < b.toNat →
    (s.params.overflow = .failClosed → exec (.feedLengthOverflowFailclosed b) s =
      .next { s with acc := s.acc + b, st := .awaitStart, lastResult := .frameBad, resp := .result .frameBad }) ∧
    (s.params.overflow = .abort → exec (.feedLengthOverflowAbort b) s =
      .next { s with acc := s.acc + b, st := .halted, haltCause := .lengthOverflow, lastResult := .fault,
                     resp := .result .fault })

/-- R92: the byte goes to the cell at the old `count` and no other cell changes; the count goes up by one, and at N the
state is Checksum. Stated where R23 holds, which makes the cell one of the buffer's. The last clause, that the list of
written cells keeps its canonical form, is the model's representation (log entry 12). -/
def Obligations.FeedDataByte : Prop :=
  ∀ (s : State) (b : Byte), s.disp = .idle → s.st = .data → s.count.toNat < s.n.toNat → s.n.toNat ≤ s.params.cap →
    ∃ m : Memory,
      exec (.feedData b) s =
        .next { s with buf := m, count := s.count + 1, acc := s.acc + b,
                       st := if s.count + 1 = s.n then .checksum else .data, lastResult := .incomplete,
                       resp := .result .incomplete } ∧
      m.cell s.count.toNat = some b ∧ (∀ i, i ≠ s.count.toNat → m.cell i = s.buf.cell i) ∧
      (s.buf.wf s.params.cap → m.wf s.params.cap)

/-- R94: a wrong checksum byte is stored, FrameBad reported, nothing dispatched. -/
def Obligations.FeedWrongChecksum : Prop :=
  ∀ (s : State) (b : Byte), s.disp = .idle → s.st = .checksum → b ≠ s.acc →
    exec (.feedChecksumMismatch b) s =
      .next { s with rxCk := b, st := .endOfFrame, lastResult := .frameBad, resp := .result .frameBad }

/-- R95: any byte is the end marker. -/
def Obligations.FeedInEndOfFrame : Prop :=
  ∀ (s : State) (b : Byte), s.disp = .idle → s.st = .endOfFrame →
    exec (.feedEndOfFrame b) s =
      .next { s with etx := b, st := .awaitStart, lastResult := .incomplete, resp := .result .incomplete }

/-- R96: Halted answers Fault to every byte and changes no register but `last_result`. -/
def Obligations.FeedInHalted : Prop :=
  ∀ (s : State) (b : Byte), s.disp = .idle → s.st = .halted →
    exec (.feedHalted b) s = .next { s with lastResult := .fault, resp := .result .fault }

/-- R102, R103: a checksum-valid frame that is not aggregate clears the bitset, reports FrameBad and writes nothing
else, whatever its payload and even if no cell of it can be read. -/
def Obligations.MatchOfANonAggregateFrame : Prop :=
  ∀ s : State, s.disp = .idle → s.st = .checksum → s.ptype ≠ s.params.aggType →
    exec (.feedChecksumMatch s.acc) s =
      .next { s with rxCk := s.acc, bitset := 0, st := .endOfFrame, lastResult := .frameBad,
                     resp := .result .frameBad }

/-- R93, R104 to R112, R114 to R128 at once: on a checksum-valid aggregate frame whose payload is in the buffer, the FEED
sets exactly the bits of the handled items' in-range kinds, stores exactly their wire fields one item after another,
reports FrameOk iff there is an item, and halts with cause 1 iff the walk meets an out-of-range kind under Abort. The
payload's meaning (`payloadItems`, `wireItem`) is stated on its byte list, without the machine's cursor or reads. -/
def Obligations.MatchDecodesThePayload : Prop :=
  ∀ (s : State) (payload : List Byte), s.disp = .idle → s.st = .checksum → s.ptype = s.params.aggType →
    HoldsPayload s payload →
    let items := payloadItems payload
    let handled := handledItems s.params items
    let halts := abortsOn s.params items
    let r : ResultCode := if halts then .fault else if items = [] then .frameBad else .frameOk
    exec (.feedChecksumMatch s.acc) s =
      .next { s with rxCk := s.acc, bitset := bitsOf s.params handled, oreg := storeItems s.params handled s.oreg,
                     st := if halts then .halted else .endOfFrame,
                     haltCause := if halts then .unknownKind else s.haltCause, lastResult := r, resp := .result r }

/-! ### DISPATCH and its items -/

/-- R102 to R104: both packet-type rows clear the bitset; the aggregate one puts the cursor behind the sub-header, the
other returns (false, false). -/
def Obligations.DispatchRowsClearTheBitset : Prop :=
  ∀ s : State, s.disp = .entry →
    (s.ptype = s.params.aggType → exec .dispatchAggregate s = .next { s with bitset := 0, disp := .walk 3 false }) ∧
    (s.ptype ≠ s.params.aggType →
      exec (.dispatchOther s.ptype) s = .next { s with bitset := 0, disp := .done false false })

/-- R118: a Time item stores the fields that lie inside it, sets its bit, moves the cursor and changes nothing else. -/
def Obligations.TimeItemStoresItsFields : Prop :=
  ∀ s c any l value, AtItem s c any s.params.kindTime l value →
    exec (.itemTime l) s =
      .next { s with
        bitset := s.bitset ||| 1#256 <<< s.params.kindTime.toNat
        disp := .walk (c + 2 + l.toNat) true
        oreg := { s.oreg with time :=
          { towMs := Option.or (wireField value 0 4) s.oreg.time.towMs
            week := Option.or (wireField value 4 4) s.oreg.time.week
            sats := Option.or (wireField value 8 1) s.oreg.time.sats
            flags1 := Option.or (wireField value 9 1) s.oreg.time.flags1
            flags2 := Option.or (wireField value 10 1) s.oreg.time.flags2 } } }

/-- R119: the same of a Position item. -/
def Obligations.PositionItemStoresItsFields : Prop :=
  ∀ s c any l value, AtItem s c any s.params.kindPosition l value →
    exec (.itemPosition l) s =
      .next { s with
        bitset := s.bitset ||| 1#256 <<< s.params.kindPosition.toNat
        disp := .walk (c + 2 + l.toNat) true
        oreg := { s.oreg with pos :=
          { lat := Option.or (wireField value 0 8) s.oreg.pos.lat
            lon := Option.or (wireField value 8 8) s.oreg.pos.lon
            hgt := Option.or (wireField value 16 8) s.oreg.pos.hgt } } }

/-- R120: a Velocity item stores a field only if its gate bit in the flags byte is set and it lies inside the item; an
item without a flags byte stores nothing. -/
def Obligations.VelocityItemStoresGatedFields : Prop :=
  ∀ s c any l value, AtItem s c any s.params.kindVelocity l value →
    let set (bit : Nat) : Prop := ∃ flags rest, value = flags :: rest ∧ flags.getLsbD bit = true
    ∃ vel : VelSlot,
      exec (.itemVelocity l) s =
        .next { s with
          bitset := s.bitset ||| 1#256 <<< s.params.kindVelocity.toNat
          disp := .walk (c + 2 + l.toNat) true
          oreg := { s.oreg with vel := vel } } ∧
      (set 0 → vel.hspeed = Option.or (wireField value 1 4) s.oreg.vel.hspeed ∧
               vel.vspeed = Option.or (wireField value 9 4) s.oreg.vel.vspeed) ∧
      (¬ set 0 → vel.hspeed = s.oreg.vel.hspeed ∧ vel.vspeed = s.oreg.vel.vspeed) ∧
      (set 2 → vel.heading = Option.or (wireField value 5 4) s.oreg.vel.heading) ∧
      (¬ set 2 → vel.heading = s.oreg.vel.heading)

/-- R121: the same of a DOP item; only offset 4 is read. -/
def Obligations.DopItemStoresItsField : Prop :=
  ∀ s c any l value, AtItem s c any s.params.kindDop l value →
    exec (.itemDop l) s =
      .next { s with
        bitset := s.bitset ||| 1#256 <<< s.params.kindDop.toNat
        disp := .walk (c + 2 + l.toNat) true
        oreg := { s.oreg with dop := { hdop := Option.or (wireField value 4 4) s.oreg.dop.hdop } } }

/-- R122: the same of a Position-Sigma item. -/
def Obligations.SigmaItemStoresItsFields : Prop :=
  ∀ s c any l value, AtItem s c any s.params.kindSigma l value →
    exec (.itemSigma l) s =
      .next { s with
        bitset := s.bitset ||| 1#256 <<< s.params.kindSigma.toNat
        disp := .walk (c + 2 + l.toNat) true
        oreg := { s.oreg with sig :=
          { east := Option.or (wireField value 4 4) s.oreg.sig.east
            north := Option.or (wireField value 8 4) s.oreg.sig.north
            vert := Option.or (wireField value 16 4) s.oreg.sig.vert } } }

/-- R123: the same of a Full INS Solution item. -/
def Obligations.InsItemStoresItsFields : Prop :=
  ∀ s c any l value, AtItem s c any s.params.kindIns l value →
    exec (.itemIns l) s =
      .next { s with
        bitset := s.bitset ||| 1#256 <<< s.params.kindIns.toNat
        disp := .walk (c + 2 + l.toNat) true
        oreg := { s.oreg with ins :=
          { week := Option.or (wireField value 0 2) s.oreg.ins.week
            timeMs := Option.or (wireField value 2 4) s.oreg.ins.timeMs
            align := Option.or (wireField value 6 1) s.oreg.ins.align
            fix := Option.or (wireField value 7 1) s.oreg.ins.fix
            lat := Option.or (wireField value 8 8) s.oreg.ins.lat
            lon := Option.or (wireField value 16 8) s.oreg.ins.lon
            alt := Option.or (wireField value 24 8) s.oreg.ins.alt
            vn := Option.or (wireField value 32 4) s.oreg.ins.vn
            ve := Option.or (wireField value 36 4) s.oreg.ins.ve
            vd := Option.or (wireField value 40 4) s.oreg.ins.vd
            speed := Option.or (wireField value 44 4) s.oreg.ins.speed
            roll := Option.or (wireField value 48 8) s.oreg.ins.roll
            pitch := Option.or (wireField value 56 8) s.oreg.ins.pitch
            heading := Option.or (wireField value 64 8) s.oreg.ins.heading
            track := Option.or (wireField value 72 8) s.oreg.ins.track } } }

/-- R124: the same of an Inertial RMS/Status item. -/
def Obligations.InsrmsItemStoresItsFields : Prop :=
  ∀ s c any l value, AtItem s c any s.params.kindInsrms l value →
    exec (.itemInsrms l) s =
      .next { s with
        bitset := s.bitset ||| 1#256 <<< s.params.kindInsrms.toNat
        disp := .walk (c + 2 + l.toNat) true
        oreg := { s.oreg with rms :=
          { week := Option.or (wireField value 0 2) s.oreg.rms.week
            timeMs := Option.or (wireField value 2 4) s.oreg.rms.timeMs
            align := Option.or (wireField value 6 1) s.oreg.rms.align
            fix := Option.or (wireField value 7 1) s.oreg.rms.fix } } }

/-- R125: the same of an MSL Position item, latitude and longitude through the instance's RAD2DEG (R7). -/
def Obligations.MslItemStoresDegrees : Prop :=
  ∀ s c any l value, AtItem s c any s.params.kindMsl l value →
    exec (.itemMsl l) s =
      .next { s with
        bitset := s.bitset ||| 1#256 <<< s.params.kindMsl.toNat
        disp := .walk (c + 2 + l.toNat) true
        oreg := { s.oreg with msl :=
          { latDeg := Option.or (Option.map (rad2deg s.params.rad2deg) (wireField value 0 8)) s.oreg.msl.latDeg
            lonDeg := Option.or (Option.map (rad2deg s.params.rad2deg) (wireField value 8 8)) s.oreg.msl.lonDeg
            alt := Option.or (wireField value 16 8) s.oreg.msl.alt } } }

/-- R107: an in-range kind without a decoder sets its bit and stores nothing. -/
def Obligations.UndecodedItemSetsItsBit : Prop :=
  ∀ s c any k l value, AtItem s c any k l value → k.toNat ≤ s.params.maxKind → k ∉ s.params.kinds →
    exec (.itemInRangeUndecoded k l) s =
      .next { s with bitset := s.bitset ||| 1#256 <<< k.toNat, disp := .walk (c + 2 + l.toNat) true }

/-- R108: under Skip an out-of-range kind is passed over: no bit, no field; the item counts as iterated. -/
def Obligations.OutOfRangeItemIsSkipped : Prop :=
  ∀ s c any k l value, AtItem s c any k l value → s.params.maxKind < k.toNat → s.params.unknownKind = .skip →
    exec (.itemOutOfRangeSkip k l) s = .next { s with disp := .walk (c + 2 + l.toNat) true }

/-- R109: under Abort an out-of-range kind makes DISPATCH return with a fault; earlier bits and fields stay. -/
def Obligations.OutOfRangeItemAborts : Prop :=
  ∀ s c any k l value, AtItem s c any k l value → s.params.maxKind < k.toNat → s.params.unknownKind = .abort →
    exec (.itemOutOfRangeAbort k l) s = .next { s with disp := .done any true }

/-- R106, R107, R108, R110: the row that the decoder gives for an item's header handles it: an in-range kind sets its
bit and stores the wire fields of its own layout, an out-of-range one under Skip nothing; the cursor moves by 2 + L, to
at most 510 (R26), and the item counts. -/
def Obligations.ItemsAreHandledByTheirKind : Prop :=
  ∀ s c any k l value, AtItem s c any k l value → (s.params.maxKind < k.toNat → s.params.unknownKind = .skip) →
    exec (decode s.ctx (.itemHeader k l)) s =
      .next { s with
        bitset := if k.toNat ≤ s.params.maxKind then s.bitset ||| 1#256 <<< k.toNat else s.bitset
        oreg := (wireItem s.params k value).store s.oreg
        disp := .walk (c + 2 + l.toNat) true } ∧
    c + 2 + l.toNat ≤ 510

/-- R114: a big-endian read of cells this frame has written is their concatenation, the lowest index most significant. Each
read asks only for the cells it reads, so the last bytes of a payload are covered. -/
def Obligations.BigEndianReads : Prop :=
  ∀ (s : State) (p : Nat),
    let has (i : Nat) (b : Byte) : Prop := i < s.params.cap ∧ i < s.count.toNat ∧ s.buf.cell i = some b
    (∀ b0, has p b0 → s.be8 p = .ok b0) ∧
    (∀ b0 b1, has p b0 → has (p + 1) b1 → s.be16 p = .ok (b0 ++ b1)) ∧
    (∀ b0 b1 b2 b3, has p b0 → has (p + 1) b1 → has (p + 2) b2 → has (p + 3) b3 →
      s.be32 p = .ok (b0 ++ b1 ++ b2 ++ b3)) ∧
    (∀ b0 b1 b2 b3 b4 b5 b6 b7, has p b0 → has (p + 1) b1 → has (p + 2) b2 → has (p + 3) b3 → has (p + 4) b4 →
      has (p + 5) b5 → has (p + 6) b6 → has (p + 7) b7 →
      s.be64 p = .ok (b0 ++ b1 ++ b2 ++ b3 ++ b4 ++ b5 ++ b6 ++ b7))

/-! ### The host -/

/-- R22, R41, R142: STATUS holds the codes of `st`, `last_result` and `halt_cause`, and zeros between them; after RESET it
is 0. -/
def Obligations.ReadStatus : Prop :=
  (exec (.read .w32 0x000) State.reset = .next { State.reset with resp := .word 0 }) ∧
  ∀ s : State, s.disp = .idle → ∃ w : Word, exec (.read .w32 0x000) s = .next { s with resp := .word w } ∧
    (w.extractLsb' 0 3).toNat = (match s.st with
      | .awaitStart => 0 | .status => 1 | .packetType => 2 | .length => 3 | .data => 4 | .checksum => 5
      | .endOfFrame => 6 | .halted => 7) ∧
    w.extractLsb' 3 1 = 0 ∧
    (w.extractLsb' 4 2).toNat = (match s.lastResult with
      | .incomplete => 0 | .frameOk => 1 | .frameBad => 2 | .fault => 3) ∧
    w.extractLsb' 6 2 = 0 ∧
    (w.extractLsb' 8 2).toNat = (match s.haltCause with | .none => 0 | .unknownKind => 1 | .lengthOverflow => 2) ∧
    w.extractLsb' 10 22 = 0

/-- R42: in every state between transactions CONFIG, KINDS0 and KINDS1 hold the parameters; and in every state whatever,
inside a FEED too, no instruction changes a parameter, RESET included (log entry 3). -/
def Obligations.ReadConfigAndKinds : Prop :=
  ∀ s : State,
    (s.params.wf = true → s.disp = .idle →
      (∃ w : Word, exec (.read .w32 0x004) s = .next { s with resp := .word w } ∧
        (w.getLsbD 0 = true ↔ s.params.unknownKind = .abort) ∧ (w.getLsbD 1 = true ↔ s.params.overflow = .abort) ∧
        w.extractLsb' 2 6 = 0 ∧ w.extractLsb' 8 8 = s.params.aggType ∧
        (w.extractLsb' 16 8).toNat = s.params.maxKind ∧ (w.extractLsb' 24 8).toNat = s.params.cap) ∧
      (∃ w : Word, exec (.read .w32 0x030) s = .next { s with resp := .word w } ∧
        w.extractLsb' 0 8 = s.params.kindTime ∧ w.extractLsb' 8 8 = s.params.kindPosition ∧
        w.extractLsb' 16 8 = s.params.kindVelocity ∧ w.extractLsb' 24 8 = s.params.kindDop) ∧
      (∃ w : Word, exec (.read .w32 0x034) s = .next { s with resp := .word w } ∧
        w.extractLsb' 0 8 = s.params.kindSigma ∧ w.extractLsb' 8 8 = s.params.kindIns ∧
        w.extractLsb' 16 8 = s.params.kindInsrms ∧ w.extractLsb' 24 8 = s.params.kindMsl)) ∧
    ∀ (i : Instr) (t : State), exec i s = .next t → t.params = s.params

/-- R43: FRAME0 and FRAME1 hold the parser registers; after RESET both are 0. -/
def Obligations.ReadFrameWords : Prop :=
  (∀ a ∈ [0x008, 0x00C], exec (.read .w32 a) State.reset = .next { State.reset with resp := .word 0 }) ∧
  ∀ s : State, s.disp = .idle →
    (∃ w : Word, exec (.read .w32 0x008) s = .next { s with resp := .word w } ∧
      w.extractLsb' 0 8 = s.statusB ∧ w.extractLsb' 8 8 = s.ptype ∧ w.extractLsb' 16 8 = s.n ∧
      w.extractLsb' 24 8 = s.rxCk) ∧
    (∃ w : Word, exec (.read .w32 0x00C) s = .next { s with resp := .word w } ∧
      w.extractLsb' 0 8 = s.count ∧ w.extractLsb' 8 8 = s.acc ∧ w.extractLsb' 16 8 = s.etx ∧
      w.extractLsb' 24 8 = 0)

/-- R44: bit j of BITSETi is bit 32i + j of the bitset up to MAX_KIND, and 0 above; after RESET every word is 0. -/
def Obligations.ReadBitsetWords : Prop :=
  (∀ i < 8, exec (.read .w32 (BitVec.ofNat 9 (0x010 + 4 * i))) State.reset =
    .next { State.reset with resp := .word 0 }) ∧
  ∀ (s : State) (i : Nat), s.disp = .idle → i < 8 → ∃ w : Word,
    exec (.read .w32 (BitVec.ofNat 9 (0x010 + 4 * i))) s = .next { s with resp := .word w } ∧
    ∀ j < 32, w.getLsbD j = (decide (32 * i + j ≤ s.params.maxKind) && s.bitset.getLsbD (32 * i + j))

/-- R45: every OREG word holds its register or registers, once they are written; the words between and above them are
reserved and read 0. R131 (log entry 11): a word with a register not written since reset is answered UnwrittenRead, with
what the registers hold: the written ones their values, the others their free values of reset. -/
def Obligations.ReadOregWords : Prop :=
  ∀ s : State, s.disp = .idle →
    let gives (a : Nat) (w : Word) : Prop :=
      exec (.read .w32 (BitVec.ofNat 9 a)) s = .next { s with resp := .word w }
    let unwritten (a : Nat) (w : Word) : Prop :=
      exec (.read .w32 (BitVec.ofNat 9 a)) s = .next { s with resp := .unwrittenRead (BitVec.ofNat 9 a) w }
    let held (width place : Nat) : BitVec width := (Config.oregAtReset s.resetChoice place).setWidth width
    let o := s.oreg
    (∀ x ∈ [(0x040, o.time.towMs), (0x044, o.time.week), (0x070, o.vel.hspeed), (0x074, o.vel.vspeed),
            (0x078, o.vel.heading), (0x080, o.dop.hdop), (0x090, o.sig.east), (0x094, o.sig.north),
            (0x098, o.sig.vert), (0x0A4, o.ins.timeMs), (0x0C8, o.ins.vn), (0x0CC, o.ins.ve), (0x0D0, o.ins.vd),
            (0x0D4, o.ins.speed), (0x104, o.rms.timeMs)],
      (∀ v, x.2 = some v → gives x.1 v) ∧ (x.2 = none → unwritten x.1 (held 32 x.1))) ∧
    (∀ x ∈ [(0x050, o.pos.lat), (0x058, o.pos.lon), (0x060, o.pos.hgt), (0x0B0, o.ins.lat), (0x0B8, o.ins.lon),
            (0x0C0, o.ins.alt), (0x0D8, o.ins.roll), (0x0E0, o.ins.pitch), (0x0E8, o.ins.heading),
            (0x0F0, o.ins.track), (0x110, o.msl.latDeg), (0x118, o.msl.lonDeg), (0x120, o.msl.alt)],
      (∀ v, x.2 = some v → gives x.1 (v.extractLsb' 0 32) ∧ gives (x.1 + 4) (v.extractLsb' 32 32)) ∧
      (x.2 = none → unwritten x.1 ((held 64 x.1).extractLsb' 0 32) ∧
        unwritten (x.1 + 4) ((held 64 x.1).extractLsb' 32 32))) ∧
    (∀ x ∈ [(0x0A0, o.ins.week), (0x100, o.rms.week)],
      (∀ v, x.2 = some v → gives x.1 (0#16 ++ v)) ∧ (x.2 = none → unwritten x.1 (0#16 ++ held 16 x.1))) ∧
    (∀ x ∈ [(0x0A8, o.ins.align, o.ins.fix), (0x108, o.rms.align, o.rms.fix)],
      (∀ a f, x.2.1 = some a → x.2.2 = some f → gives x.1 (0#16 ++ f ++ a)) ∧
      (x.2.1 = none ∨ x.2.2 = none →
        unwritten x.1 (0#16 ++ x.2.2.getD (held 8 (x.1 + 1)) ++ x.2.1.getD (held 8 x.1)))) ∧
    (∀ n f g, o.time.sats = some n → o.time.flags1 = some f → o.time.flags2 = some g →
      gives 0x048 (0#8 ++ g ++ f ++ n)) ∧
    (o.time.sats = none ∨ o.time.flags1 = none ∨ o.time.flags2 = none →
      unwritten 0x048 (0#8 ++ o.time.flags2.getD (held 8 0x04A) ++ o.time.flags1.getD (held 8 0x049) ++
        o.time.sats.getD (held 8 0x048))) ∧
    (∀ a ∈ [0x04C, 0x068, 0x06C, 0x07C, 0x084, 0x088, 0x08C, 0x09C, 0x0AC, 0x0F8, 0x0FC, 0x10C], gives a 0) ∧
    (∀ a, 0x128 ≤ a → a ≤ 0x1FC → a % 4 = 0 → gives a 0)

/-- R46: reserved words read 0. The addresses are those R40 and R45 list. -/
def Obligations.ReadReservedWords : Prop :=
  ∀ (s : State) (a : HostAddr), s.disp = .idle → a.toNat % 4 = 0 →
    (a.toNat ∈ [0x038, 0x03C, 0x04C, 0x068, 0x06C, 0x07C, 0x084, 0x088, 0x08C, 0x09C, 0x0AC, 0x0F8, 0x0FC, 0x10C] ∨
      0x128 ≤ a.toNat) →
    exec (.read .w32 a) s = .next { s with resp := .word 0 }

/-- R56, R130, R131: an aligned 32-bit READ always completes and changes nothing but the port: it answers a word, or
UnwrittenRead of its own address, which only an OREG word can give (log entry 11); read again, it answers the same. -/
def Obligations.ReadAlwaysAnswers : Prop :=
  ∀ (s : State) (a : HostAddr), s.disp = .idle → a.toNat % 4 = 0 → ∃ r : Response,
    exec (.read .w32 a) s = .next { s with resp := r } ∧
    ((∃ w, r = .word w) ∨ ((∃ w, r = .unwrittenRead a w) ∧ 0x040 ≤ a.toNat ∧ a.toNat < 0x128)) ∧
    ∀ last : Response, exec (.read .w32 a) { s with resp := last } = .next { s with resp := r }

/-- R132: a misaligned or narrow READ is refused. -/
def Obligations.MisalignedReadIsRefused : Prop :=
  ∀ (s : State) (width : ReadWidth) (a : HostAddr), s.disp = .idle → a.toNat % 4 ≠ 0 ∨ width ≠ .w32 →
    exec (.read width a) s = .refused .misalignedRead

/-- R133: a WRITE changes no state and returns nothing. -/
def Obligations.WriteChangesNothing : Prop :=
  ∀ (s : State) (a : HostAddr) (w : Word), s.disp = .idle →
    exec (.write a w) s = .next { s with resp := .none }

/-- R48: RESET, in any state between transactions, Halted included, completes and gives every piece of state its value of
the table; the parameters, and with them CONFIG and KINDS, are not affected. -/
def Obligations.ResetSetsEveryRegister : Prop :=
  ∀ s : State, s.disp = .idle → ∃ t : State, exec .reset s = .next t ∧
    t.st = .awaitStart ∧ t.statusB = 0 ∧ t.ptype = 0 ∧ t.n = 0 ∧ t.count = 0 ∧ t.acc = 0 ∧ t.rxCk = 0 ∧ t.etx = 0 ∧
    t.lastResult = .incomplete ∧ t.haltCause = .none ∧ (∀ i, t.buf.cell i = none) ∧ t.bitset = 0 ∧
    t.oreg =
      { time := ⟨none, none, none, none, none⟩, pos := ⟨none, none, none⟩, vel := ⟨none, none, none⟩
        dop := ⟨none⟩, sig := ⟨none, none, none⟩
        ins := ⟨none, none, none, none, none, none, none, none, none, none, none, none, none, none, none⟩
        rms := ⟨none, none, none, none⟩, msl := ⟨none, none, none⟩ } ∧
    t.params = s.params

/-- What is the model's in RESET (log entries 2, 7, 8, 11, 21): the transactions still to come stay, the port answers
nothing, no FEED is in progress, and the OREG registers hold the values of the next free choice; all the rest is as in
`State.reset`. -/
def Obligations.ResetKeepsWhatIsPending : Prop :=
  ∀ s : State, s.disp = .idle → exec .reset s =
    .next { State.reset with params := s.params, input := s.input, resetChoice := s.resetChoice + 1 }

/-! ### Whole-machine rules -/

/-- R85: for a byte fed between transactions every row but the one the decoder gives is refused. Inside a FEED every
FEED row and every host operation is refused (R61, R134). The refusals' names are the model's (log entries 9, 10). -/
def Obligations.OnlyTheDecodedRowRuns : Prop :=
  (∀ (s : State) (b : Byte) (i : Instr), s.disp = .idle → i.format = .fsmByte →
    encode s.params i = .transaction (.feed b) → i ≠ decode s.ctx (.transaction (.feed b)) →
    exec i s = .refused .rowNotSelected) ∧
  (∀ (s : State) (i : Instr), s.disp ≠ .idle → i.format = .fsmByte ∨ i.format = .hostOp →
    exec i s = .refused .overlap)

/-- R98: every FEED that completes writes its result code to `last_result` as well as to the result port. -/
def Obligations.FeedWritesLastResult : Prop :=
  ∀ (s t : State) (i : Instr), i.format = .fsmByte → exec i s = .next t → t.resp = .result t.lastResult

/-- The "written by" column of R21, with R27, R28 and R38: what a host transaction other than RESET changes, it changes
in the FRAMER state whose rule writes it; the bitset and the register file change only at a matching checksum byte. -/
def Obligations.RegistersChangeOnlyByTheirRules : Prop :=
  ∀ (s t : State) (tr : Transaction), s.disp = .idle → tr ≠ .reset →
    exec (decode s.ctx (.transaction tr)) s = .next t →
    (t.statusB ≠ s.statusB → s.st = .status) ∧ (t.ptype ≠ s.ptype → s.st = .packetType) ∧
    (t.n ≠ s.n → s.st = .length) ∧ (t.count ≠ s.count → s.st = .awaitStart ∨ s.st = .data) ∧
    (t.acc ≠ s.acc →
      s.st = .awaitStart ∨ s.st = .status ∨ s.st = .packetType ∨ s.st = .length ∨ s.st = .data) ∧
    (t.rxCk ≠ s.rxCk → s.st = .checksum) ∧ (t.etx ≠ s.etx → s.st = .endOfFrame) ∧
    (t.haltCause ≠ s.haltCause → s.st = .length ∨ s.st = .checksum) ∧ (t.buf ≠ s.buf → s.st = .data) ∧
    (t.bitset ≠ s.bitset ∨ t.oreg ≠ s.oreg → s.st = .checksum ∧ tr = .feed s.acc) ∧
    t.resetChoice = s.resetChoice ∧ t.input = s.input ∧ t.disp = .idle

/-- R145: only RESET leaves Halted; every other transaction keeps the state, the cause and all that the engine holds. -/
def Obligations.OnlyResetLeavesHalted : Prop :=
  ∀ (s t : State) (i : Instr), s.disp = .idle → s.st = .halted → i ≠ .reset → exec i s = .next t →
    t = { s with lastResult := t.lastResult, resp := t.resp } ∧
    (t.lastResult = s.lastResult ∨ t.lastResult = .fault)

/-- R8: a parameter set with two equal kinds, or with CAP above 255, has no instance; MAX_KIND is the largest kind; and
with CAP = 255 no length byte overflows. -/
def Obligations.BadParametersHaveNoInstance : Prop :=
  (∀ s : State, ¬ s.params.kinds.Nodup ∨ 255 < s.params.cap → step s = .refused .noInstance) ∧
  (∀ p : Params, (∃ k ∈ p.kinds, k.toNat = p.maxKind) ∧ ∀ k ∈ p.kinds, k.toNat ≤ p.maxKind) ∧
  (∀ (cx : Ctx) (b : Byte), cx.params.cap = 255 → cx.st = .length →
    decode cx (.transaction (.feed b)) = .feedLengthOk b)

/-! ### Invariants -/

/-- The state after RESET has the invariant, for every instance, whatever the host still presents and whatever free choice
of values the OREG registers come up with (log entry 11). -/
def Obligations.ResetStateHasTheInvariant : Prop :=
  ∀ (p : Params) (input : List Transaction) (choice : Nat), p.wf = true →
    Inv { State.reset with params := p, input := input, resetChoice := choice }

/-- R8, R23, R24, R26, R28, R57, R58, R144: every step keeps the invariant. -/
def Obligations.StepKeepsTheInvariant : Prop :=
  ∀ s t : State, Inv s → step s = .next t → Inv t

/-- No byte stops the machine: under the invariant a step completes, unless the pending transaction is a READ that R132
refuses. (R79, R58: no FEED reads an unwritten cell or writes past the buffer.) -/
def Obligations.StepCompletesUnderTheInvariant : Prop :=
  ∀ s : State, Inv s →
    Completes (step s) ∨
    ∃ width a rest, s.input = .read width a :: rest ∧
      step s = .refused .misalignedRead ∧ (a.toNat % 4 ≠ 0 ∨ width ≠ .w32)

/-! ### Frames -/

/-- R99: from any state between transactions that is not Halted, at most CAP + 5 bytes bring the framer to AwaitStart, or
to Halted where one of the policies is Abort. -/
def Obligations.FramerReturnsToAwaitStart : Prop :=
  ∀ s : State, Inv s → s.st ≠ .halted → (∀ tr ∈ s.input, ∃ b, tr = .feed b) → s.params.cap + 5 ≤ s.input.length →
    ∃ k ≤ s.params.cap + 5, ∃ t, Host.Core.run core k s = .next t ∧ t.input = s.input.drop k ∧
      (t.st = .awaitStart ∨
       t.st = .halted ∧ (s.params.unknownKind = .abort ∨ s.params.overflow = .abort))

/-- R97, R92: the bytes STX, status, type, N and the N payload bytes, fed in AwaitStart, leave the framer in Checksum with
the payload in the buffer and in `acc` the sum mod 256 of all of them but STX; `bitset` and OREG are untouched. -/
def Obligations.FrameFillsTheBuffer : Prop :=
  ∀ (s : State) (sb ty : Byte) (payload : List Byte) (rest : List Transaction),
    s.params.wf = true → s.disp = .idle → s.st = .awaitStart → payload.length ≤ s.params.cap →
    s.input = ([stx, sb, ty, BitVec.ofNat 8 payload.length] ++ payload).map .feed ++ rest →
    ∃ m : Memory,
      Host.Core.run core (4 + payload.length) s =
        .next { s with
          st := .checksum, statusB := sb, ptype := ty, n := BitVec.ofNat 8 payload.length,
          count := BitVec.ofNat 8 payload.length,
          acc := BitVec.ofNat 8 (sb.toNat + ty.toNat + payload.length + (payload.map BitVec.toNat).sum),
          buf := m, lastResult := .incomplete, resp := .result .incomplete, input := rest } ∧
      (∀ i, (h : i < payload.length) → m.cell i = some payload[i]) ∧
      (∀ i, payload.length ≤ i → m.cell i = s.buf.cell i)

/-- R100: a frame with a correct checksum, fed in AwaitStart, takes N + 6 bytes, reports one result other than Incomplete,
at its checksum byte, FrameOk iff it is aggregate and has an item, and ends in AwaitStart (where DISPATCH does not halt
the block). -/
def Obligations.FrameReportsOnce : Prop :=
  ∀ (s : State) (sb ty etx : Byte) (payload : List Byte) (rest : List Transaction),
    Inv s → s.st = .awaitStart → payload.length ≤ s.params.cap →
    (ty = s.params.aggType → abortsOn s.params (payloadItems payload) = false) →
    let ck := BitVec.ofNat 8 (sb.toNat + ty.toNat + payload.length + (payload.map BitVec.toNat).sum)
    s.input = ([stx, sb, ty, BitVec.ofNat 8 payload.length] ++ payload ++ [ck, etx]).map .feed ++ rest →
    ∀ j < payload.length + 6, ∃ t, Host.Core.run core (j + 1) s = .next t ∧
      t.lastResult = (if j ≠ payload.length + 4 then .incomplete
        else if ty = s.params.aggType ∧ payloadItems payload ≠ [] then .frameOk else .frameBad) ∧
      (j = payload.length + 5 → t.st = .awaitStart ∧ t.etx = etx ∧ t.input = rest)

/-- R97, R94: two frames that differ in exactly one payload byte have different sums, so the checksum byte of the one,
fed for the other, gives FrameBad with the bitset and OREG as they were. -/
def Obligations.FlippedByteGivesFrameBad : Prop :=
  ∀ (s t : State) (i : Nat), Inv s → Inv t → s.st = .checksum → t.st = .checksum →
    t.statusB = s.statusB → t.ptype = s.ptype → t.n = s.n → i < s.n.toNat →
    t.buf.cell i ≠ s.buf.cell i → (∀ j, j ≠ i → t.buf.cell j = s.buf.cell j) →
    exec (decode t.ctx (.transaction (.feed s.acc))) t =
      .next { t with rxCk := s.acc, st := .endOfFrame, lastResult := .frameBad, resp := .result .frameBad }

/-- R127, R58: what a dispatch stores is a function of the parameters, the packet type, N, the count and the first N
cells alone: not of OREG, of the bitset, of any other register, or of a cell an earlier frame left at N or above. -/
def Obligations.DecodingDependsOnlyOnTheFrame : Prop :=
  ∀ s t : State, exec (.feedChecksumMatch s.acc) s = .next t →
    ∃ (d : Oreg) (bits : BitVec 256),
      ∀ s' : State, s'.params = s.params → s'.ptype = s.ptype → s'.n = s.n → s'.count = s.count →
        s'.disp = .idle → s'.st = .checksum →
        (∀ i < s.n.toNat, s'.buf.cell i = s.buf.cell i) →
        exec (.feedChecksumMatch s'.acc) s' =
          .next { s' with rxCk := s'.acc, oreg := d.store s'.oreg, bitset := bits, st := t.st,
                          haltCause := if t.st = .halted then .unknownKind else s'.haltCause,
                          lastResult := t.lastResult, resp := .result t.lastResult }

/-- R127: decoding the same frame again changes nothing: same result, same bitset, same values. -/
def Obligations.DecodingTwiceIsDecodingOnce : Prop :=
  ∀ (s t : State) (b : Byte), exec (.feedChecksumMatch b) s = .next t →
    exec (.feedChecksumMatch b) { t with st := .checksum } = .next t

/-- R14, R112 (log entry 8): the FEED of a matching checksum byte, one atomic step, is the run of its packet-type row and
its item rows, each as `step` runs it. -/
def Obligations.AtomicFeedIsItsRows : Prop :=
  ∀ (s t : State) (b : Byte), s.params.wf = true → exec (.feedChecksumMatch b) s = .next t →
    ∃ k, Host.Core.run core (k + 1) { s with rxCk := b, disp := .entry } = .next t

/-! ### RAD2DEG -/

/-- R7: RAD2DEG can be any total function. An instance that lists no result of its own has the default of R126, under
which zeros and infinities keep their pattern and every NaN gives a NaN, whichever its free choice is (log entries 14
and 15); an instance has its own result where it lists one, and the default elsewhere. -/
def Obligations.Rad2degSpecialValues : Prop :=
  (∀ f : F64 → F64, ∃ r : Rad2deg, ∀ x, rad2deg r x = f x) ∧
  (∀ (r : Rad2deg) (x : F64),
    (∀ y, r.table.lookup x = some y → rad2deg r x = y) ∧
    (r.table.lookup x = none →
      (x.extractLsb' 0 63 = 0 → rad2deg r x = x) ∧ (f64IsInf x = true → rad2deg r x = x) ∧
      (f64IsNaN x = true → f64IsNaN (rad2deg r x) = true)))

/-- R126: on a finite value the default RAD2DEG is the product with the constant K = 0x404CA5DC1A63C1F8 rounded to nearest,
ties to even: no finite value is nearer to the exact product than a finite result, of two equally near ones the result
has the even fraction, and the result is an infinity, of the input's sign, exactly from 2 ^ 1024 − 2 ^ 970 on. Stated
where the instance lists no result of its own (R7; log entry 14), which the default instance nowhere does. -/
def Obligations.Rad2degRoundsToNearestEven : Prop :=
  Params.default.rad2deg.table = [] ∧
  ∀ (c : Rad2deg) (x : F64), c.table.lookup x = none → f64IsFinite x = true →
    let r := rad2deg c x
    let exact : ℚ := f64Value x * f64Value 0x404CA5DC1A63C1F8
    f64Sign r = f64Sign x ∧ f64IsNaN r = false ∧
    (f64IsFinite r = true ↔ |exact| < 2 ^ 1024 - 2 ^ 970) ∧
    (f64IsFinite r = true → ∀ y : F64, f64IsFinite y = true →
      |f64Value r - exact| ≤ |f64Value y - exact| ∧
      (|f64Value r - exact| = |f64Value y - exact| → f64Value y ≠ f64Value r → f64Frac r % 2 = 0))

/-! ### Cells that cannot be read -/

/-- R13, R27, R57 (log entry 12): a read of a cell that this frame has not written, or that the buffer does not have, is
the fault unwrittenCell and never a value. A big-endian read faults on its first such cell, and an item row of a walk
whose header has such a cell faults on it. -/
def Obligations.UnreceivedCellsAreFaults : Prop :=
  ∀ s : State,
    let readable (i : Nat) : Prop := i < s.count.toNat ∧ i < s.params.cap ∧ (s.buf.cell i).isSome = true
    (∀ i, ¬ readable i → s.be8 i = .error (.unwrittenCell i)) ∧
    (∀ p j, (∀ i < j, readable (p + i)) → ¬ readable (p + j) →
      (j < 2 → s.be16 p = .error (.unwrittenCell (p + j))) ∧
      (j < 4 → s.be32 p = .error (.unwrittenCell (p + j))) ∧
      (j < 8 → s.be64 p = .error (.unwrittenCell (p + j)))) ∧
    (∀ c any j, s.disp = .walk c any → c + 1 < s.n.toNat → j < 2 → (∀ i < j, readable (c + i)) → ¬ readable (c + j) →
      ∀ i : Instr, i.format = .itemKind → exec i s = .fault (.unwrittenCell (c + j)))
end

