-- ==== Sys2Proof/Laws/Memory.lean ====
section
/-!
SUPPORT. The laws of the payload buffer: a read after a write, and the canonical form that every write keeps.
-/

namespace Sys2Proof.Machine

/-- The cell written reads as the byte written. -/
@[simp] theorem Memory.cell_set_same (m : Memory) (i : Nat) (b : Byte) : Memory.cell (m.set i b) i = some b := by
  induction m with
  | nil => simp [Memory.set, Memory.cell]
  | cons c m ih =>
    obtain ⟨j, x⟩ := c
    unfold Memory.set
    split_ifs with h1 h2
    · simp [Memory.cell]
    · simp [Memory.cell]
    · simp [Memory.cell, h2, ih]

/-- Every other cell keeps its value. -/
theorem Memory.cell_set_ne (m : Memory) {i j : Nat} (b : Byte) (h : j ≠ i) :
    Memory.cell (m.set i b) j = m.cell j := by
  induction m with
  | nil => simp [Memory.set, Memory.cell, h]
  | cons c m ih =>
    obtain ⟨k, x⟩ := c
    unfold Memory.set
    split_ifs with h1 h2
    · simp [Memory.cell, h]
    · subst h2; simp [Memory.cell, h]
    · simp [Memory.cell, ih]

theorem Memory.cell_set (m : Memory) (i j : Nat) (b : Byte) :
    Memory.cell (m.set i b) j = if j = i then some b else m.cell j := by
  split_ifs with h
  · subst h; simp
  · exact m.cell_set_ne b h

/-- Every index listed after a write was listed before or is the one written. -/
theorem Memory.mem_set {m : Memory} {i : Nat} {b : Byte} {c : Host.Cell} (h : c ∈ m.set i b) : c.1 = i ∨ c ∈ m := by
  induction m with
  | nil => simp [Memory.set] at h; simp [h]
  | cons d m ih =>
    obtain ⟨j, x⟩ := d
    unfold Memory.set at h
    split_ifs at h with h1 h2
    · rcases List.mem_cons.1 h with rfl | h
      · simp
      · exact .inr h
    · rcases List.mem_cons.1 h with rfl | h
      · simp
      · exact .inr (List.mem_cons_of_mem _ h)
    · rcases List.mem_cons.1 h with rfl | h
      · simp
      · rcases ih h with h | h
        · exact .inl h
        · exact .inr (List.mem_cons_of_mem _ h)

theorem Memory.set_rising {m : Memory} (i : Nat) (b : Byte) (h : m.Pairwise (fun a b => a.1 < b.1)) :
    (m.set i b).Pairwise (fun a b => a.1 < b.1) := by
  induction m with
  | nil => simp [Memory.set]
  | cons d m ih =>
    obtain ⟨j, x⟩ := d
    rw [List.pairwise_cons] at h
    unfold Memory.set
    split_ifs with h1 h2
    · refine List.pairwise_cons.2 ⟨fun c hc => ?_, List.pairwise_cons.2 h⟩
      rcases List.mem_cons.1 hc with rfl | hc
      · exact h1
      · exact h1.trans (h.1 c hc)
    · subst h2; exact List.pairwise_cons.2 h
    · refine List.pairwise_cons.2 ⟨fun c hc => ?_, ih h.2⟩
      rcases Memory.mem_set hc with hc | hc
      · rw [hc]; show j < i; omega
      · exact h.1 c hc

/-- A write inside the buffer keeps the canonical form. -/
theorem Memory.set_wf {cap : Nat} {m : Memory} {i : Nat} (b : Byte) (h : m.wf cap) (hi : i < cap) :
    Memory.wf cap (m.set i b) := by
  refine ⟨Memory.set_rising i b h.1, fun c hc => ?_⟩
  rcases Memory.mem_set hc with hc | hc
  · rw [hc]; exact hi
  · exact h.2 c hc

theorem Memory.nil_wf (cap : Nat) : Memory.wf cap [] := ⟨List.Pairwise.nil, by simp⟩

/-- Loading bytes inside the buffer keeps the canonical form. -/
theorem Memory.load_wf {cap : Nat} {m : Memory} {i : Nat} (bs : List Byte) (h : m.wf cap) (hi : i + bs.length ≤ cap) :
    Memory.wf cap (m.load i bs) := by
  induction bs generalizing m i with
  | nil => exact h
  | cons b bs ih =>
    simp only [List.length_cons] at hi
    exact ih (Memory.set_wf b h (by omega)) (by omega)

/-- What a write of the machine answers: inside the buffer the write, outside it the fault (R57). -/
theorem State.bufWrite_cases (s : State) (i : Nat) (b : Byte) :
    (i < s.params.cap ∧ s.bufWrite i b = .ok { s with buf := s.buf.set i b }) ∨
      (¬ i < s.params.cap ∧ s.bufWrite i b = .error (.bufferOverrun i)) := by
  unfold State.bufWrite
  split_ifs with h <;> simp [h]

/-- A read of a written cell of this frame, inside the buffer, gives its byte. -/
theorem State.bufRead_ok {s : State} {i : Nat} {b : Byte} (hc : i < s.count.toNat) (hi : i < s.params.cap)
    (h : s.buf.cell i = some b) : s.bufRead i = .ok b := by
  simp [State.bufRead, State.received, hc, hi, h]

/-- A read that gives a byte is a read of a written cell of this frame, inside the buffer. -/
theorem State.bufRead_eq_ok {s : State} {i : Nat} {b : Byte} :
    s.bufRead i = .ok b ↔ (i < s.count.toNat ∧ i < s.params.cap) ∧ s.buf.cell i = some b := by
  unfold State.bufRead State.received
  by_cases h : i < s.count.toNat ∧ i < s.params.cap
  · cases hc : s.buf.cell i <;> simp [h]
  · have h' : (decide (i < s.count.toNat) && decide (i < s.params.cap)) = false := by simpa using h
    rw [h']; simp [h]

/-- A read of any other cell is the fault unwrittenCell (R13, R27). -/
theorem State.bufRead_unwritten {s : State} {i : Nat}
    (h : ¬ (i < s.count.toNat ∧ i < s.params.cap ∧ (s.buf.cell i).isSome = true)) :
    s.bufRead i = .error (.unwrittenCell i) := by
  unfold State.bufRead
  split
  · next b hb =>
    refine absurd ?_ h
    split at hb
    · next hr => simpa [State.received, hb, and_assoc] using hr
    · cases hb
  · rfl

/-- What a read can answer: a byte, or the fault of its own cell. -/
theorem State.bufRead_cases (s : State) (i : Nat) :
    (∃ b, s.bufRead i = .ok b) ∨ s.bufRead i = .error (.unwrittenCell i) := by
  unfold State.bufRead
  split
  · exact .inl ⟨_, rfl⟩
  · exact .inr rfl

end Sys2Proof.Machine
end

