-- ==== Sys2Proof/Laws/Operands.lean ====
section
/-!
SUPPORT. One lemma for each operand form: a big-endian read gives the number of the item's bytes (R114), and GET gives
the wire field (R115, R116).
-/

namespace Sys2Proof.Machine

/-! ### Big-endian numbers -/

@[simp] theorem beNat_nil : beNat [] = 0 := rfl

theorem beNat_foldl (bs : List Byte) (x : Nat) :
    bs.foldl (fun x b => x * 256 + b.toNat) x = x * 256 ^ bs.length + beNat bs := by
  induction bs generalizing x with
  | nil => simp [beNat]
  | cons b bs ih =>
    have h0 := ih b.toNat
    simp only [List.foldl_cons, List.length_cons, beNat] at *
    rw [ih, Nat.zero_mul, Nat.zero_add, h0]
    ring

/-- `x ++ y` is x · 2 ^ width(y) + y (R12). -/
theorem beNat_append (a b : List Byte) : beNat (a ++ b) = beNat a * 256 ^ b.length + beNat b := by
  rw [beNat, List.foldl_append, beNat_foldl]; rfl

theorem beNat_singleton (b : Byte) : beNat [b] = b.toNat := by simp [beNat]

theorem beNat_lt (bs : List Byte) : beNat bs < 2 ^ (8 * bs.length) := by
  induction bs with
  | nil => simp
  | cons b bs ih =>
    have h : beNat (b :: bs) = b.toNat * 256 ^ bs.length + beNat bs := by
      rw [← List.singleton_append, beNat_append, beNat_singleton]
    have h256 : (256 : Nat) ^ bs.length = 2 ^ (8 * bs.length) := by rw [pow_mul]; norm_num
    have hb : b.toNat + 1 ≤ 256 := b.isLt
    calc beNat (b :: bs) < b.toNat * 2 ^ (8 * bs.length) + 2 ^ (8 * bs.length) := by rw [h, h256]; omega
      _ = (b.toNat + 1) * 2 ^ (8 * bs.length) := by ring
      _ ≤ 256 * 2 ^ (8 * bs.length) := Nat.mul_le_mul_right _ hb
      _ = 2 ^ (8 * (bs.length + 1)) := by rw [Nat.mul_add, pow_add]; ring

/-- Concatenating two big-endian reads is the big-endian read of both (R12, R114). -/
theorem append_beNat (a b : List Byte) {m n : Nat} (hm : m = 8 * a.length) (hn : n = 8 * b.length) :
    BitVec.ofNat m (beNat a) ++ BitVec.ofNat n (beNat b) = BitVec.ofNat (m + n) (beNat (a ++ b)) := by
  have ha : beNat a < 2 ^ m := hm ▸ beNat_lt a
  have hb : beNat b < 2 ^ n := hn ▸ beNat_lt b
  have h256 : (256 : Nat) ^ b.length = 2 ^ n := by rw [hn, pow_mul]; norm_num
  have hab : beNat a * 2 ^ n + beNat b < 2 ^ (m + n) := by
    have := Nat.mul_le_mul_right (2 ^ n) (Nat.succ_le_of_lt ha)
    rw [pow_add]
    have e : (beNat a).succ * 2 ^ n = beNat a * 2 ^ n + 2 ^ n := Nat.succ_mul _ _
    omega
  apply BitVec.eq_of_toNat_eq
  rw [BitVec.toNat_append, BitVec.toNat_ofNat, BitVec.toNat_ofNat, BitVec.toNat_ofNat, Nat.mod_eq_of_lt ha,
    Nat.mod_eq_of_lt hb, beNat_append, h256, Nat.mod_eq_of_lt hab, ← Nat.shiftLeft_add_eq_or_of_lt hb,
    Nat.shiftLeft_eq]

/-! ### Reads of an item's value bytes -/

/-- The bytes `value` can be read from index `v` on. -/
def Readable (s : State) (v : Nat) (value : List Byte) : Prop :=
  ∀ i, (h : i < value.length) → s.bufRead (v + i) = .ok value[i]

/-- The `w` bytes at offset `off`. -/
def segment (value : List Byte) (off w : Nat) : List Byte := (value.drop off).take w

theorem segment_length {value : List Byte} {off w : Nat} (h : off + w ≤ value.length) :
    (segment value off w).length = w := by
  simp [segment]; omega

theorem segment_add (value : List Byte) (off w w' : Nat) :
    segment value off (w + w') = segment value off w ++ segment value (off + w) w' := by
  simp [segment, List.take_add, List.drop_drop]

theorem be8_segment {s : State} {v : Nat} {value : List Byte} (h : Readable s v value) {off : Nat}
    (ho : off + 1 ≤ value.length) : s.be8 (v + off) = .ok (BitVec.ofNat 8 (beNat (segment value off 1))) := by
  have hl : off < value.length := by omega
  have : segment value off 1 = [value[off]] := by
    rw [segment, List.drop_eq_getElem_cons hl]; rfl
  rw [this, beNat_singleton, BitVec.ofNat_toNat, BitVec.setWidth_eq]
  exact h off hl

theorem be16_segment {s : State} {v : Nat} {value : List Byte} (h : Readable s v value) {off : Nat}
    (ho : off + 2 ≤ value.length) : s.be16 (v + off) = .ok (BitVec.ofNat 16 (beNat (segment value off 2))) := by
  have h1 := segment_length (value := value) (off := off) (w := 1) (by omega)
  have h2 := segment_length (value := value) (off := off + 1) (w := 1) (by omega)
  have e := append_beNat (segment value off 1) (segment value (off + 1) 1) (m := 8) (n := 8) (by rw [h1]) (by rw [h2])
  rw [← segment_add] at e
  have r1 := be8_segment h (off := off) (by omega)
  have r2 := be8_segment h (off := off + 1) (by omega)
  rw [← Nat.add_assoc] at r2
  simp only [State.be16, r1, r2]
  exact congrArg Except.ok e

theorem be32_segment {s : State} {v : Nat} {value : List Byte} (h : Readable s v value) {off : Nat}
    (ho : off + 4 ≤ value.length) : s.be32 (v + off) = .ok (BitVec.ofNat 32 (beNat (segment value off 4))) := by
  have h1 := segment_length (value := value) (off := off) (w := 2) (by omega)
  have h2 := segment_length (value := value) (off := off + 2) (w := 2) (by omega)
  have e := append_beNat (segment value off 2) (segment value (off + 2) 2) (m := 16) (n := 16) (by rw [h1]) (by rw [h2])
  rw [← segment_add] at e
  have r1 := be16_segment h (off := off) (by omega)
  have r2 := be16_segment h (off := off + 2) (by omega)
  rw [← Nat.add_assoc] at r2
  simp only [State.be32, r1, r2]
  exact congrArg Except.ok e

theorem be64_segment {s : State} {v : Nat} {value : List Byte} (h : Readable s v value) {off : Nat}
    (ho : off + 8 ≤ value.length) : s.be64 (v + off) = .ok (BitVec.ofNat 64 (beNat (segment value off 8))) := by
  have h1 := segment_length (value := value) (off := off) (w := 4) (by omega)
  have h2 := segment_length (value := value) (off := off + 4) (w := 4) (by omega)
  have e := append_beNat (segment value off 4) (segment value (off + 4) 4) (m := 32) (n := 32) (by rw [h1]) (by rw [h2])
  rw [← segment_add] at e
  have r1 := be32_segment h (off := off) (by omega)
  have r2 := be32_segment h (off := off + 4) (by omega)
  rw [← Nat.add_assoc] at r2
  simp only [State.be64, r1, r2]
  exact congrArg Except.ok e

/-- The readable value bytes of an item: as many as its extent (R115), each readable. -/
structure ValueAt (s : State) (v : Nat) (l : Byte) (value : List Byte) : Prop where
  extent : value.length = s.extent v l
  readable : Readable s v value

theorem ValueAt.present {s : State} {v : Nat} {l : Byte} {value : List Byte} (h : ValueAt s v l value) (off w : Nat) :
    s.present v l off w = decide (off + w ≤ value.length) := by
  rw [State.present, h.extent]

theorem get8_wire {s : State} {v : Nat} {l : Byte} {value : List Byte} (h : ValueAt s v l value) (off : Nat) :
    get8 s v l off = .ok (wireField value off 1) := by
  unfold get8 getField
  rw [h.present, wireField]
  by_cases hp : off + 1 ≤ value.length
  · simp only [hp, decide_true, if_true, be8_segment h.readable hp]; rfl
  · simp [hp]

theorem get16_wire {s : State} {v : Nat} {l : Byte} {value : List Byte} (h : ValueAt s v l value) (off : Nat) :
    get16 s v l off = .ok (wireField value off 2) := by
  unfold get16 getField
  rw [h.present, wireField]
  by_cases hp : off + 2 ≤ value.length
  · simp only [hp, decide_true, if_true, be16_segment h.readable hp]; rfl
  · simp [hp]

theorem get32_wire {s : State} {v : Nat} {l : Byte} {value : List Byte} (h : ValueAt s v l value) (off : Nat) :
    get32 s v l off = .ok (wireField value off 4) := by
  unfold get32 getField
  rw [h.present, wireField]
  by_cases hp : off + 4 ≤ value.length
  · simp only [hp, decide_true, if_true, be32_segment h.readable hp]; rfl
  · simp [hp]

theorem get64_wire {s : State} {v : Nat} {l : Byte} {value : List Byte} (h : ValueAt s v l value) (off : Nat) :
    get64 s v l off = .ok (wireField value off 8) := by
  unfold get64 getField
  rw [h.present, wireField]
  by_cases hp : off + 8 ≤ value.length
  · simp only [hp, decide_true, if_true, be64_segment h.readable hp]; rfl
  · simp [hp]

/-! ### The item header -/

/-- What reading the item header can answer: the walk's end, an item with both header bytes read, or a fault on a cell
that cannot be read. -/
theorem State.itemAt_cases (s : State) (c : Nat) :
    (¬ c + 1 < s.n.toNat ∧ s.itemAt c = .ok none) ∨
      (c + 1 < s.n.toNat ∧ ∃ k l, s.bufRead c = .ok k ∧ s.bufRead (c + 1) = .ok l ∧ s.itemAt c = .ok (some (k, l))) ∨
      (c + 1 < s.n.toNat ∧ ∃ f, s.itemAt c = .error f) := by
  unfold State.itemAt
  by_cases h : c + 1 < s.n.toNat
  · refine .inr ?_
    simp only [h, if_true, true_and]
    rcases hk : s.bufRead c with f | k
    · exact .inr ⟨f, rfl⟩
    · rcases hl : s.bufRead (c + 1) with f | l
      · exact .inr ⟨f, rfl⟩
      · exact .inl ⟨k, l, rfl, rfl, rfl⟩
  · exact .inl ⟨h, by simp [h]⟩

theorem AtItem.itemAt {s : State} {c : Nat} {any : Bool} {k l : Byte} {value : List Byte}
    (h : AtItem s c any k l value) : s.itemAt c = .ok (some (k, l)) := by
  have hi := h.inside
  have hr := h.received
  have hf := h.fits
  have hk := State.bufRead_ok (s := s) (by omega) (by omega) h.kind
  have hl := State.bufRead_ok (s := s) (by omega) (by omega) h.length
  simp only [State.itemAt, h.inside, if_true, hk, hl]; rfl

theorem AtItem.valueAt {s : State} {c : Nat} {any : Bool} {k l : Byte} {value : List Byte}
    (h : AtItem s c any k l value) : ValueAt s (c + 2) l value := by
  have he := h.extent
  have hr := h.received
  have hf := h.fits
  exact ⟨he, fun i hi => State.bufRead_ok (by omega) (by omega) (h.value i hi)⟩

end Sys2Proof.Machine
end

