-- ==== Sys2Proof/Laws/State.lean ====
section
/-!
SUPPORT. What each named update of the state does to each field, so that no proof unfolds a record update.
-/

namespace Sys2Proof.Machine

/-! ### State.emit -/

@[simp] theorem State.emit_params (s : State) (r : ResultCode) : (s.emit r).params = s.params := rfl
@[simp] theorem State.emit_st (s : State) (r : ResultCode) : (s.emit r).st = s.st := rfl
@[simp] theorem State.emit_statusB (s : State) (r : ResultCode) : (s.emit r).statusB = s.statusB := rfl
@[simp] theorem State.emit_ptype (s : State) (r : ResultCode) : (s.emit r).ptype = s.ptype := rfl
@[simp] theorem State.emit_n (s : State) (r : ResultCode) : (s.emit r).n = s.n := rfl
@[simp] theorem State.emit_count (s : State) (r : ResultCode) : (s.emit r).count = s.count := rfl
@[simp] theorem State.emit_acc (s : State) (r : ResultCode) : (s.emit r).acc = s.acc := rfl
@[simp] theorem State.emit_rxCk (s : State) (r : ResultCode) : (s.emit r).rxCk = s.rxCk := rfl
@[simp] theorem State.emit_etx (s : State) (r : ResultCode) : (s.emit r).etx = s.etx := rfl
@[simp] theorem State.emit_lastResult (s : State) (r : ResultCode) : (s.emit r).lastResult = r := rfl
@[simp] theorem State.emit_haltCause (s : State) (r : ResultCode) : (s.emit r).haltCause = s.haltCause := rfl
@[simp] theorem State.emit_buf (s : State) (r : ResultCode) : (s.emit r).buf = s.buf := rfl
@[simp] theorem State.emit_bitset (s : State) (r : ResultCode) : (s.emit r).bitset = s.bitset := rfl
@[simp] theorem State.emit_oreg (s : State) (r : ResultCode) : (s.emit r).oreg = s.oreg := rfl
@[simp] theorem State.emit_resetChoice (s : State) (r : ResultCode) : (s.emit r).resetChoice = s.resetChoice := rfl
@[simp] theorem State.emit_disp (s : State) (r : ResultCode) : (s.emit r).disp = s.disp := rfl
@[simp] theorem State.emit_resp (s : State) (r : ResultCode) : (s.emit r).resp = .result r := rfl
@[simp] theorem State.emit_input (s : State) (r : ResultCode) : (s.emit r).input = s.input := rfl

/-! ### State.raiseHalt -/

@[simp] theorem State.raiseHalt_params (s : State) (c : HaltCause) : (s.raiseHalt c).params = s.params := rfl
@[simp] theorem State.raiseHalt_st (s : State) (c : HaltCause) : (s.raiseHalt c).st = .halted := rfl
@[simp] theorem State.raiseHalt_statusB (s : State) (c : HaltCause) : (s.raiseHalt c).statusB = s.statusB := rfl
@[simp] theorem State.raiseHalt_ptype (s : State) (c : HaltCause) : (s.raiseHalt c).ptype = s.ptype := rfl
@[simp] theorem State.raiseHalt_n (s : State) (c : HaltCause) : (s.raiseHalt c).n = s.n := rfl
@[simp] theorem State.raiseHalt_count (s : State) (c : HaltCause) : (s.raiseHalt c).count = s.count := rfl
@[simp] theorem State.raiseHalt_acc (s : State) (c : HaltCause) : (s.raiseHalt c).acc = s.acc := rfl
@[simp] theorem State.raiseHalt_rxCk (s : State) (c : HaltCause) : (s.raiseHalt c).rxCk = s.rxCk := rfl
@[simp] theorem State.raiseHalt_etx (s : State) (c : HaltCause) : (s.raiseHalt c).etx = s.etx := rfl
@[simp] theorem State.raiseHalt_lastResult (s : State) (c : HaltCause) : (s.raiseHalt c).lastResult = s.lastResult := rfl
@[simp] theorem State.raiseHalt_haltCause (s : State) (c : HaltCause) : (s.raiseHalt c).haltCause = c := rfl
@[simp] theorem State.raiseHalt_buf (s : State) (c : HaltCause) : (s.raiseHalt c).buf = s.buf := rfl
@[simp] theorem State.raiseHalt_bitset (s : State) (c : HaltCause) : (s.raiseHalt c).bitset = s.bitset := rfl
@[simp] theorem State.raiseHalt_oreg (s : State) (c : HaltCause) : (s.raiseHalt c).oreg = s.oreg := rfl
@[simp] theorem State.raiseHalt_resetChoice (s : State) (c : HaltCause) : (s.raiseHalt c).resetChoice = s.resetChoice := rfl
@[simp] theorem State.raiseHalt_disp (s : State) (c : HaltCause) : (s.raiseHalt c).disp = s.disp := rfl
@[simp] theorem State.raiseHalt_resp (s : State) (c : HaltCause) : (s.raiseHalt c).resp = s.resp := rfl
@[simp] theorem State.raiseHalt_input (s : State) (c : HaltCause) : (s.raiseHalt c).input = s.input := rfl

/-! ### State.accumulate -/

@[simp] theorem State.accumulate_params (s : State) (b : Byte) : (s.accumulate b).params = s.params := rfl
@[simp] theorem State.accumulate_st (s : State) (b : Byte) : (s.accumulate b).st = s.st := rfl
@[simp] theorem State.accumulate_statusB (s : State) (b : Byte) : (s.accumulate b).statusB = s.statusB := rfl
@[simp] theorem State.accumulate_ptype (s : State) (b : Byte) : (s.accumulate b).ptype = s.ptype := rfl
@[simp] theorem State.accumulate_n (s : State) (b : Byte) : (s.accumulate b).n = s.n := rfl
@[simp] theorem State.accumulate_count (s : State) (b : Byte) : (s.accumulate b).count = s.count := rfl
@[simp] theorem State.accumulate_acc (s : State) (b : Byte) : (s.accumulate b).acc = s.acc + b := rfl
@[simp] theorem State.accumulate_rxCk (s : State) (b : Byte) : (s.accumulate b).rxCk = s.rxCk := rfl
@[simp] theorem State.accumulate_etx (s : State) (b : Byte) : (s.accumulate b).etx = s.etx := rfl
@[simp] theorem State.accumulate_lastResult (s : State) (b : Byte) : (s.accumulate b).lastResult = s.lastResult := rfl
@[simp] theorem State.accumulate_haltCause (s : State) (b : Byte) : (s.accumulate b).haltCause = s.haltCause := rfl
@[simp] theorem State.accumulate_buf (s : State) (b : Byte) : (s.accumulate b).buf = s.buf := rfl
@[simp] theorem State.accumulate_bitset (s : State) (b : Byte) : (s.accumulate b).bitset = s.bitset := rfl
@[simp] theorem State.accumulate_oreg (s : State) (b : Byte) : (s.accumulate b).oreg = s.oreg := rfl
@[simp] theorem State.accumulate_resetChoice (s : State) (b : Byte) : (s.accumulate b).resetChoice = s.resetChoice := rfl
@[simp] theorem State.accumulate_disp (s : State) (b : Byte) : (s.accumulate b).disp = s.disp := rfl
@[simp] theorem State.accumulate_resp (s : State) (b : Byte) : (s.accumulate b).resp = s.resp := rfl
@[simp] theorem State.accumulate_input (s : State) (b : Byte) : (s.accumulate b).input = s.input := rfl

/-! ### State.setBit -/

@[simp] theorem State.setBit_params (s : State) (k : Byte) : (s.setBit k).params = s.params := rfl
@[simp] theorem State.setBit_st (s : State) (k : Byte) : (s.setBit k).st = s.st := rfl
@[simp] theorem State.setBit_statusB (s : State) (k : Byte) : (s.setBit k).statusB = s.statusB := rfl
@[simp] theorem State.setBit_ptype (s : State) (k : Byte) : (s.setBit k).ptype = s.ptype := rfl
@[simp] theorem State.setBit_n (s : State) (k : Byte) : (s.setBit k).n = s.n := rfl
@[simp] theorem State.setBit_count (s : State) (k : Byte) : (s.setBit k).count = s.count := rfl
@[simp] theorem State.setBit_acc (s : State) (k : Byte) : (s.setBit k).acc = s.acc := rfl
@[simp] theorem State.setBit_rxCk (s : State) (k : Byte) : (s.setBit k).rxCk = s.rxCk := rfl
@[simp] theorem State.setBit_etx (s : State) (k : Byte) : (s.setBit k).etx = s.etx := rfl
@[simp] theorem State.setBit_lastResult (s : State) (k : Byte) : (s.setBit k).lastResult = s.lastResult := rfl
@[simp] theorem State.setBit_haltCause (s : State) (k : Byte) : (s.setBit k).haltCause = s.haltCause := rfl
@[simp] theorem State.setBit_buf (s : State) (k : Byte) : (s.setBit k).buf = s.buf := rfl
@[simp] theorem State.setBit_bitset (s : State) (k : Byte) : (s.setBit k).bitset = s.bitset ||| bitOf k := rfl
@[simp] theorem State.setBit_oreg (s : State) (k : Byte) : (s.setBit k).oreg = s.oreg := rfl
@[simp] theorem State.setBit_resetChoice (s : State) (k : Byte) : (s.setBit k).resetChoice = s.resetChoice := rfl
@[simp] theorem State.setBit_disp (s : State) (k : Byte) : (s.setBit k).disp = s.disp := rfl
@[simp] theorem State.setBit_resp (s : State) (k : Byte) : (s.setBit k).resp = s.resp := rfl
@[simp] theorem State.setBit_input (s : State) (k : Byte) : (s.setBit k).input = s.input := rfl

/-! ### State.nextItem -/

@[simp] theorem State.nextItem_params (s : State) (c : Nat) (l : Byte) : (s.nextItem c l).params = s.params := rfl
@[simp] theorem State.nextItem_st (s : State) (c : Nat) (l : Byte) : (s.nextItem c l).st = s.st := rfl
@[simp] theorem State.nextItem_statusB (s : State) (c : Nat) (l : Byte) : (s.nextItem c l).statusB = s.statusB := rfl
@[simp] theorem State.nextItem_ptype (s : State) (c : Nat) (l : Byte) : (s.nextItem c l).ptype = s.ptype := rfl
@[simp] theorem State.nextItem_n (s : State) (c : Nat) (l : Byte) : (s.nextItem c l).n = s.n := rfl
@[simp] theorem State.nextItem_count (s : State) (c : Nat) (l : Byte) : (s.nextItem c l).count = s.count := rfl
@[simp] theorem State.nextItem_acc (s : State) (c : Nat) (l : Byte) : (s.nextItem c l).acc = s.acc := rfl
@[simp] theorem State.nextItem_rxCk (s : State) (c : Nat) (l : Byte) : (s.nextItem c l).rxCk = s.rxCk := rfl
@[simp] theorem State.nextItem_etx (s : State) (c : Nat) (l : Byte) : (s.nextItem c l).etx = s.etx := rfl
@[simp] theorem State.nextItem_lastResult (s : State) (c : Nat) (l : Byte) : (s.nextItem c l).lastResult = s.lastResult := rfl
@[simp] theorem State.nextItem_haltCause (s : State) (c : Nat) (l : Byte) : (s.nextItem c l).haltCause = s.haltCause := rfl
@[simp] theorem State.nextItem_buf (s : State) (c : Nat) (l : Byte) : (s.nextItem c l).buf = s.buf := rfl
@[simp] theorem State.nextItem_bitset (s : State) (c : Nat) (l : Byte) : (s.nextItem c l).bitset = s.bitset := rfl
@[simp] theorem State.nextItem_oreg (s : State) (c : Nat) (l : Byte) : (s.nextItem c l).oreg = s.oreg := rfl
@[simp] theorem State.nextItem_resetChoice (s : State) (c : Nat) (l : Byte) : (s.nextItem c l).resetChoice = s.resetChoice := rfl
@[simp] theorem State.nextItem_disp (s : State) (c : Nat) (l : Byte) : (s.nextItem c l).disp = .walk (c + 2 + l.toNat) true := rfl
@[simp] theorem State.nextItem_resp (s : State) (c : Nat) (l : Byte) : (s.nextItem c l).resp = s.resp := rfl
@[simp] theorem State.nextItem_input (s : State) (c : Nat) (l : Byte) : (s.nextItem c l).input = s.input := rfl

/-! ### State.resetAll -/

@[simp] theorem State.resetAll_params (s : State) : s.resetAll.params = s.params := rfl
@[simp] theorem State.resetAll_st (s : State) : s.resetAll.st = State.reset.st := rfl
@[simp] theorem State.resetAll_statusB (s : State) : s.resetAll.statusB = State.reset.statusB := rfl
@[simp] theorem State.resetAll_ptype (s : State) : s.resetAll.ptype = State.reset.ptype := rfl
@[simp] theorem State.resetAll_n (s : State) : s.resetAll.n = State.reset.n := rfl
@[simp] theorem State.resetAll_count (s : State) : s.resetAll.count = State.reset.count := rfl
@[simp] theorem State.resetAll_acc (s : State) : s.resetAll.acc = State.reset.acc := rfl
@[simp] theorem State.resetAll_rxCk (s : State) : s.resetAll.rxCk = State.reset.rxCk := rfl
@[simp] theorem State.resetAll_etx (s : State) : s.resetAll.etx = State.reset.etx := rfl
@[simp] theorem State.resetAll_lastResult (s : State) : s.resetAll.lastResult = State.reset.lastResult := rfl
@[simp] theorem State.resetAll_haltCause (s : State) : s.resetAll.haltCause = State.reset.haltCause := rfl
@[simp] theorem State.resetAll_buf (s : State) : s.resetAll.buf = State.reset.buf := rfl
@[simp] theorem State.resetAll_bitset (s : State) : s.resetAll.bitset = State.reset.bitset := rfl
@[simp] theorem State.resetAll_oreg (s : State) : s.resetAll.oreg = State.reset.oreg := rfl
@[simp] theorem State.resetAll_resetChoice (s : State) : s.resetAll.resetChoice = s.resetChoice + 1 := rfl
@[simp] theorem State.resetAll_disp (s : State) : s.resetAll.disp = State.reset.disp := rfl
@[simp] theorem State.resetAll_resp (s : State) : s.resetAll.resp = State.reset.resp := rfl
@[simp] theorem State.resetAll_input (s : State) : s.resetAll.input = s.input := rfl

/-! ### The field store -/

@[simp] theorem Oreg.store_time (d o : Oreg) : (d.store o).time = d.time.store o.time := rfl
@[simp] theorem Oreg.store_pos (d o : Oreg) : (d.store o).pos = d.pos.store o.pos := rfl
@[simp] theorem Oreg.store_vel (d o : Oreg) : (d.store o).vel = d.vel.store o.vel := rfl
@[simp] theorem Oreg.store_dop (d o : Oreg) : (d.store o).dop = d.dop.store o.dop := rfl
@[simp] theorem Oreg.store_sig (d o : Oreg) : (d.store o).sig = d.sig.store o.sig := rfl
@[simp] theorem Oreg.store_ins (d o : Oreg) : (d.store o).ins = d.ins.store o.ins := rfl
@[simp] theorem Oreg.store_rms (d o : Oreg) : (d.store o).rms = d.rms.store o.rms := rfl
@[simp] theorem Oreg.store_msl (d o : Oreg) : (d.store o).msl = d.msl.store o.msl := rfl

@[simp] theorem TimeSlot.store_towMs (d o : TimeSlot) : (d.store o).towMs = d.towMs.or o.towMs := rfl
@[simp] theorem TimeSlot.store_week (d o : TimeSlot) : (d.store o).week = d.week.or o.week := rfl
@[simp] theorem TimeSlot.store_sats (d o : TimeSlot) : (d.store o).sats = d.sats.or o.sats := rfl
@[simp] theorem TimeSlot.store_flags1 (d o : TimeSlot) : (d.store o).flags1 = d.flags1.or o.flags1 := rfl
@[simp] theorem TimeSlot.store_flags2 (d o : TimeSlot) : (d.store o).flags2 = d.flags2.or o.flags2 := rfl

@[simp] theorem PosSlot.store_lat (d o : PosSlot) : (d.store o).lat = d.lat.or o.lat := rfl
@[simp] theorem PosSlot.store_lon (d o : PosSlot) : (d.store o).lon = d.lon.or o.lon := rfl
@[simp] theorem PosSlot.store_hgt (d o : PosSlot) : (d.store o).hgt = d.hgt.or o.hgt := rfl

@[simp] theorem VelSlot.store_hspeed (d o : VelSlot) : (d.store o).hspeed = d.hspeed.or o.hspeed := rfl
@[simp] theorem VelSlot.store_vspeed (d o : VelSlot) : (d.store o).vspeed = d.vspeed.or o.vspeed := rfl
@[simp] theorem VelSlot.store_heading (d o : VelSlot) : (d.store o).heading = d.heading.or o.heading := rfl

@[simp] theorem DopSlot.store_hdop (d o : DopSlot) : (d.store o).hdop = d.hdop.or o.hdop := rfl

@[simp] theorem SigSlot.store_east (d o : SigSlot) : (d.store o).east = d.east.or o.east := rfl
@[simp] theorem SigSlot.store_north (d o : SigSlot) : (d.store o).north = d.north.or o.north := rfl
@[simp] theorem SigSlot.store_vert (d o : SigSlot) : (d.store o).vert = d.vert.or o.vert := rfl

@[simp] theorem InsSlot.store_week (d o : InsSlot) : (d.store o).week = d.week.or o.week := rfl
@[simp] theorem InsSlot.store_timeMs (d o : InsSlot) : (d.store o).timeMs = d.timeMs.or o.timeMs := rfl
@[simp] theorem InsSlot.store_align (d o : InsSlot) : (d.store o).align = d.align.or o.align := rfl
@[simp] theorem InsSlot.store_fix (d o : InsSlot) : (d.store o).fix = d.fix.or o.fix := rfl
@[simp] theorem InsSlot.store_lat (d o : InsSlot) : (d.store o).lat = d.lat.or o.lat := rfl
@[simp] theorem InsSlot.store_lon (d o : InsSlot) : (d.store o).lon = d.lon.or o.lon := rfl
@[simp] theorem InsSlot.store_alt (d o : InsSlot) : (d.store o).alt = d.alt.or o.alt := rfl
@[simp] theorem InsSlot.store_vn (d o : InsSlot) : (d.store o).vn = d.vn.or o.vn := rfl
@[simp] theorem InsSlot.store_ve (d o : InsSlot) : (d.store o).ve = d.ve.or o.ve := rfl
@[simp] theorem InsSlot.store_vd (d o : InsSlot) : (d.store o).vd = d.vd.or o.vd := rfl
@[simp] theorem InsSlot.store_speed (d o : InsSlot) : (d.store o).speed = d.speed.or o.speed := rfl
@[simp] theorem InsSlot.store_roll (d o : InsSlot) : (d.store o).roll = d.roll.or o.roll := rfl
@[simp] theorem InsSlot.store_pitch (d o : InsSlot) : (d.store o).pitch = d.pitch.or o.pitch := rfl
@[simp] theorem InsSlot.store_heading (d o : InsSlot) : (d.store o).heading = d.heading.or o.heading := rfl
@[simp] theorem InsSlot.store_track (d o : InsSlot) : (d.store o).track = d.track.or o.track := rfl

@[simp] theorem RmsSlot.store_week (d o : RmsSlot) : (d.store o).week = d.week.or o.week := rfl
@[simp] theorem RmsSlot.store_timeMs (d o : RmsSlot) : (d.store o).timeMs = d.timeMs.or o.timeMs := rfl
@[simp] theorem RmsSlot.store_align (d o : RmsSlot) : (d.store o).align = d.align.or o.align := rfl
@[simp] theorem RmsSlot.store_fix (d o : RmsSlot) : (d.store o).fix = d.fix.or o.fix := rfl

@[simp] theorem MslSlot.store_latDeg (d o : MslSlot) : (d.store o).latDeg = d.latDeg.or o.latDeg := rfl
@[simp] theorem MslSlot.store_lonDeg (d o : MslSlot) : (d.store o).lonDeg = d.lonDeg.or o.lonDeg := rfl
@[simp] theorem MslSlot.store_alt (d o : MslSlot) : (d.store o).alt = d.alt.or o.alt := rfl

/-- A field stored twice is stored once. -/
theorem or_or_self {α : Type} (a o : Option α) : a.or (a.or o) = a.or o := by
  cases a <;> rfl

/-! ### Storing nothing, and storing over a store -/

@[simp] theorem TimeSlot.store_unwritten (o : TimeSlot) : Oreg.unwritten.time.store o = o := rfl
@[simp] theorem PosSlot.store_unwritten (o : PosSlot) : Oreg.unwritten.pos.store o = o := rfl
@[simp] theorem VelSlot.store_unwritten (o : VelSlot) : Oreg.unwritten.vel.store o = o := rfl
@[simp] theorem DopSlot.store_unwritten (o : DopSlot) : Oreg.unwritten.dop.store o = o := rfl
@[simp] theorem SigSlot.store_unwritten (o : SigSlot) : Oreg.unwritten.sig.store o = o := rfl
@[simp] theorem InsSlot.store_unwritten (o : InsSlot) : Oreg.unwritten.ins.store o = o := rfl
@[simp] theorem RmsSlot.store_unwritten (o : RmsSlot) : Oreg.unwritten.rms.store o = o := rfl
@[simp] theorem MslSlot.store_unwritten (o : MslSlot) : Oreg.unwritten.msl.store o = o := rfl

@[simp] theorem Oreg.store_unwritten (o : Oreg) : Oreg.unwritten.store o = o := rfl

theorem TimeSlot.store_assoc (a b o : TimeSlot) : a.store (b.store o) = (a.store b).store o := by
  simp [TimeSlot.store, Option.or_assoc]

theorem PosSlot.store_assoc (a b o : PosSlot) : a.store (b.store o) = (a.store b).store o := by
  simp [PosSlot.store, Option.or_assoc]

theorem VelSlot.store_assoc (a b o : VelSlot) : a.store (b.store o) = (a.store b).store o := by
  simp [VelSlot.store, Option.or_assoc]

theorem DopSlot.store_assoc (a b o : DopSlot) : a.store (b.store o) = (a.store b).store o := by
  simp [DopSlot.store, Option.or_assoc]

theorem SigSlot.store_assoc (a b o : SigSlot) : a.store (b.store o) = (a.store b).store o := by
  simp [SigSlot.store, Option.or_assoc]

theorem InsSlot.store_assoc (a b o : InsSlot) : a.store (b.store o) = (a.store b).store o := by
  simp [InsSlot.store, Option.or_assoc]

theorem RmsSlot.store_assoc (a b o : RmsSlot) : a.store (b.store o) = (a.store b).store o := by
  simp [RmsSlot.store, Option.or_assoc]

theorem MslSlot.store_assoc (a b o : MslSlot) : a.store (b.store o) = (a.store b).store o := by
  simp [MslSlot.store, Option.or_assoc]

theorem TimeSlot.store_self (a o : TimeSlot) : a.store (a.store o) = a.store o := by
  simp [TimeSlot.store, or_or_self]

theorem PosSlot.store_self (a o : PosSlot) : a.store (a.store o) = a.store o := by
  simp [PosSlot.store, or_or_self]

theorem VelSlot.store_self (a o : VelSlot) : a.store (a.store o) = a.store o := by
  simp [VelSlot.store, or_or_self]

theorem DopSlot.store_self (a o : DopSlot) : a.store (a.store o) = a.store o := by
  simp [DopSlot.store, or_or_self]

theorem SigSlot.store_self (a o : SigSlot) : a.store (a.store o) = a.store o := by
  simp [SigSlot.store, or_or_self]

theorem InsSlot.store_self (a o : InsSlot) : a.store (a.store o) = a.store o := by
  simp [InsSlot.store, or_or_self]

theorem RmsSlot.store_self (a o : RmsSlot) : a.store (a.store o) = a.store o := by
  simp [RmsSlot.store, or_or_self]

theorem MslSlot.store_self (a o : MslSlot) : a.store (a.store o) = a.store o := by
  simp [MslSlot.store, or_or_self]

/-- Two decodes one after the other are one decode of both (R128). -/
theorem Oreg.store_assoc (a b o : Oreg) : a.store (b.store o) = (a.store b).store o := by
  simp [Oreg.store, TimeSlot.store_assoc, PosSlot.store_assoc, VelSlot.store_assoc, DopSlot.store_assoc,
    SigSlot.store_assoc, InsSlot.store_assoc, RmsSlot.store_assoc, MslSlot.store_assoc]

/-- Storing the same fields again changes nothing (R127). -/
theorem Oreg.store_self (a o : Oreg) : a.store (a.store o) = a.store o := by
  simp [Oreg.store, TimeSlot.store_self, PosSlot.store_self, VelSlot.store_self, DopSlot.store_self,
    SigSlot.store_self, InsSlot.store_self, RmsSlot.store_self, MslSlot.store_self]

end Sys2Proof.Machine
end

