-- ==== Sys2Proof/Laws/Items.lean ====
section
/-!
SUPPORT. One lemma for each decoder (what it writes, as wire fields), and one for the item rows: what an item row that
answers a next state has done.
-/

namespace Sys2Proof.Machine

/-! ### The decoders -/

section Decoders

variable {s : State} {v : Nat} {l : Byte} {value : List Byte}

theorem decodeTime_wire (h : ValueAt s v l value) :
    decodeTime s v l = .ok { Oreg.unwritten with
      time := ⟨wireField value 0 4, wireField value 4 4, wireField value 8 1, wireField value 9 1,
               wireField value 10 1⟩ } := by
  simp only [decodeTime, get32_wire h, get8_wire h]; rfl

theorem decodePosition_wire (h : ValueAt s v l value) :
    decodePosition s v l = .ok { Oreg.unwritten with
      pos := ⟨wireField value 0 8, wireField value 8 8, wireField value 16 8⟩ } := by
  simp only [decodePosition, get64_wire h]; rfl

theorem decodeDop_wire (h : ValueAt s v l value) :
    decodeDop s v l = .ok { Oreg.unwritten with dop := ⟨wireField value 4 4⟩ } := by
  simp only [decodeDop, get32_wire h]; rfl

theorem decodeSigma_wire (h : ValueAt s v l value) :
    decodeSigma s v l = .ok { Oreg.unwritten with
      sig := ⟨wireField value 4 4, wireField value 8 4, wireField value 16 4⟩ } := by
  simp only [decodeSigma, get32_wire h]; rfl

theorem decodeIns_wire (h : ValueAt s v l value) :
    decodeIns s v l = .ok { Oreg.unwritten with
      ins := ⟨wireField value 0 2, wireField value 2 4, wireField value 6 1, wireField value 7 1, wireField value 8 8,
              wireField value 16 8, wireField value 24 8, wireField value 32 4, wireField value 36 4,
              wireField value 40 4, wireField value 44 4, wireField value 48 8, wireField value 56 8,
              wireField value 64 8, wireField value 72 8⟩ } := by
  simp only [decodeIns, get16_wire h, get32_wire h, get8_wire h, get64_wire h]; rfl

theorem decodeInsrms_wire (h : ValueAt s v l value) :
    decodeInsrms s v l = .ok { Oreg.unwritten with
      rms := ⟨wireField value 0 2, wireField value 2 4, wireField value 6 1, wireField value 7 1⟩ } := by
  simp only [decodeInsrms, get16_wire h, get32_wire h, get8_wire h]; rfl

theorem decodeMsl_wire (h : ValueAt s v l value) :
    decodeMsl s v l = .ok { Oreg.unwritten with
      msl := ⟨Option.map (rad2deg s.params.rad2deg) (wireField value 0 8),
              Option.map (rad2deg s.params.rad2deg) (wireField value 8 8), wireField value 16 8⟩ } := by
  simp only [decodeMsl, get64_wire h]; rfl

theorem wireField_nil (off w : Nat) (hw : 0 < w) : wireField [] off w = none := by
  simp [wireField]; omega

theorem wireField_flags (b : Byte) (bs : List Byte) : wireField (b :: bs) 0 1 = some b := by
  have h : beNat [b] = b.toNat := beNat_singleton b
  simp [wireField, h]

theorem gated_ok (gate : Bool) (x : Option F32) : gated gate (.ok x) = .ok (if gate then x else none) := by
  cases gate <;> rfl

theorem decodeVelocity_wire (h : ValueAt s v l value) :
    decodeVelocity s v l = .ok { Oreg.unwritten with
      vel := { hspeed := if (value.headD 0).getLsbD 0 then wireField value 1 4 else none
               heading := if (value.headD 0).getLsbD 2 then wireField value 5 4 else none
               vspeed := if (value.headD 0).getLsbD 0 then wireField value 9 4 else none } } := by
  simp only [decodeVelocity, get8_wire h]
  cases value with
  | nil => rw [wireField_nil 0 1 (by omega)]; rfl
  | cons b bs =>
    rw [wireField_flags]
    simp only [get32_wire h, gated_ok, List.headD_cons]
    rfl

end Decoders

/-! ### The item rows -/

theorem itemRow_atItem {s : State} {c : Nat} {any : Bool} {k l : Byte} {value : List Byte}
    (h : AtItem s c any k l value) (body : Nat → Bool → Result) : itemRow s k l true body = body c any := by
  simp [itemRow, h.phase, h.itemAt]

/-- An item row answers a next state only through its body, at the cursor, with the header it stands for. -/
theorem itemRow_next {s t : State} {k l : Byte} {selected : Bool} {body : Nat → Bool → Result}
    (h : itemRow s k l selected body = .next t) :
    ∃ c any, s.disp = .walk c any ∧ s.itemAt c = .ok (some (k, l)) ∧ selected = true ∧ body c any = .next t := by
  unfold itemRow at h
  split at h
  · next c any hd =>
    split at h
    · next hh hi =>
      split_ifs at h with hc
      obtain ⟨rfl, hs⟩ := hc
      exact ⟨c, any, hd, hi, hs, h⟩
    · cases h
    · cases h
  all_goals cases h

theorem decodedItem_atItem {s : State} {c : Nat} {any : Bool} {k l : Byte} {value : List Byte}
    (h : AtItem s c any k l value) {dec : State → Nat → Byte → Except Fault Oreg} {d : Oreg}
    (hd : dec s (c + 2) l = .ok d) :
    decodedItem s k l dec =
      .next { s with bitset := s.bitset ||| bitOf k, oreg := d.store s.oreg, disp := .walk (c + 2 + l.toNat) true } := by
  rw [decodedItem, itemRow_atItem h, hd]; rfl

/-- What a decoded item that answers a next state has done: the bit, the fields its decoder gives, the cursor. -/
theorem decodedItem_next {s t : State} {k l : Byte} {dec : State → Nat → Byte → Except Fault Oreg}
    (h : decodedItem s k l dec = .next t) :
    ∃ c any d, s.disp = .walk c any ∧ s.itemAt c = .ok (some (k, l)) ∧ dec s (c + 2) l = .ok d ∧
      t = { s with bitset := s.bitset ||| bitOf k, oreg := d.store s.oreg, disp := .walk (c + 2 + l.toNat) true } := by
  obtain ⟨c, any, hd, hi, -, hb⟩ := itemRow_next h
  cases hx : dec s (c + 2) l with
  | error f => simp [hx] at hb
  | ok d =>
    simp only [hx, Host.Outcome.next.injEq] at hb
    exact ⟨c, any, d, hd, hi, hx, hb.symm⟩

end Sys2Proof.Machine
end

