-- ==== Sys2Proof/Laws/Disp.lean ====
section
/-!
SUPPORT. What one item and the item walk can do: an inversion lemma for the item chain, the frame of the walk, and that
the walk returns.
-/

namespace Sys2Proof.Machine

/-! ### Sequencing -/

@[simp] theorem andThen_next (s : State) (f : State → Result) : andThen (.next s) f = f s := rfl

@[simp] theorem andThen_fault (x : Fault) (f : State → Result) : andThen (.fault x) f = .fault x := rfl

@[simp] theorem andThen_refused (x : Refusal) (f : State → Result) : andThen (.refused x) f = .refused x := rfl

/-- A sequence that answers a next state passes through a next state. -/
theorem andThen_eq_next {r : Result} {f : State → Result} {t : State} (h : andThen r f = .next t) :
    ∃ s, r = .next s ∧ f s = .next t := by
  cases r with
  | next s => exact ⟨s, rfl, h⟩
  | fault x => cases h
  | refused x => cases h

/-! ### One item -/

/-- What the chain of R112 does with an item, when it answers a next state: the item at the cursor has this header, and
it is passed over (R108), ends the walk with a fault (R109), or sets its bit and stores some fields (R106, R107). -/
theorem handleItem_next {s t : State} {k l : Byte} (h : handleItem k l s = .next t) :
    ∃ c any, s.disp = .walk c any ∧ s.itemAt c = .ok (some (k, l)) ∧
      ((s.params.maxKind < k.toNat ∧ s.params.unknownKind = .skip ∧ t = s.nextItem c l) ∨
       (s.params.maxKind < k.toNat ∧ s.params.unknownKind = .abort ∧ t = { s with disp := .done any true }) ∨
       (¬ s.params.maxKind < k.toNat ∧ ∃ d : Oreg, t = { s with
          bitset := s.bitset ||| bitOf k, oreg := d.store s.oreg, disp := .walk (c + 2 + l.toNat) true })) := by
  have decoded : ∀ {dec}, ¬ s.params.maxKind < k.toNat → decodedItem s k l dec = .next t →
      ∃ c any, s.disp = .walk c any ∧ s.itemAt c = .ok (some (k, l)) ∧
        ((s.params.maxKind < k.toNat ∧ s.params.unknownKind = .skip ∧ t = s.nextItem c l) ∨
         (s.params.maxKind < k.toNat ∧ s.params.unknownKind = .abort ∧ t = { s with disp := .done any true }) ∨
         (¬ s.params.maxKind < k.toNat ∧ ∃ d : Oreg, t = { s with
            bitset := s.bitset ||| bitOf k, oreg := d.store s.oreg, disp := .walk (c + 2 + l.toNat) true })) := by
    intro dec hk hd
    obtain ⟨c, any, d, hp, hi, -, ht⟩ := decodedItem_next hd
    exact ⟨c, any, hp, hi, .inr (.inr ⟨hk, d, ht⟩)⟩
  unfold handleItem at h
  split_ifs at h with hmax h1 h2 h3 h4 h5 h6 h7 h8
  · split at h
    · next hp =>
      obtain ⟨c, any, hd, hi, -, hb⟩ := itemRow_next h
      cases hb
      exact ⟨c, any, hd, hi, .inl ⟨hmax, hp, rfl⟩⟩
    · next hp =>
      obtain ⟨c, any, hd, hi, -, hb⟩ := itemRow_next h
      cases hb
      exact ⟨c, any, hd, hi, .inr (.inl ⟨hmax, hp, rfl⟩)⟩
  · subst h1; exact decoded hmax h
  · subst h2; exact decoded hmax h
  · subst h3; exact decoded hmax h
  · subst h4; exact decoded hmax h
  · subst h5; exact decoded hmax h
  · subst h6; exact decoded hmax h
  · subst h7; exact decoded hmax h
  · subst h8; exact decoded hmax h
  · obtain ⟨c, any, hd, hi, -, hb⟩ := itemRow_next h
    cases hb
    exact ⟨c, any, hd, hi, .inr (.inr ⟨hmax, Oreg.unwritten, rfl⟩)⟩

/-- What the chain of R112 does at an item whose bytes can be read: it never stops. -/
theorem handleItem_atItem {s : State} {c : Nat} {any : Bool} {k l : Byte} {value : List Byte}
    (h : AtItem s c any k l value) :
    handleItem k l s =
      .next (if s.params.maxKind < k.toNat then
        match s.params.unknownKind with
        | .skip => s.nextItem c l
        | .abort => { s with disp := .done any true }
      else { s with bitset := s.bitset ||| bitOf k, oreg := (wireItem s.params k value).store s.oreg,
                    disp := .walk (c + 2 + l.toNat) true }) := by
  have hv := h.valueAt
  unfold handleItem wireItem
  split_ifs with hmax h1 h2 h3 h4 h5 h6 h7 h8
  · cases hp : s.params.unknownKind <;>
      simp [execItemOutOfRangeSkip, execItemOutOfRangeAbort, hmax, hp, itemRow_atItem h]
  · subst h1; exact decodedItem_atItem h (decodeTime_wire hv)
  · subst h2; exact decodedItem_atItem h (decodePosition_wire hv)
  · subst h3; exact decodedItem_atItem h (decodeVelocity_wire hv)
  · subst h4; exact decodedItem_atItem h (decodeDop_wire hv)
  · subst h5; exact decodedItem_atItem h (decodeSigma_wire hv)
  · subst h6; exact decodedItem_atItem h (decodeIns_wire hv)
  · subst h7; exact decodedItem_atItem h (decodeInsrms_wire hv)
  · subst h8; exact decodedItem_atItem h (decodeMsl_wire hv)
  · have hk : s.params.kinds.contains k = false := by
      simp [Params.kinds, h1, h2, h3, h4, h5, h6, h7, h8]
    rw [execItemInRangeUndecoded, hk, decide_eq_true (by omega)]
    exact itemRow_atItem h _

/-! ### The walk -/

/-- The walk writes only the bitset, the register file and the cursor (R113). -/
theorem walkItems_frame {fuel : Nat} {s t : State} (h : walkItems fuel s = .next t) :
    t = { s with bitset := t.bitset, oreg := t.oreg, disp := t.disp } := by
  induction fuel generalizing s with
  | zero => cases h; rfl
  | succ fuel ih =>
    unfold walkItems at h
    split at h
    · split at h
      · obtain ⟨s', h1, h2⟩ := andThen_eq_next h
        have e := ih h2
        obtain ⟨c, any, -, -, ⟨-, -, rfl⟩ | ⟨-, -, rfl⟩ | ⟨-, d, rfl⟩⟩ := handleItem_next h1 <;>
          simpa [State.nextItem] using e
      · cases h; rfl
      · cases h
    all_goals (cases h; rfl)

/-- With fuel for the bytes left, the walk ends by returning (R112). -/
theorem walkItems_done {fuel c : Nat} {any : Bool} {s t : State} (h : walkItems fuel s = .next t)
    (hd : s.disp = .walk c any) (hf : s.n.toNat < fuel + c) (h0 : 0 < fuel) :
    ∃ any' fault, t.disp = .done any' fault := by
  induction fuel generalizing s c any with
  | zero => omega
  | succ fuel ih =>
    unfold walkItems at h
    rw [hd] at h
    simp only at h
    rcases s.itemAt_cases c with ⟨-, hi⟩ | ⟨hc, k, l, -, -, hi⟩ | ⟨-, f, hi⟩
    · rw [hi] at h; cases h; exact ⟨any, false, rfl⟩
    · rw [hi] at h
      obtain ⟨s', h1, h2⟩ := andThen_eq_next h
      obtain ⟨c', any', hd', -, hcase⟩ := handleItem_next h1
      rw [hd] at hd'
      cases hd'
      rcases hcase with ⟨-, -, rfl⟩ | ⟨-, -, rfl⟩ | ⟨-, d, rfl⟩
      · exact ih h2 rfl (by show s.n.toNat < _; omega) (by omega)
      · cases fuel with
        | zero => omega
        | succ fuel => cases h2; exact ⟨any, true, rfl⟩
      · exact ih h2 rfl (by show s.n.toNat < _; omega) (by omega)
    · rw [hi] at h; cases h

end Sys2Proof.Machine
end

