-- ==== Sys2Proof/Laws/Feed.lean ====
section
/-!
SUPPORT. The two guards of a host transaction, what DISPATCH inside a FEED can do, and the inversion of `step`.
-/

namespace Sys2Proof.Machine

/-! ### The guards -/

@[simp] theorem between_idle {s : State} (h : s.disp = .idle) (r : Result) : between s r = r := by
  simp [between, h]

@[simp] theorem between_busy {s : State} (h : s.disp ≠ .idle) (r : Result) : between s r = .refused .overlap := by
  simp [between, h]

theorem between_next {s t : State} {r : Result} (h : between s r = .next t) : s.disp = .idle ∧ r = .next t := by
  unfold between at h
  split_ifs at h with hd
  exact ⟨hd, h⟩

@[simp] theorem feedRow_selected {s : State} (h : s.disp = .idle) (r : Result) : feedRow s true r = r := by
  simp [feedRow, h]

@[simp] theorem feedRow_unselected {s : State} (h : s.disp = .idle) (r : Result) :
    feedRow s false r = .refused .rowNotSelected := by
  simp [feedRow, h]

/-- A FEED row answers a next state only between transactions and only where it is selected. -/
theorem feedRow_next {s t : State} {sel : Bool} {r : Result} (h : feedRow s sel r = .next t) :
    s.disp = .idle ∧ sel = true ∧ r = .next t := by
  obtain ⟨hd, h⟩ := between_next h
  split_ifs at h with hs
  exact ⟨hd, hs, h⟩

/-- Every FEED row is guarded by the condition that the table gives it. -/
theorem exec_feed (s : State) {i : Instr} (h : i.format = .fsmByte) : ∃ r, exec i s = feedRow s (i.wf s.ctx) r := by
  cases i <;> first | exact ⟨_, rfl⟩ | cases h

/-! ### DISPATCH -/

/-- The packet-type test, where DISPATCH has been invoked: it clears the bitset and goes to the walk or returns. -/
theorem dispatchType_entry {s : State} (h : s.disp = .entry) :
    dispatchType s = .next { s with
      bitset := 0, disp := if s.ptype = s.params.aggType then .walk 3 false else .done false false } := by
  unfold dispatchType
  split_ifs with hp
  · simp [execDispatchAggregate, dispatchRow, h, hp]
  · simp [execDispatchOther, dispatchRow, h, hp]

/-- What DISPATCH has done when it answers a next state: it has returned, and written only the bitset and OREG (R113). -/
theorem dispatch_next {s t : State} (h : dispatch s = .next t) :
    (∃ any fault, t.disp = .done any fault) ∧ t = { s with bitset := t.bitset, oreg := t.oreg, disp := t.disp } := by
  unfold dispatch at h
  rw [dispatchType_entry rfl, andThen_next] at h
  refine ⟨?_, ?_⟩
  · by_cases hp : s.ptype = s.params.aggType
    · simp only [hp, if_true] at h
      exact walkItems_done h rfl (by show s.n.toNat < s.n.toNat + 1 + 3; omega) (by omega)
    · simp only [hp, if_false, walkItems, Host.Outcome.next.injEq] at h
      exact ⟨false, false, by rw [← h]⟩
  · simpa using walkItems_frame h

/-- What the FEED of a matching checksum byte has done when it answers a next state. -/
theorem execFeedChecksumMatch_next {s t : State} {b : Byte} (h : execFeedChecksumMatch b s = .next t) :
    s.disp = .idle ∧ s.st = .checksum ∧ b = s.acc ∧
      ∃ d any fault, dispatch { s with rxCk := b } = .next d ∧ d.disp = .done any fault ∧ t = d.finishFeed any fault := by
  obtain ⟨hd, hs, h⟩ := feedRow_next h
  simp only [Bool.and_eq_true, beq_iff_eq] at hs
  obtain ⟨d, h1, h2⟩ := andThen_eq_next h
  obtain ⟨⟨any, fault, hf⟩, -⟩ := dispatch_next h1
  rw [finish, hf] at h2
  cases h2
  exact ⟨hd, hs.1, hs.2, d, any, fault, h1, hf, rfl⟩

/-- What the end of the FEED of a matching checksum byte leaves: only `rx_ck`, the state, the cause, the result and what
DISPATCH writes (R93). -/
theorem finishFeed_frame {s d : State} {b : Byte} {any fault : Bool} (h : dispatch { s with rxCk := b } = .next d) :
    d.finishFeed any fault = { s with
      rxCk := b, bitset := d.bitset, oreg := d.oreg, disp := .idle, st := if fault then .halted else .endOfFrame
      haltCause := if fault then .unknownKind else s.haltCause
      lastResult := if fault then .fault else if any then .frameOk else .frameBad
      resp := .result (if fault then .fault else if any then .frameOk else .frameBad) } := by
  rw [(dispatch_next h).2]
  cases fault <;> rfl

/-! ### The decoder and the item chain -/

/-- The chain of R112 runs the row the decoder gives for the header. -/
theorem exec_decodeItem (s : State) (k l : Byte) : exec (decodeItem s.params k l) s = handleItem k l s := by
  unfold decodeItem handleItem
  split_ifs
  · cases s.params.unknownKind <;> rfl
  all_goals rfl

/-- The packet-type test runs the row the decoder gives for the type. -/
theorem exec_decodePacketType (s : State) : exec (decodePacketType s.params s.ptype) s = dispatchType s := by
  unfold decodePacketType dispatchType
  split_ifs <;> rfl

/-! ### The step -/

/-- Between transactions the next transaction is fetched and taken off the list. -/
theorem fetch_idle {s : State} (h : s.disp = .idle) {t : Transaction} {rest : List Transaction}
    (hi : s.input = t :: rest) :
    s.fetch = .ok (some (decode s.ctx (.transaction t), { s with input := rest })) := by
  simp [State.fetch, h, hi]

/-- What a step between transactions is: the next transaction's instruction, or nothing. -/
theorem step_idle {s : State} (hw : s.params.wf = true) (h : s.disp = .idle) :
    (s.input = [] ∧ step s = .next s) ∨
      ∃ t rest, s.input = t :: rest ∧ step s = exec (decode s.ctx (.transaction t)) { s with input := rest } := by
  cases hi : s.input with
  | nil => exact .inl ⟨rfl, by simp [step, hw, State.fetch, h, hi, State.advance]⟩
  | cons t rest => exact .inr ⟨t, rest, rfl, by simp [step, hw, fetch_idle h hi]⟩

end Sys2Proof.Machine
end

