-- ==== Sys2Proof/Laws/Numeric.lean ====
section
/-!
SUPPORT. Binary64: what rounding to the nearest integer does, the fields of a pattern built from a sign and a magnitude,
and the numbers such patterns stand for.
-/

namespace Sys2Proof.Machine

/-- Rounding to the nearest integer, ties to even: the result is at most half a unit away, and even where it is exactly
half a unit away. -/
theorem roundEven_near (m k : Nat) :
    2 * |(roundEven m k : ℤ) * 2 ^ k - m| ≤ 2 ^ k ∧
      (2 * |(roundEven m k : ℤ) * 2 ^ k - m| = 2 ^ k → roundEven m k % 2 = 0) := by
  have hd : (m : ℤ) = (m / 2 ^ k : ℕ) * 2 ^ k + (m % 2 ^ k : ℕ) := by
    have h := Nat.div_add_mod' m (2 ^ k)
    exact_mod_cast h.symm
  have hr : m % 2 ^ k < 2 ^ k := Nat.mod_lt _ (by positivity)
  have hp : ((2 ^ k : ℕ) : ℤ) = 2 ^ k := by push_cast; rfl
  unfold roundEven
  generalize hq : m / 2 ^ k = q at *
  generalize hs : m % 2 ^ k = r at *
  simp only
  split_ifs with h1 h2
  · have e : (q : ℤ) * 2 ^ k - m = -(r : ℤ) := by rw [hd]; ring
    rw [e, abs_neg, abs_of_nonneg (by positivity)]
    constructor
    · omega
    · intro h; omega
  · have e : ((q + 1 : ℕ) : ℤ) * 2 ^ k - m = 2 ^ k - r := by rw [hd]; push_cast; ring
    rw [e, abs_of_nonneg (by omega)]
    constructor
    · omega
    · intro h; omega
  · have hm : 2 * r = 2 ^ k := by omega
    rcases Nat.mod_two_eq_zero_or_one q with h | h
    · have e : ((q + q % 2 : ℕ) : ℤ) * 2 ^ k - m = -(r : ℤ) := by rw [hd, h]; push_cast; ring
      rw [e, abs_neg, abs_of_nonneg (by positivity)]
      exact ⟨by omega, fun _ => by omega⟩
    · have e : ((q + q % 2 : ℕ) : ℤ) * 2 ^ k - m = 2 ^ k - r := by rw [hd, h]; push_cast; ring
      rw [e, abs_of_nonneg (by omega)]
      exact ⟨by omega, fun _ => by omega⟩

/-! ### The fields of a pattern -/

theorem withSign_toNat (neg : Bool) {mag : Nat} (h : mag < 2 ^ 63) :
    (withSign neg mag).toNat = (if neg then 2 ^ 63 else 0) + mag := by
  cases neg <;> simp [withSign] <;> omega

theorem f64Sign_withSign (neg : Bool) {mag : Nat} (h : mag < 2 ^ 63) : f64Sign (withSign neg mag) = neg := by
  rw [f64Sign, BitVec.getLsbD, withSign_toNat neg h, Nat.testBit_eq_decide_div_mod_eq]
  cases neg <;> simp <;> omega

theorem f64Exp_withSign (neg : Bool) {mag : Nat} (h : mag < 2 ^ 63) : f64Exp (withSign neg mag) = mag / 2 ^ 52 := by
  rw [f64Exp, BitVec.extractLsb'_toNat, withSign_toNat neg h, Nat.shiftRight_eq_div_pow]
  cases neg <;> simp <;> omega

theorem f64Frac_withSign (neg : Bool) {mag : Nat} (h : mag < 2 ^ 63) : f64Frac (withSign neg mag) = mag % 2 ^ 52 := by
  rw [f64Frac, BitVec.extractLsb'_toNat, withSign_toNat neg h, Nat.shiftRight_eq_div_pow]
  cases neg
  · simp
  · simp; omega

theorem f64Exp_lt (x : F64) : f64Exp x < 2048 := (x.extractLsb' 52 11).isLt

theorem f64Frac_lt (x : F64) : f64Frac x < 2 ^ 52 := (x.extractLsb' 0 52).isLt

/-! ### Values -/

/-- A finite value is an integer of at most 53 bits times a power of two not below 2 ^ −1074, with 53 bits where the power
is above that. -/
theorem f64Sig_range (x : F64) :
    f64Sig x < 2 ^ 53 ∧ -1074 ≤ f64Unit x ∧ (f64Unit x = -1074 ∨ 2 ^ 52 ≤ f64Sig x) := by
  have := f64Frac_lt x
  unfold f64Sig f64Unit
  split_ifs with h <;> omega

/-- A significand `q` counted in the unit `u`, packed as `roundMagnitude` packs it: its significand and unit stand for
the same number. -/
theorem packed_value (neg : Bool) {u : ℤ} {q : Nat} (hu : -1074 ≤ u) (hq : q ≤ 2 ^ 53) (hn : u = -1074 ∨ 2 ^ 52 ≤ q)
    (hf : (u + 1074).toNat * 2 ^ 52 + q < infMagnitude) :
    let x := withSign neg ((u + 1074).toNat * 2 ^ 52 + q)
    (f64Sig x : ℚ) * 2 ^ f64Unit x = q * 2 ^ u ∧ f64Frac x % 2 = q % 2 ∧ f64IsFinite x = true := by
  intro x
  have hi : infMagnitude = 2047 * 2 ^ 52 := rfl
  have hlt : (u + 1074).toNat * 2 ^ 52 + q < 2 ^ 63 := by omega
  have he : f64Exp x = ((u + 1074).toNat * 2 ^ 52 + q) / 2 ^ 52 := f64Exp_withSign neg hlt
  have hfr : f64Frac x = ((u + 1074).toNat * 2 ^ 52 + q) % 2 ^ 52 := f64Frac_withSign neg hlt
  refine ⟨?_, ?_, ?_⟩
  · by_cases h53 : q = 2 ^ 53
    · have e1 : f64Exp x = (u + 1074).toNat + 2 := by omega
      have e2 : f64Frac x = 0 := by omega
      have e3 : f64Sig x = 2 ^ 52 := by rw [f64Sig, e1, e2]; simp
      have e4 : f64Unit x = u + 1 := by rw [f64Unit, e1]; rw [if_neg (by omega)]; omega
      rw [e3, e4, h53, zpow_add₀ (by norm_num)]
      push_cast; ring
    · by_cases h52 : 2 ^ 52 ≤ q
      · have e1 : f64Exp x = (u + 1074).toNat + 1 := by omega
        have e2 : f64Frac x = q - 2 ^ 52 := by omega
        have e3 : f64Sig x = q := by rw [f64Sig, e1, e2, if_neg (by omega)]; omega
        have e4 : f64Unit x = u := by rw [f64Unit, e1]; rw [if_neg (by omega)]; omega
        rw [e3, e4]
      · have hu' : u = -1074 := by omega
        have e1 : f64Exp x = 0 := by omega
        have e2 : f64Frac x = q := by omega
        have e3 : f64Sig x = q := by rw [f64Sig, e1, e2, if_pos rfl]
        have e4 : f64Unit x = u := by rw [f64Unit, e1]; rw [if_pos rfl, hu']
        rw [e3, e4]
  · omega
  · simp only [f64IsFinite, bne_iff_ne, ne_eq]; omega

/-- The magnitude of a finite value. -/
theorem abs_f64Value (x : F64) : |f64Value x| = f64Sig x * 2 ^ f64Unit x := by
  have h : (0 : ℚ) ≤ f64Sig x * 2 ^ f64Unit x := by positivity
  unfold f64Value
  cases f64Sign x <;> simp [abs_of_nonneg h]

/-- On the scale of a unit `u` a finite value is small, or it is a whole number of units. -/
theorem f64Value_grid (y : F64) (u : ℤ) :
    |f64Value y| < 2 ^ 52 * (2 : ℚ) ^ u ∨ ∃ z : ℤ, f64Value y = z * 2 ^ u := by
  obtain ⟨h1, -, -⟩ := f64Sig_range y
  have two : (2 : ℚ) ≠ 0 := by norm_num
  rcases Int.lt_or_le (f64Unit y) u with h | h
  · refine .inl ?_
    have hs : (f64Sig y : ℚ) < 2 ^ 53 := by exact_mod_cast h1
    have hp : (0 : ℚ) < 2 ^ f64Unit y := by positivity
    have h2 : (2 : ℚ) ^ f64Unit y ≤ 2 ^ (u - 1) := zpow_le_zpow_right₀ (by norm_num) (by omega)
    have h3 : (2 : ℚ) ^ 53 * 2 ^ (u - 1) = 2 ^ 52 * 2 ^ u := by
      rw [← zpow_natCast, ← zpow_natCast, ← zpow_add₀ two, ← zpow_add₀ two]; congr 1; push_cast; ring
    rw [abs_f64Value, ← h3]
    calc (f64Sig y : ℚ) * 2 ^ f64Unit y < 2 ^ 53 * 2 ^ f64Unit y := by gcongr
      _ ≤ 2 ^ 53 * 2 ^ (u - 1) := by gcongr
  · refine .inr ⟨(if f64Sign y then -1 else 1) * (f64Sig y * 2 ^ (f64Unit y - u).toNat), ?_⟩
    have h2 : (2 : ℚ) ^ f64Unit y = 2 ^ (f64Unit y - u).toNat * 2 ^ u := by
      rw [← zpow_natCast, ← zpow_add₀ two]; congr 1; omega
    rw [f64Value, h2]
    push_cast
    ring

/-! ### Rounding a number -/

/-- What rounding the positive number m · 2 ^ e packs: a significand `q` in a unit `u` in which the number has at most 53
bits (and 53 bits where the unit is above the smallest), at most half a unit away, and even where exactly half. -/
theorem roundMagnitude_packs {m : Nat} (hm : 0 < m) (e : ℤ) :
    ∃ (u : ℤ) (q : Nat), roundMagnitude m e = min infMagnitude ((u + 1074).toNat * 2 ^ 52 + q) ∧ -1074 ≤ u ∧
      (u = -1074 ∨ 2 ^ 52 * (2 : ℚ) ^ u ≤ m * 2 ^ e) ∧ (m : ℚ) * 2 ^ e < 2 ^ 53 * 2 ^ u ∧
      2 * |q * (2 : ℚ) ^ u - m * 2 ^ e| ≤ 2 ^ u ∧ (2 * |q * (2 : ℚ) ^ u - m * 2 ^ e| = 2 ^ u → q % 2 = 0) := by
  have hlog1 : 2 ^ Nat.log2 m ≤ m := Nat.log2_self_le (by omega)
  have hlog2 : m < 2 ^ (Nat.log2 m + 1) := Nat.lt_log2_self
  have two : (2 : ℚ) ≠ 0 := by norm_num
  have hge : -1074 ≤ roundUnit m e := by unfold roundUnit; omega
  have hbit : (Nat.log2 m : ℤ) + e - 52 ≤ roundUnit m e := by unfold roundUnit; omega
  have hcase : roundUnit m e = -1074 ∨ roundUnit m e = (Nat.log2 m : ℤ) + e - 52 := by unfold roundUnit; omega
  have lower : roundUnit m e = -1074 ∨ 2 ^ 52 * (2 : ℚ) ^ roundUnit m e ≤ m * 2 ^ e := by
    refine hcase.imp id fun h => ?_
    have h1 : (2 : ℚ) ^ 52 * 2 ^ roundUnit m e = 2 ^ Nat.log2 m * 2 ^ e := by
      rw [h, ← zpow_natCast, ← zpow_natCast, ← zpow_add₀ two, ← zpow_add₀ two]; congr 1; push_cast; ring
    rw [h1]
    have h2 : ((2 ^ Nat.log2 m : ℕ) : ℚ) ≤ m := by exact_mod_cast hlog1
    push_cast at h2
    gcongr
  have upper : (m : ℚ) * 2 ^ e < 2 ^ 53 * 2 ^ roundUnit m e := by
    have h2 : (m : ℚ) < ((2 ^ (Nat.log2 m + 1) : ℕ) : ℚ) := by exact_mod_cast hlog2
    have h3 : ((2 ^ (Nat.log2 m + 1) : ℕ) : ℚ) * 2 ^ e ≤ 2 ^ 53 * 2 ^ roundUnit m e := by
      push_cast
      rw [← zpow_natCast, ← zpow_natCast, ← zpow_add₀ two, ← zpow_add₀ two]
      exact zpow_le_zpow_right₀ (by norm_num) (by push_cast; omega)
    refine lt_of_lt_of_le ?_ h3
    gcongr
  rw [roundMagnitude, if_neg (by omega)]
  simp only
  generalize hu : roundUnit m e = u at *
  refine ⟨u, _, rfl, hge, lower, upper, ?_⟩
  split_ifs with h
  · have e1 : ((m * 2 ^ (e - u).toNat : ℕ) : ℚ) * 2 ^ u = m * 2 ^ e := by
      push_cast
      rw [mul_assoc, ← zpow_natCast, ← zpow_add₀ two]
      congr 2; omega
    rw [e1]
    have hpos : (0 : ℚ) < 2 ^ u := by positivity
    simp only [sub_self, abs_zero, mul_zero]
    exact ⟨hpos.le, fun h => absurd h hpos.ne⟩
  · obtain ⟨n1, n2⟩ := roundEven_near m (u - e).toNat
    have hue : (2 : ℚ) ^ u = 2 ^ (u - e).toNat * 2 ^ e := by
      rw [← zpow_natCast, ← zpow_add₀ two]; congr 1; omega
    have e2 : 2 * |(roundEven m (u - e).toNat : ℚ) * 2 ^ u - m * 2 ^ e|
        = ((2 * |(roundEven m (u - e).toNat : ℤ) * 2 ^ (u - e).toNat - m| : ℤ) : ℚ) * 2 ^ e := by
      rw [hue, ← mul_assoc, ← sub_mul, abs_mul, abs_of_pos (by positivity : (0 : ℚ) < 2 ^ e)]
      push_cast; ring
    rw [e2, hue]
    have hpos : (0 : ℚ) < 2 ^ e := by positivity
    constructor
    · gcongr
      exact_mod_cast n1
    · intro h
      have h' := mul_right_cancel₀ hpos.ne' h
      exact n2 (by exact_mod_cast h')

/-! ### The RAD2DEG of an instance -/

theorem rad2deg_listed {r : Rad2deg} {x y : F64} (h : r.table.lookup x = some y) : rad2deg r x = y := by
  simp [rad2deg, h]

theorem rad2deg_unlisted {r : Rad2deg} {x : F64} (h : r.table.lookup x = none) :
    rad2deg r x = rad2degDefault r.nanChoice x := by
  simp [rad2deg, h]

/-- A function on a list's members, as a table. -/
theorem lookup_graph {α β : Type} [DecidableEq α] (f : α → β) {l : List α} {x : α} (h : x ∈ l) :
    (l.map fun a => (a, f a)).lookup x = some (f x) := by
  induction l with
  | nil => cases h
  | cons a l ih =>
    by_cases e : x = a
    · subst e; simp
    · have hx : (x == a) = false := by simpa using e
      simpa [List.lookup_cons, hx] using ih (by simpa [e] using h)

/-- There are finitely many patterns of a width, so every function on them is a table. -/
theorem exists_table {w : Nat} (f : BitVec w → BitVec w) :
    ∃ t : List (BitVec w × BitVec w), ∀ x, t.lookup x = some (f x) :=
  ⟨((List.finRange (2 ^ w)).map BitVec.ofFin).map fun a => (a, f a),
    fun x => lookup_graph f (List.mem_map.2 ⟨x.toFin, List.mem_finRange _, rfl⟩)⟩

end Sys2Proof.Machine
end

