-- ==== Sys2Proof/Laws/PerInstr.lean ====
section
/-!
SUPPORT. Per instruction: the word of every row is read in the row's own format (30_encoding.md R84) and has that format's
number of bytes (one for a FEED byte and for a packet type, two for an item header, none for a host operation; R55,
R70).
-/

namespace Sys2Proof.Laws

/-- The number of bytes of a word of a format. -/
def Encoded.bytes : Format → Nat
  | .fsmByte => 1
  | .packetType => 1
  | .itemKind => 2
  | .hostOp => 0

/-- The encoder gives the row a word of the row's format, with that format's number of bytes. -/
def Encoded.Statement (i : Instr) : Prop :=
  ∀ p : Params, codeFormat (encode p i) = i.format ∧ (codeBytes (encode p i)).length = Encoded.bytes i.format

theorem Encoded.feedAwaitStartStx : Encoded.Statement .feedAwaitStartStx := fun _ => ⟨rfl, rfl⟩
theorem Encoded.feedAwaitStartOther (b : Byte) : Encoded.Statement (.feedAwaitStartOther b) := fun _ => ⟨rfl, rfl⟩
theorem Encoded.feedStatus (b : Byte) : Encoded.Statement (.feedStatus b) := fun _ => ⟨rfl, rfl⟩
theorem Encoded.feedPacketType (b : Byte) : Encoded.Statement (.feedPacketType b) := fun _ => ⟨rfl, rfl⟩
theorem Encoded.feedLengthOk (b : Byte) : Encoded.Statement (.feedLengthOk b) := fun _ => ⟨rfl, rfl⟩
theorem Encoded.feedLengthOverflowFailclosed (b : Byte) : Encoded.Statement (.feedLengthOverflowFailclosed b) := fun _ => ⟨rfl, rfl⟩
theorem Encoded.feedLengthOverflowAbort (b : Byte) : Encoded.Statement (.feedLengthOverflowAbort b) := fun _ => ⟨rfl, rfl⟩
theorem Encoded.feedData (b : Byte) : Encoded.Statement (.feedData b) := fun _ => ⟨rfl, rfl⟩
theorem Encoded.feedChecksumMatch (b : Byte) : Encoded.Statement (.feedChecksumMatch b) := fun _ => ⟨rfl, rfl⟩
theorem Encoded.feedChecksumMismatch (b : Byte) : Encoded.Statement (.feedChecksumMismatch b) := fun _ => ⟨rfl, rfl⟩
theorem Encoded.feedEndOfFrame (b : Byte) : Encoded.Statement (.feedEndOfFrame b) := fun _ => ⟨rfl, rfl⟩
theorem Encoded.feedHalted (b : Byte) : Encoded.Statement (.feedHalted b) := fun _ => ⟨rfl, rfl⟩
theorem Encoded.dispatchAggregate : Encoded.Statement .dispatchAggregate := fun _ => ⟨rfl, rfl⟩
theorem Encoded.dispatchOther (t : Byte) : Encoded.Statement (.dispatchOther t) := fun _ => ⟨rfl, rfl⟩
theorem Encoded.itemTime (l : Byte) : Encoded.Statement (.itemTime l) := fun _ => ⟨rfl, rfl⟩
theorem Encoded.itemPosition (l : Byte) : Encoded.Statement (.itemPosition l) := fun _ => ⟨rfl, rfl⟩
theorem Encoded.itemVelocity (l : Byte) : Encoded.Statement (.itemVelocity l) := fun _ => ⟨rfl, rfl⟩
theorem Encoded.itemDop (l : Byte) : Encoded.Statement (.itemDop l) := fun _ => ⟨rfl, rfl⟩
theorem Encoded.itemSigma (l : Byte) : Encoded.Statement (.itemSigma l) := fun _ => ⟨rfl, rfl⟩
theorem Encoded.itemIns (l : Byte) : Encoded.Statement (.itemIns l) := fun _ => ⟨rfl, rfl⟩
theorem Encoded.itemInsrms (l : Byte) : Encoded.Statement (.itemInsrms l) := fun _ => ⟨rfl, rfl⟩
theorem Encoded.itemMsl (l : Byte) : Encoded.Statement (.itemMsl l) := fun _ => ⟨rfl, rfl⟩
theorem Encoded.itemInRangeUndecoded (k l : Byte) : Encoded.Statement (.itemInRangeUndecoded k l) := fun _ => ⟨rfl, rfl⟩
theorem Encoded.itemOutOfRangeSkip (k l : Byte) : Encoded.Statement (.itemOutOfRangeSkip k l) := fun _ => ⟨rfl, rfl⟩
theorem Encoded.itemOutOfRangeAbort (k l : Byte) : Encoded.Statement (.itemOutOfRangeAbort k l) := fun _ => ⟨rfl, rfl⟩
theorem Encoded.read (width : ReadWidth) (a : HostAddr) : Encoded.Statement (.read width a) := fun _ => ⟨rfl, rfl⟩
theorem Encoded.write (a : HostAddr) (w : Word) : Encoded.Statement (.write a w) := fun _ => ⟨rfl, rfl⟩
theorem Encoded.reset : Encoded.Statement .reset := fun _ => ⟨rfl, rfl⟩

end Sys2Proof.Laws
end

