-- ==== Sys2Proof/Laws/RegMap.lean ====
section
/-!
SUPPORT. The host register map: what a READ answers, given the entry of the map at its address.
-/

namespace Sys2Proof.Machine

/-- The word of an entry that holds one. -/
theorem State.readResponse_written {s : State} {a : HostAddr} {w : Word}
    (h : s.regMap.lookup a.toNat = some (some w)) : s.readResponse a = .word w := by
  simp only [State.readResponse, h]

/-- An entry with an unwritten register (R131). -/
theorem State.readResponse_unwritten {s : State} {a : HostAddr} (h : s.regMap.lookup a.toNat = some none) :
    s.readResponse a = .unwrittenRead a (s.contentsWord a) := by
  simp only [State.readResponse, h]

/-- An address without an entry (R46). -/
theorem State.readResponse_reserved {s : State} {a : HostAddr} (h : s.regMap.lookup a.toNat = none) :
    s.readResponse a = .word 0 := by
  simp only [State.readResponse, h]

/-- All that reading the map can answer: a word, or UnwrittenRead where the entry holds an unwritten register. -/
theorem State.readResponse_cases (s : State) (a : HostAddr) :
    (∃ w, s.readResponse a = .word w) ∨
      (s.regMap.lookup a.toNat = some none ∧ s.readResponse a = .unwrittenRead a (s.contentsWord a)) := by
  rcases h : s.regMap.lookup a.toNat with _ | _ | w
  · exact .inl ⟨0, State.readResponse_reserved h⟩
  · exact .inr ⟨rfl, State.readResponse_unwritten h⟩
  · exact .inl ⟨w, State.readResponse_written h⟩

/-! ### The words of a register file -/

/-- The two words of an f64 register at address `n` (R45). -/
abbrev Oreg.HasF64 (o : Oreg) (n : Nat) (x : Option F64) : Prop :=
  o.words.lookup n = some (x.map (·.extractLsb' 0 32)) ∧ o.words.lookup (n + 4) = some (x.map (·.extractLsb' 32 32))

theorem Oreg.words_pos (o : Oreg) : o.HasF64 0x050 o.pos.lat ∧ o.HasF64 0x058 o.pos.lon ∧ o.HasF64 0x060 o.pos.hgt :=
  ⟨⟨rfl, rfl⟩, ⟨rfl, rfl⟩, ⟨rfl, rfl⟩⟩

theorem Oreg.words_insPos (o : Oreg) :
    o.HasF64 0x0B0 o.ins.lat ∧ o.HasF64 0x0B8 o.ins.lon ∧ o.HasF64 0x0C0 o.ins.alt :=
  ⟨⟨rfl, rfl⟩, ⟨rfl, rfl⟩, ⟨rfl, rfl⟩⟩

theorem Oreg.words_insAngles (o : Oreg) :
    o.HasF64 0x0D8 o.ins.roll ∧ o.HasF64 0x0E0 o.ins.pitch ∧ o.HasF64 0x0E8 o.ins.heading ∧ o.HasF64 0x0F0 o.ins.track :=
  ⟨⟨rfl, rfl⟩, ⟨rfl, rfl⟩, ⟨rfl, rfl⟩, ⟨rfl, rfl⟩⟩

theorem Oreg.words_msl (o : Oreg) :
    o.HasF64 0x110 o.msl.latDeg ∧ o.HasF64 0x118 o.msl.lonDeg ∧ o.HasF64 0x120 o.msl.alt :=
  ⟨⟨rfl, rfl⟩, ⟨rfl, rfl⟩, ⟨rfl, rfl⟩⟩

/-- The words that can hold a written register beside an unwritten one. -/
theorem Oreg.words_bytes (o : Oreg) :
    o.words.lookup 0x048 = some (timeMiscWord o.time) ∧
    o.words.lookup 0x0A8 = some (bytePairWord o.ins.align o.ins.fix) ∧
    o.words.lookup 0x108 = some (bytePairWord o.rms.align o.rms.fix) :=
  ⟨rfl, rfl, rfl⟩

/-! ### The map -/

/-- The map has the words of the register file at 0x040 and above (R40). -/
theorem State.regMap_oreg (s : State) {n : Nat} (h : 0x040 ≤ n) : s.regMap.lookup n = s.oreg.words.lookup n := by
  have hs : s.systemWords.lookup n = none := by
    simp only [List.lookup_eq_none_iff, State.systemWords, List.forall_mem_cons, bne_iff_ne, List.not_mem_nil,
      false_implies, implies_true, and_true]
    omega
  rw [State.regMap, List.lookup_append, hs, Option.none_or]

/-- The word of the registers' contents at an entry of the register file of the contents. -/
theorem State.contentsWord_eq {s : State} {a : HostAddr} {w : Word}
    (h : (s.oreg.contents s.resetChoice).words.lookup a.toNat = some (some w)) : s.contentsWord a = w := by
  rw [State.contentsWord, h]; rfl

/-- Every entry of the map that can be without a word is an OREG word, at 0x040 to 0x127 (R40, R45). -/
theorem State.regMap_none {s : State} {n : Nat} (h : s.regMap.lookup n = some none) : 0x040 ≤ n ∧ n < 0x128 := by
  have hm : (n, (none : Option Word)) ∈ s.regMap := by
    obtain ⟨l₁, l₂, e, -⟩ := List.lookup_eq_some_iff.1 h
    rw [e]; simp
  simp only [State.regMap, State.systemWords, Oreg.words, TimeSlot.words, PosSlot.words, VelSlot.words, DopSlot.words,
    SigSlot.words, InsSlot.words, RmsSlot.words, MslSlot.words, f64Words, List.mem_append, List.mem_cons,
    List.not_mem_nil, or_false, Prod.mk.injEq, reduceCtorEq, and_false, false_or] at hm
  omega

/-! ### READ -/

/-- A READ between transactions, of a whole word at a multiple of 4, is always answered (R130). -/
theorem execRead_aligned {s : State} (hd : s.disp = .idle) {a : HostAddr} (ha : a.toNat % 4 = 0) :
    execRead .w32 a s = .next { s with resp := s.readResponse a } := by
  have h : ¬ (a.toNat % 4 ≠ 0 ∨ ReadWidth.w32 ≠ .w32) := by simp [ha]
  exact (if_pos hd).trans (if_neg h)

theorem execRead_written {s : State} (hd : s.disp = .idle) {a : HostAddr} (ha : a.toNat % 4 = 0) {w : Word}
    (h : s.regMap.lookup a.toNat = some (some w)) : execRead .w32 a s = .next { s with resp := .word w } := by
  rw [execRead_aligned hd ha, State.readResponse_written h]

theorem execRead_unwritten {s : State} (hd : s.disp = .idle) {a : HostAddr} (ha : a.toNat % 4 = 0)
    (h : s.regMap.lookup a.toNat = some none) :
    execRead .w32 a s = .next { s with resp := .unwrittenRead a (s.contentsWord a) } := by
  rw [execRead_aligned hd ha, State.readResponse_unwritten h]

theorem execRead_reserved {s : State} (hd : s.disp = .idle) {a : HostAddr} (ha : a.toNat % 4 = 0)
    (h : s.regMap.lookup a.toNat = none) : execRead .w32 a s = .next { s with resp := .word 0 } := by
  rw [execRead_aligned hd ha, State.readResponse_reserved h]

end Sys2Proof.Machine
end

