-- ==== Sys2Proof/Tests/Slice0.lean ====
section
/-!
SUPPORT. Tests. The expected values are those of the spec: the examples of its rules, its test vectors
(95_test_vectors.md) or its tables; each test names its source. Then the witnesses: for every obligation with hypotheses a
concrete state and operands that meet them, at the edges where clauses meet.
-/

namespace Sys2Proof.Tests

open Sys2Proof Sys2Proof.Machine

/-! ### Small states -/

/-- The next state of a result. -/
def nextOf : Result → Option State
  | .next s => some s
  | .fault _ => none
  | .refused _ => none

/-- The fault of a result. -/
def faultOf : Result → Option Fault
  | .next _ => none
  | .fault f => some f
  | .refused _ => none

/-- The refusal of a result. -/
def refusalOf : Result → Option Refusal
  | .next _ => none
  | .fault _ => none
  | .refused r => some r

/-- The address of a READ that was answered UnwrittenRead. -/
def unwrittenAt : Response → Option HostAddr
  | .none => none
  | .result _ => none
  | .word _ => none
  | .unwrittenRead a _ => some a

/-- Default parameters with CAP = 16 and this overflow policy (VF8, VF9). -/
def small (o : OverflowPolicy) : Params := { Params.default with cap := 16, overflow := o }

/-- Default parameters with both policies Abort (VD7, VH7). -/
def strict : Params := { Params.default with unknownKind := .abort, overflow := .abort }

/-- The state after RESET but for the parameters, the FRAMER state and the accumulator. -/
def at_ (p : Params) (st : FsmState) (acc : Byte) : State := { State.reset with params := p, st := st, acc := acc }

/-- A state in Checksum with this payload received and this packet type. -/
def holding (p : Params) (t : Byte) (payload : List Byte) : State :=
  { State.reset with
    params := p, st := .checksum, ptype := t, n := BitVec.ofNat 8 payload.length
    count := BitVec.ofNat 8 payload.length, buf := Memory.load [] 0 payload }

/-- The walk at one item behind an empty sub-header; the payload ends with these value bytes. -/
def walkAt (p : Params) (k l : Byte) (value : List Byte) : State :=
  { holding p p.aggType ([0, 0, 0, k, l] ++ value) with disp := .walk 3 false }

def d : Params := Params.default

/-! ### Well-formedness: an ill-formed term for each check (R8, and the conditions of the opcode table) -/

theorem test_wf_parameters :
    d.wf = true ∧ strict.wf = true ∧ { d with cap := 0 }.wf = true ∧ { d with cap := 256 }.wf = false ∧
    { d with kindDop := 1 }.wf = false ∧ { d with kindMsl := 50 }.wf = false ∧ d.maxKind = 70 := by decide

theorem test_ill_formed_feed_rows :
    Instr.wf ⟨d, .status, 0⟩ .feedAwaitStartStx = false ∧ Instr.wf ⟨d, .awaitStart, 0⟩ (.feedAwaitStartOther 2) = false ∧
    Instr.wf ⟨d, .status, 0⟩ (.feedAwaitStartOther 3) = false ∧ Instr.wf ⟨d, .data, 0⟩ (.feedStatus 0) = false ∧
    Instr.wf ⟨d, .length, 0⟩ (.feedPacketType 0) = false ∧ Instr.wf ⟨d, .status, 0⟩ (.feedData 0) = false ∧
    Instr.wf ⟨d, .halted, 0⟩ (.feedEndOfFrame 0) = false ∧ Instr.wf ⟨d, .endOfFrame, 0⟩ (.feedHalted 0) = false := by
  decide

theorem test_ill_formed_length_rows :
    Instr.wf ⟨small .failClosed, .length, 0⟩ (.feedLengthOk 17) = false ∧
    Instr.wf ⟨small .failClosed, .length, 0⟩ (.feedLengthOverflowFailclosed 16) = false ∧
    Instr.wf ⟨small .abort, .length, 0⟩ (.feedLengthOverflowFailclosed 17) = false ∧
    Instr.wf ⟨small .abort, .length, 0⟩ (.feedLengthOverflowAbort 16) = false ∧
    Instr.wf ⟨small .failClosed, .length, 0⟩ (.feedLengthOverflowAbort 17) = false ∧
    Instr.wf ⟨small .failClosed, .data, 0⟩ (.feedLengthOk 16) = false := by decide

theorem test_ill_formed_checksum_rows :
    Instr.wf ⟨d, .checksum, 0x40⟩ (.feedChecksumMatch 0x41) = false ∧
    Instr.wf ⟨d, .checksum, 0x40⟩ (.feedChecksumMismatch 0x40) = false ∧
    Instr.wf ⟨d, .data, 0x40⟩ (.feedChecksumMatch 0x40) = false ∧
    Instr.wf ⟨d, .data, 0x40⟩ (.feedChecksumMismatch 0x41) = false := by decide

theorem test_ill_formed_dispatch_rows :
    Instr.wf ⟨d, .checksum, 0⟩ (.dispatchOther 0x40) = false ∧
    Instr.wf ⟨d, .checksum, 0⟩ (.itemInRangeUndecoded 1 0) = false ∧
    Instr.wf ⟨d, .checksum, 0⟩ (.itemInRangeUndecoded 71 0) = false ∧
    Instr.wf ⟨d, .checksum, 0⟩ (.itemOutOfRangeSkip 70 0) = false ∧
    Instr.wf ⟨strict, .checksum, 0⟩ (.itemOutOfRangeSkip 71 0) = false ∧
    Instr.wf ⟨strict, .checksum, 0⟩ (.itemOutOfRangeAbort 70 0) = false ∧
    Instr.wf ⟨d, .checksum, 0⟩ (.itemOutOfRangeAbort 71 0) = false := by decide

/-! ### Decoding: every row from a word written out bit by bit (opcode_table.json; R66, R71, R72) -/

theorem test_decode_await_start :
    decode ⟨d, .awaitStart, 0⟩ (.transaction (.feed 0b00000010)) = .feedAwaitStartStx ∧
    decode ⟨d, .awaitStart, 0⟩ (.transaction (.feed 0b00000011)) = .feedAwaitStartOther 3 := by decide

theorem test_decode_header_bytes :
    decode ⟨d, .status, 0⟩ (.transaction (.feed 0b00000010)) = .feedStatus 2 ∧
    decode ⟨d, .packetType, 0⟩ (.transaction (.feed 0b01000000)) = .feedPacketType 0x40 ∧
    decode ⟨d, .length, 0⟩ (.transaction (.feed 0b11111111)) = .feedLengthOk 255 ∧
    decode ⟨small .failClosed, .length, 0⟩ (.transaction (.feed 0b00010000)) = .feedLengthOk 16 ∧
    decode ⟨small .failClosed, .length, 0⟩ (.transaction (.feed 0b00010001)) = .feedLengthOverflowFailclosed 17 ∧
    decode ⟨small .abort, .length, 0⟩ (.transaction (.feed 0b00010001)) = .feedLengthOverflowAbort 17 := by decide

theorem test_decode_body_bytes :
    decode ⟨d, .data, 0⟩ (.transaction (.feed 0b00000010)) = .feedData 2 ∧
    decode ⟨d, .checksum, 0x2F⟩ (.transaction (.feed 0b00101111)) = .feedChecksumMatch 0x2F ∧
    decode ⟨d, .checksum, 0x30⟩ (.transaction (.feed 0b00101111)) = .feedChecksumMismatch 0x2F ∧
    decode ⟨d, .endOfFrame, 0⟩ (.transaction (.feed 0b00000010)) = .feedEndOfFrame 2 ∧
    decode ⟨d, .halted, 0⟩ (.transaction (.feed 0b00000010)) = .feedHalted 2 := by decide

theorem test_decode_packet_types :
    decode ⟨d, .checksum, 0⟩ (.packetType 0b01000000) = .dispatchAggregate ∧
    decode ⟨d, .checksum, 0⟩ (.packetType 0b01000001) = .dispatchOther 0x41 := by decide

theorem test_decode_items :
    decode ⟨d, .checksum, 0⟩ (.itemHeader 0b00000001 0b00001011) = .itemTime 11 ∧
    decode ⟨d, .checksum, 0⟩ (.itemHeader 0b00000010 0b00011000) = .itemPosition 24 ∧
    decode ⟨d, .checksum, 0⟩ (.itemHeader 0b00001000 0b00001101) = .itemVelocity 13 ∧
    decode ⟨d, .checksum, 0⟩ (.itemHeader 0b00001001 0b00010000) = .itemDop 16 ∧
    decode ⟨d, .checksum, 0⟩ (.itemHeader 0b00001100 0b00010100) = .itemSigma 20 ∧
    decode ⟨d, .checksum, 0⟩ (.itemHeader 0b00110001 0b01010000) = .itemIns 80 ∧
    decode ⟨d, .checksum, 0⟩ (.itemHeader 0b00110010 0b00001000) = .itemInsrms 8 ∧
    decode ⟨d, .checksum, 0⟩ (.itemHeader 0b01000110 0b00011000) = .itemMsl 24 := by decide

/-- The edges of the classes of R72: kinds 0 and 69 are in range and undecoded, 71 and 255 are out of range. -/
theorem test_decode_item_classes :
    decode ⟨d, .checksum, 0⟩ (.itemHeader 0b00000000 0b00000000) = .itemInRangeUndecoded 0 0 ∧
    decode ⟨d, .checksum, 0⟩ (.itemHeader 0b01000101 0b00000001) = .itemInRangeUndecoded 69 1 ∧
    decode ⟨d, .checksum, 0⟩ (.itemHeader 0b01000111 0b00000010) = .itemOutOfRangeSkip 71 2 ∧
    decode ⟨d, .checksum, 0⟩ (.itemHeader 0b11111111 0b00000000) = .itemOutOfRangeSkip 255 0 ∧
    decode ⟨strict, .checksum, 0⟩ (.itemHeader 0b11001000 0b00000011) = .itemOutOfRangeAbort 0xC8 3 := by decide

theorem test_decode_host_operations :
    decode ⟨d, .data, 0⟩ (.transaction (.read .w32 0x040)) = .read .w32 0x040 ∧
    decode ⟨d, .data, 0⟩ (.transaction (.write 0x040 7)) = .write 0x040 7 ∧
    decode ⟨d, .data, 0⟩ (.transaction .reset) = .reset := by decide

theorem test_decode_bytes :
    decodeBytes ⟨d, .checksum, 0⟩ .itemKind [0x09, 0x04, 0xAA] = .ok (.itemDop 4, [0xAA]) ∧
    decodeBytes ⟨d, .checksum, 0⟩ .itemKind [0x09] = .error .danglingByte ∧
    decodeBytes ⟨d, .checksum, 0⟩ .fsmByte [] = .error .noByte := ⟨rfl, rfl, rfl⟩

theorem test_encode :
    encode d .feedAwaitStartStx = .transaction (.feed 0b00000010) ∧ encode d .dispatchAggregate = .packetType 0b01000000 ∧
    encode d (.itemSigma 20) = .itemHeader 0b00001100 0b00010100 := by decide

/-- A table word placed in the state after RESET is what the next step runs, and it completes (log entry 20). -/
theorem test_placed_words :
    (nextOf (step (State.reset.withFetchWord 8 0x02))).map (·.st) = some .status ∧
    (nextOf (step (State.reset.withFetchWord 8 0x40))).map (·.disp) = some (.walk 3 false) ∧
    (nextOf (step (State.reset.withFetchWord 8 0x46))).map (·.bitset) = some (1#256 <<< 70) := by decide

/-! ### FEED (examples of 40_framing.md) -/

/-- R86: `55 02` from reset. -/
theorem test_feed_await_start_other :
    nextOf (exec (.feedAwaitStartOther 0x55) (at_ d .awaitStart 0x33)) =
      some { at_ d .awaitStart 0x33 with resp := .result .incomplete } := by decide

theorem test_feed_await_start_stx :
    nextOf (exec .feedAwaitStartStx { at_ d .awaitStart 0x33 with count := 5, n := 7, lastResult := .frameOk }) =
      some { at_ d .status 0 with n := 7, resp := .result .incomplete } := by decide

/-- R87, example. -/
theorem test_feed_status :
    nextOf (exec (.feedStatus 0xFF) (at_ d .status 0)) =
      some { at_ d .packetType 0xFF with statusB := 0xFF, resp := .result .incomplete } := by decide

/-- R88, corner case: the sum wraps. -/
theorem test_feed_packet_type_wraps :
    nextOf (exec (.feedPacketType 0x40) (at_ d .packetType 0xFF)) =
      some { at_ d .length 0x3F with ptype := 0x40, resp := .result .incomplete } := by decide

/-- R89, example. -/
theorem test_feed_length :
    nextOf (exec (.feedLengthOk 0x10) (at_ d .length 0x40)) =
      some { at_ d .data 0x50 with n := 0x10, resp := .result .incomplete } := by decide

/-- R89: N = 0 skips Data. -/
theorem test_feed_length_zero :
    (nextOf (exec (.feedLengthOk 0) (at_ d .length 0x40))).map (·.st) = some .checksum := by decide

/-- R90, example: `n` keeps its value. -/
theorem test_feed_length_overflow_failclosed :
    nextOf (exec (.feedLengthOverflowFailclosed 0x20) { at_ (small .failClosed) .length 0x40 with n := 9 }) =
      some { at_ (small .failClosed) .awaitStart 0x60 with
        n := 9, lastResult := .frameBad, resp := .result .frameBad } := by decide

/-- R91, VF9: acc = 0x60, halt_cause = 2. -/
theorem test_feed_length_overflow_abort :
    nextOf (exec (.feedLengthOverflowAbort 0x20) { at_ (small .abort) .length 0x40 with n := 9 }) =
      some { at_ (small .abort) .halted 0x60 with
        n := 9, haltCause := .lengthOverflow, lastResult := .fault, resp := .result .fault } := by decide

/-- R92, example. -/
theorem test_feed_data :
    nextOf (exec (.feedData 0x07) { at_ d .data 0x50 with n := 2, count := 1 }) =
      some { at_ d .checksum 0x57 with n := 2, count := 2, buf := [(1, 0x07)], resp := .result .incomplete } := by decide

/-- R92: a byte that is not the last leaves the state at Data; a stale cell is overwritten. -/
theorem test_feed_data_more :
    nextOf (exec (.feedData 0x02) { at_ d .data 0 with n := 2, buf := [(0, 9), (1, 8)] }) =
      some { at_ d .data 2 with n := 2, count := 1, buf := [(0, 2), (1, 8)], resp := .result .incomplete } := by decide

/-- The payload of W1b. -/
def w1b : List Byte := [0, 0, 0, 1, 11, 0x00, 0x01, 0x86, 0xA0, 0x00, 0x00, 0x08, 0x98, 0x0B, 0x01, 0x00]

/-- W1b at its checksum byte. -/
theorem test_feed_checksum_match :
    (nextOf (exec (.feedChecksumMatch 0x2F) { holding d 0x40 w1b with acc := 0x2F })).map
        (fun t => (t.st, t.rxCk, t.lastResult, t.bitset, t.oreg)) =
      some (.endOfFrame, 0x2F, .frameOk, 2, { Oreg.unwritten with
        time := ⟨some 0x000186A0, some 0x00000898, some 0x0B, some 0x01, some 0x00⟩ }) := by decide

/-- As in VD7: under Abort the Time item is applied, then the block halts at kind 0xC8; the DOP item has no effect. -/
theorem test_feed_checksum_match_abort :
    (nextOf (exec (.feedChecksumMatch 0x77)
        { holding strict 0x40 [0, 0, 0, 1, 1, 9, 0xC8, 0, 9, 8, 0, 0, 0, 0, 1, 2, 3, 4] with acc := 0x77 })).map
        (fun t => (t.st, t.haltCause, t.lastResult, t.bitset, t.oreg.dop.hdop)) =
      some (.halted, .unknownKind, .fault, 2, none) := by decide

/-- R94, example. -/
theorem test_feed_checksum_mismatch :
    nextOf (exec (.feedChecksumMismatch 0x41) { at_ d .checksum 0x40 with bitset := 2 }) =
      some { at_ d .endOfFrame 0x40 with
        bitset := 2, rxCk := 0x41, lastResult := .frameBad, resp := .result .frameBad } := by decide

/-- R95, corner case: 0x02 is still the end marker. -/
theorem test_feed_end_of_frame :
    nextOf (exec (.feedEndOfFrame 0x02) (at_ d .endOfFrame 0x40)) =
      some { at_ d .awaitStart 0x40 with etx := 0x02, resp := .result .incomplete } := by decide

/-- R96, example. -/
theorem test_feed_halted :
    nextOf (exec (.feedHalted 0x02) { at_ d .halted 7 with haltCause := .unknownKind }) =
      some { at_ d .halted 7 with haltCause := .unknownKind, lastResult := .fault, resp := .result .fault } := by decide

/-- R85: only the row of the state runs; R61: no FEED inside a FEED. -/
theorem test_feed_row_not_selected :
    refusalOf (exec (.feedData 0) (at_ d .status 0)) = some .rowNotSelected ∧
    refusalOf (exec (.feedStatus 0) { at_ d .status 0 with disp := .entry }) = some .overlap := by decide

/-! ### DISPATCH (examples of 41_dispatch.md) -/

/-- R102, example: bitset {1, 8} is cleared. -/
theorem test_dispatch_other :
    (nextOf (exec (.dispatchOther 0x41) { at_ d .checksum 0 with ptype := 0x41, bitset := 0x102, disp := .entry })).map
        (fun t => (t.bitset, t.disp)) = some (0, .done false false) := by decide

/-- R104. -/
theorem test_dispatch_aggregate :
    (nextOf (exec .dispatchAggregate { at_ d .checksum 0 with ptype := 0x40, bitset := 0x102, disp := .entry })).map
        (fun t => (t.bitset, t.disp)) = some (0, .walk 3 false) := by decide

/-- R118, example. -/
theorem test_item_time :
    (nextOf (exec (.itemTime 11) (walkAt d 1 11 (w1b.drop 5)))).map (fun t => (t.oreg.time, t.bitset, t.disp)) =
      some (⟨some 100000, some 2200, some 11, some 1, some 0⟩, 2, .walk 16 true) := by decide

/-- R118, corner case: L = 8 writes `tow_ms` and `week` only. -/
theorem test_item_time_short :
    (nextOf (exec (.itemTime 8) (walkAt d 1 8 (w1b.drop 5)))).map (·.oreg.time) =
      some ⟨some 100000, some 2200, none, none, none⟩ := by decide

/-- The value of the Position example: F64(0.5) F64(-1.25) F64(100.0). -/
def posValue : List Byte :=
  [0x3F, 0xE0, 0, 0, 0, 0, 0, 0, 0xBF, 0xF4, 0, 0, 0, 0, 0, 0, 0x40, 0x59, 0, 0, 0, 0, 0, 0]

/-- R119, example. -/
theorem test_item_position :
    (nextOf (exec (.itemPosition 24) (walkAt d 2 24 posValue))).map (·.oreg.pos) =
      some ⟨some 0x3FE0000000000000, some 0xBFF4000000000000, some 0x4059000000000000⟩ := by decide

/-- R115, VD8: an item that runs past the payload end writes the fields that lie wholly inside. -/
theorem test_item_position_cut :
    (nextOf (exec (.itemPosition 24) (walkAt d 2 24 (posValue.take 10)))).map (fun t => (t.oreg.pos, t.disp)) =
      some (⟨some 0x3FE0000000000000, none, none⟩, .walk 29 true) := by decide

/-- A Velocity value: flags, F32(2.5), F32(90.0), F32(-0.5). -/
def velValue (flags : Byte) : List Byte := [flags, 0x40, 0x20, 0, 0, 0x42, 0xB4, 0, 0, 0xBF, 0, 0, 0]

/-- R120, example with flags 01: heading is untouched. -/
theorem test_item_velocity :
    (nextOf (exec (.itemVelocity 13) (walkAt d 8 13 (velValue 0x01)))).map (·.oreg.vel) =
      some ⟨some 0x40200000, some 0xBF000000, none⟩ := by decide

/-- R120 with flags 04, and VE9: flags FA write nothing. -/
theorem test_item_velocity_gates :
    (nextOf (exec (.itemVelocity 13) (walkAt d 8 13 (velValue 0x04)))).map (·.oreg.vel) =
      some ⟨none, none, some 0x42B40000⟩ ∧
    (nextOf (exec (.itemVelocity 13) (walkAt d 8 13 (velValue 0xFA)))).map (·.oreg.vel) =
      some ⟨none, none, none⟩ := by decide

/-- R121, example: F32(1.5) F32(0.75). -/
theorem test_item_dop :
    (nextOf (exec (.itemDop 8) (walkAt d 9 8 [0x3F, 0xC0, 0, 0, 0x3F, 0x40, 0, 0]))).map (·.oreg.dop) =
      some ⟨some 0x3F400000⟩ := by decide

/-- A Position-Sigma value. -/
def sigValue : List Byte :=
  [0x3D, 0xCC, 0xCC, 0xCD, 0x3E, 0x80, 0, 0, 0x3F, 0, 0, 0, 0, 0, 0, 0, 0x3F, 0x80, 0, 0]

/-- R122, example; L = 19 writes east and north only. -/
theorem test_item_sigma :
    (nextOf (exec (.itemSigma 20) (walkAt d 12 20 sigValue))).map (·.oreg.sig) =
      some ⟨some 0x3E800000, some 0x3F000000, some 0x3F800000⟩ ∧
    (nextOf (exec (.itemSigma 19) (walkAt d 12 19 sigValue))).map (·.oreg.sig) =
      some ⟨some 0x3E800000, some 0x3F000000, none⟩ := by decide

/-- The value of the INS example (R123). -/
def insValue : List Byte :=
  [0x08, 0x98, 0x00, 0x01, 0xE2, 0x40, 3, 4, 0x3F, 0xE0, 0, 0, 0, 0, 0, 0, 0xBF, 0xF4, 0, 0, 0, 0, 0, 0] ++
  [0x40, 0x6F, 0x40, 0, 0, 0, 0, 0, 0x3F, 0x80, 0, 0, 0xC0, 0, 0, 0, 0x3F, 0, 0, 0, 0x40, 0x10, 0, 0] ++
  [0x3F, 0xB9, 0x99, 0x99, 0x99, 0x99, 0x99, 0x9A, 0xBF, 0xC9, 0x99, 0x99, 0x99, 0x99, 0x99, 0x9A] ++
  [0x40, 0x08, 0, 0, 0, 0, 0, 0, 0x40, 0x04, 0, 0, 0, 0, 0, 0]

/-- R123, example. -/
theorem test_item_ins :
    (nextOf (exec (.itemIns 80) (walkAt d 49 80 insValue))).map (·.oreg.ins) =
      some ⟨some 0x0898, some 0x0001E240, some 3, some 4, some 0x3FE0000000000000, some 0xBFF4000000000000,
        some 0x406F400000000000, some 0x3F800000, some 0xC0000000, some 0x3F000000, some 0x40100000,
        some 0x3FB999999999999A, some 0xBFC999999999999A, some 0x4008000000000000, some 0x4004000000000000⟩ := by decide

/-- R124, example; L = 7 does not write `fix`. -/
theorem test_item_insrms :
    (nextOf (exec (.itemInsrms 8) (walkAt d 50 8 (insValue.take 8)))).map (·.oreg.rms) =
      some ⟨some 0x0898, some 0x0001E240, some 3, some 4⟩ ∧
    (nextOf (exec (.itemInsrms 7) (walkAt d 50 7 (insValue.take 7)))).map (·.oreg.rms) =
      some ⟨some 0x0898, some 0x0001E240, some 3, none⟩ := by decide

/-- The value of the MSL example (R125). -/
def mslValue : List Byte :=
  [0x3F, 0xE9, 0x21, 0xFB, 0x54, 0x44, 0x2D, 0x18, 0xBF, 0xF9, 0x21, 0xFB, 0x54, 0x44, 0x2D, 0x18] ++
  [0x40, 0x45, 0x40, 0, 0, 0, 0, 0]

/-- R125, example: 45 and −90 degrees. -/
theorem test_item_msl :
    (nextOf (exec (.itemMsl 24) (walkAt d 70 24 mslValue))).map (·.oreg.msl) =
      some ⟨some 0x4046800000000000, some 0xC056800000000000, some 0x4045400000000000⟩ := by decide +kernel

/-- R7, R125: an instance with a RAD2DEG of its own stores that function's results. -/
theorem test_item_msl_own_function :
    (nextOf (exec (.itemMsl 16)
      (walkAt { d with rad2deg := { nanChoice := 0, table := [(0x3FE921FB54442D18, 7), (0xBFF921FB54442D18, 9)] } }
        70 16 (mslValue.take 16)))).map (·.oreg.msl) = some ⟨some 7, some 9, none⟩ := by decide

/-- R107, example. -/
theorem test_item_in_range_undecoded :
    (nextOf (exec (.itemInRangeUndecoded 3 2) (walkAt d 3 2 [0, 0]))).map (fun t => (t.bitset, t.oreg, t.disp)) =
      some (8, Oreg.unwritten, .walk 7 true) := by decide

/-- R108, example. -/
theorem test_item_out_of_range_skip :
    (nextOf (exec (.itemOutOfRangeSkip 0xC8 2) (walkAt d 0xC8 2 [0xAA, 0xBB]))).map (fun t => (t.bitset, t.disp)) =
      some (0, .walk 7 true) := by decide

/-- R109. -/
theorem test_item_out_of_range_abort :
    (nextOf (exec (.itemOutOfRangeAbort 0xC8 2) (walkAt strict 0xC8 2 [0xAA, 0xBB]))).map (fun t => (t.bitset, t.disp)) =
      some (0, .done false true) := by decide

/-- A cell that this frame has not written cannot be read, though an earlier frame wrote it (R13, R27). -/
theorem test_stale_cell_faults :
    faultOf (exec (.itemDop 8) { walkAt d 9 8 [1, 2, 3, 4, 5, 6, 7, 8] with count := 10 }) = some (.unwrittenCell 10) := by
  decide

/-! ### The host operations -/

/-- VH1, VH7: STATUS after W1b's checksum byte, and CONFIG, KINDS0 and KINDS1 (R135). -/
theorem test_read_words :
    (nextOf (exec (.read .w32 0x000) { at_ d .endOfFrame 0 with lastResult := .frameOk })).map (·.resp) =
      some (.word 0x00000016) ∧
    (nextOf (exec (.read .w32 0x004) State.reset)).map (·.resp) = some (.word 0xFF464000) ∧
    (nextOf (exec (.read .w32 0x004) (at_ strict .data 0))).map (·.resp) = some (.word 0xFF464003) ∧
    (nextOf (exec (.read .w32 0x030) State.reset)).map (·.resp) = some (.word 0x09080201) ∧
    (nextOf (exec (.read .w32 0x034) State.reset)).map (·.resp) = some (.word 0x4632310C) := by decide

/-- VH4, VH2: UnwrittenRead of a word with an unwritten field (the word that goes with it is free), and the refusals of
R132. -/
theorem test_read_unwritten :
    (nextOf (exec (.read .w32 0x048) { State.reset with
      oreg := { Oreg.unwritten with time := ⟨some 1, some 2, some 0x0B, none, none⟩ } })).map
        (fun t => unwrittenAt t.resp) = some (some 0x048) ∧
    refusalOf (exec (.read .w32 0x041) State.reset) = some .misalignedRead ∧
    refusalOf (exec (.read .w16 0x040) State.reset) = some .misalignedRead := by decide

/-- VH3. -/
theorem test_write :
    nextOf (exec (.write 0x040 0xFFFFFFFF) (at_ d .data 5)) = some (at_ d .data 5) := by decide

/-- VR1: RESET out of Halted; the parameters stay. -/
theorem test_reset :
    nextOf (exec .reset { at_ (small .abort) .halted 0x60 with ptype := 0x40, haltCause := .lengthOverflow, bitset := 2 }) =
      some { State.reset with params := small .abort, resetChoice := 1 } := by decide

/-- VR1, VH6: STATUS and FRAME0 of a halted block, and the place of bit 70. -/
theorem test_read_more_words :
    (nextOf (exec (.read .w32 0x000)
      { at_ d .halted 0x60 with lastResult := .fault, haltCause := .lengthOverflow })).map (·.resp) =
      some (.word 0x00000237) ∧
    (nextOf (exec (.read .w32 0x008) { State.reset with ptype := 0x40 })).map (·.resp) = some (.word 0x00004000) ∧
    (nextOf (exec (.read .w32 0x018) { State.reset with bitset := 1#256 <<< 70 })).map (·.resp) =
      some (.word 0x00000040) := by decide

/-! ### RAD2DEG (examples of R126) -/

theorem test_rad2deg :
    rad2deg d.rad2deg 0x3FE0000000000000 = 0x403CA5DC1A63C1F8 ∧ rad2deg d.rad2deg 0x400921FB54442D18 = 0x4066800000000000 ∧
    rad2deg d.rad2deg 0xC000C152382D7365 = 0xC05DFFFFFFFFFFFF := by decide

theorem test_rad2deg_edges :
    rad2deg d.rad2deg 0x0000000000000001 = 0x0000000000000039 ∧ rad2deg d.rad2deg 0x7FE1CCF385EBC8A0 = 0x7FF0000000000000 ∧
    rad2deg d.rad2deg 0 = 0 ∧ rad2deg d.rad2deg 0x8000000000000000 = 0x8000000000000000 ∧
    rad2deg d.rad2deg 0xFFF0000000000000 = 0xFFF0000000000000 := by decide

/-! ### Witnesses: the hypotheses of each obligation can be met -/

/-- EveryInstructionDecodesBack, BytesDecodeAndLeaveTheRest: one row of each format, and the edges of their ranges. -/
theorem witness_well_formed_rows :
    d.wf = true ∧ Instr.wf ⟨d, .awaitStart, 0⟩ .feedAwaitStartStx = true ∧
    Instr.wf ⟨d, .awaitStart, 0⟩ (.feedAwaitStartOther 0) = true ∧ Instr.wf ⟨d, .status, 0⟩ (.feedStatus 2) = true ∧
    Instr.wf ⟨d, .packetType, 0⟩ (.feedPacketType 2) = true ∧ Instr.wf ⟨d, .data, 0⟩ (.feedData 2) = true ∧
    Instr.wf ⟨d, .checksum, 5⟩ (.feedChecksumMatch 5) = true ∧ Instr.wf ⟨d, .checksum, 5⟩ (.feedChecksumMismatch 6) = true ∧
    Instr.wf ⟨d, .endOfFrame, 0⟩ (.feedEndOfFrame 2) = true ∧ Instr.wf ⟨d, .halted, 0⟩ (.feedHalted 2) = true ∧
    Instr.wf ⟨d, .data, 0⟩ .dispatchAggregate = true ∧ Instr.wf ⟨d, .data, 0⟩ (.dispatchOther 0x41) = true ∧
    Instr.wf ⟨d, .data, 0⟩ (.itemMsl 255) = true ∧ Instr.format (.itemMsl 255) ≠ .hostOp ∧
    Instr.wf ⟨d, .data, 0⟩ .reset = true := by decide

/-- The same for the rows with a range: the Length rows at CAP and CAP + 1, the kinds at 0, MAX_KIND − 1 and
MAX_KIND + 1. -/
theorem witness_well_formed_ranges :
    (small .failClosed).wf = true ∧ Instr.wf ⟨small .failClosed, .length, 0⟩ (.feedLengthOk 16) = true ∧
    Instr.wf ⟨small .failClosed, .length, 0⟩ (.feedLengthOverflowFailclosed 17) = true ∧
    Instr.wf ⟨small .abort, .length, 0⟩ (.feedLengthOverflowAbort 17) = true ∧
    Instr.wf ⟨d, .data, 0⟩ (.itemInRangeUndecoded 0 0) = true ∧ Instr.wf ⟨d, .data, 0⟩ (.itemInRangeUndecoded 69 0) = true ∧
    Instr.wf ⟨d, .data, 0⟩ (.itemOutOfRangeSkip 71 0) = true ∧
    Instr.wf ⟨strict, .data, 0⟩ (.itemOutOfRangeAbort 71 0) = true := by decide

theorem witness_StepRunsTheDecodedTransaction :
    d.wf = true ∧ State.reset.disp = .idle ∧ State.reset.input = [] ∧
    ∃ s : State, s.params.wf = true ∧ s.disp = .idle ∧ s.input = [.feed 2, .reset] :=
  ⟨by decide, rfl, rfl, { State.reset with input := [.feed 2, .reset] }, by decide, rfl, rfl⟩

theorem witness_StepInsideAFeedRunsItsRows :
    (∃ s : State, s.params.wf = true ∧ s.disp = .entry) ∧
    (∃ s : State, s.params.wf = true ∧ s.disp = .walk 3 false ∧ s.itemAt 3 = .ok (some (9, 0))) ∧
    (∃ s : State, s.params.wf = true ∧ s.disp = .walk 3 true ∧ ¬ 3 + 1 < s.n.toNat) ∧
    (∃ s : State, s.params.wf = true ∧ s.disp = .done true false) ∧
    (∃ s : State, s.params.wf = true ∧ s.disp = .done true true) :=
  ⟨⟨{ State.reset with disp := .entry }, by decide, rfl⟩, ⟨walkAt d 9 0 [], by decide, rfl, rfl⟩,
   ⟨{ State.reset with n := 4, disp := .walk 3 true }, by decide, rfl, by decide⟩,
   ⟨{ State.reset with disp := .done true false }, by decide, rfl⟩,
   ⟨{ State.reset with disp := .done true true }, by decide, rfl⟩⟩

/-- FeedInAwaitStart, FeedInStatusAndPacketType, FeedWrongChecksum, FeedInEndOfFrame, FeedInHalted, and every statement
about a host operation: a state between transactions in each FRAMER state. -/
theorem witness_between_transactions (st : FsmState) :
    (at_ d st 0x40).disp = .idle ∧ (at_ d st 0x40).st = st ∧ (0x41 : Byte) ≠ (at_ d st 0x40).acc ∧ (0 : Byte) ≠ 0x02 ∧
    (at_ d st 0x40).params.wf = true :=
  ⟨rfl, rfl, show (0x41 : Byte) ≠ 0x40 by decide, by decide, show d.wf = true by decide⟩

/-- The Length rows at 0, at CAP and one above it. -/
theorem witness_FeedAdmissibleLength :
    (at_ (small .failClosed) .length 0).disp = .idle ∧ (at_ (small .failClosed) .length 0).st = .length ∧
    (0 : Byte).toNat ≤ (small .failClosed).cap ∧ (16 : Byte).toNat ≤ (small .failClosed).cap := by decide

theorem witness_FeedOverflowingLength :
    (at_ (small .abort) .length 0).disp = .idle ∧ (at_ (small .abort) .length 0).st = .length ∧
    (small .abort).cap < (17 : Byte).toNat ∧ (small .abort).overflow = .abort ∧
    (small .failClosed).cap < (17 : Byte).toNat ∧ (small .failClosed).overflow = .failClosed := by decide

/-- FeedDataByte at the last cell of the buffer. -/
theorem witness_FeedDataByte :
    ∃ s : State, s.disp = .idle ∧ s.st = .data ∧ s.count.toNat < s.n.toNat ∧ s.n.toNat ≤ s.params.cap ∧
      s.count.toNat + 1 = s.params.cap ∧ s.buf.wf s.params.cap :=
  ⟨{ at_ d .data 0 with n := 255, count := 254 }, rfl, rfl, by decide, by decide, by decide, by decide⟩

theorem witness_MatchOfANonAggregateFrame :
    ∃ s : State, s.disp = .idle ∧ s.st = .checksum ∧ s.ptype ≠ s.params.aggType :=
  ⟨holding d 0x41 [], rfl, rfl, by decide⟩

/-- MatchDecodesThePayload: a frame without items, one with an item, and one that halts. -/
theorem witness_MatchDecodesThePayload :
    HoldsPayload (holding d 0x40 []) [] ∧ HoldsPayload (holding d 0x40 w1b) w1b ∧
    HoldsPayload (holding strict 0x40 [0, 0, 0, 71, 0]) [0, 0, 0, 71, 0] ∧
    (∀ payload, (holding d 0x40 payload).disp = .idle ∧ (holding d 0x40 payload).st = .checksum ∧
      (holding d 0x40 payload).ptype = d.aggType) ∧
    (holding strict 0x40 [0, 0, 0, 71, 0]).ptype = strict.aggType ∧
    payloadItems [] = [] ∧ payloadItems w1b = [(1, w1b.drop 5)] ∧
    abortsOn strict (payloadItems [0, 0, 0, 71, 0]) = true := by
  refine ⟨⟨rfl, rfl, by decide, by decide⟩, ⟨rfl, rfl, by decide, by decide⟩, ⟨rfl, rfl, by decide, by decide⟩,
    fun _ => ⟨rfl, rfl, rfl⟩, rfl, rfl, rfl, rfl⟩

theorem witness_DispatchRowsClearTheBitset :
    (∃ s : State, s.disp = .entry ∧ s.ptype = s.params.aggType) ∧
    (∃ s : State, s.disp = .entry ∧ s.ptype ≠ s.params.aggType) :=
  ⟨⟨{ holding d 0x40 [] with disp := .entry }, rfl, rfl⟩, ⟨{ holding d 0x41 [] with disp := .entry }, rfl, by decide⟩⟩

/-- The eight item statements: an item whose value is its layout's full extent. -/
theorem witness_items_full :
    AtItem (walkAt d 1 11 (w1b.drop 5)) 3 false d.kindTime 11 (w1b.drop 5) ∧
    AtItem (walkAt d 2 24 posValue) 3 false d.kindPosition 24 posValue ∧
    AtItem (walkAt d 8 13 (velValue 5)) 3 false d.kindVelocity 13 (velValue 5) ∧
    AtItem (walkAt d 9 8 (posValue.take 8)) 3 false d.kindDop 8 (posValue.take 8) ∧
    AtItem (walkAt d 12 20 sigValue) 3 false d.kindSigma 20 sigValue ∧
    AtItem (walkAt d 50 8 (insValue.take 8)) 3 false d.kindInsrms 8 (insValue.take 8) ∧
    AtItem (walkAt d 70 24 mslValue) 3 false d.kindMsl 24 mslValue := by
  refine ⟨?_, ?_, ?_, ?_, ?_, ?_, ?_⟩ <;>
    exact ⟨rfl, by decide, by decide, by decide, rfl, rfl, by decide, by decide⟩

/-- A Full INS Solution item, cut by the payload's end after its two status bytes. -/
theorem witness_item_ins :
    AtItem (walkAt d 49 80 (insValue.take 8)) 3 false d.kindIns 80 (insValue.take 8) :=
  ⟨rfl, by decide, by decide, by decide, rfl, rfl, by decide, by decide⟩

/-- Velocity items with each gate bit clear, and one without its flags byte. -/
theorem witness_item_velocity_gates :
    AtItem (walkAt d 8 13 (velValue 0x04)) 3 false d.kindVelocity 13 (velValue 0x04) ∧
    AtItem (walkAt d 8 13 (velValue 0x01)) 3 false d.kindVelocity 13 (velValue 0x01) ∧
    AtItem (walkAt d 8 0 []) 3 false d.kindVelocity 0 [] ∧
    (0x04 : Byte).getLsbD 0 = false ∧ (0x04 : Byte).getLsbD 2 = true ∧ (0x01 : Byte).getLsbD 0 = true := by
  refine ⟨?_, ?_, ?_, by decide, by decide, by decide⟩ <;>
    exact ⟨rfl, by decide, by decide, by decide, rfl, rfl, by decide, by decide⟩

/-- UndecodedItemSetsItsBit, OutOfRangeItemIsSkipped, OutOfRangeItemAborts, ItemsAreHandledByTheirKind: kinds 69 and 71. -/
theorem witness_items_without_decoder :
    AtItem (walkAt d 69 255 [7]) 3 false 69 255 [7] ∧ (69 : Byte).toNat ≤ d.maxKind ∧ (69 : Byte) ∉ d.kinds ∧
    AtItem (walkAt d 71 0 []) 3 false 71 0 [] ∧ d.maxKind < (71 : Byte).toNat ∧ d.unknownKind = .skip ∧
    AtItem (walkAt strict 71 0 []) 3 false 71 0 [] ∧ strict.maxKind < (71 : Byte).toNat ∧
    strict.unknownKind = .abort := by
  refine ⟨⟨rfl, by decide, by decide, by decide, rfl, rfl, by decide, by decide⟩, by decide, by decide,
    ⟨rfl, by decide, by decide, by decide, rfl, rfl, by decide, by decide⟩, by decide, rfl,
    ⟨rfl, by decide, by decide, by decide, rfl, rfl, by decide, by decide⟩, by decide, rfl⟩

/-- BigEndianReads: eight cells, and the last cells of a payload for each width. -/
theorem witness_BigEndianReads :
    let s := holding d 0x40 [1, 2, 3, 4, 5, 6, 7, 8]
    (∀ i, (h : i < 8) → i < s.params.cap ∧ i < s.count.toNat ∧ s.buf.cell i = some [1, 2, 3, 4, 5, 6, 7, 8][i]) ∧
    s.be8 7 = .ok 8 ∧ s.be16 6 = .ok 0x0708 ∧ s.be32 4 = .ok 0x05060708 ∧ s.be64 0 = .ok 0x0102030405060708 := by
  refine ⟨by decide, rfl, rfl, rfl, rfl⟩

/-- UnreceivedCellsAreFaults: a cell that an earlier frame wrote, one never written, and one at CAP. -/
theorem witness_UnreceivedCellsAreFaults :
    (∃ s : State, s.disp = .walk 3 false ∧ 3 + 1 < s.n.toNat ∧ ¬ 3 < s.count.toNat ∧ (s.buf.cell 3).isSome = true) ∧
    (∃ s : State, s.disp = .walk 3 false ∧ 3 + 1 < s.n.toNat ∧ 3 < s.count.toNat ∧ 3 < s.params.cap ∧
      (s.buf.cell 3).isSome = true ∧ ¬ 4 < s.count.toNat) ∧
    (∃ s : State, 0 < s.count.toNat ∧ 0 < s.params.cap ∧ (s.buf.cell 0).isSome = false) ∧
    (∃ s : State, 16 < s.count.toNat ∧ ¬ 16 < s.params.cap) :=
  ⟨⟨{ walkAt d 9 0 [] with count := 3 }, rfl, by decide, by decide, by decide⟩,
   ⟨{ walkAt d 9 0 [] with count := 4 }, rfl, by decide, by decide, by decide, by decide, by decide⟩,
   ⟨{ holding d 0x40 [] with count := 1 }, by decide, by decide, by decide⟩,
   ⟨{ holding (small .abort) 0x40 [] with count := 17 }, by decide, by decide⟩⟩

/-- ReadBitsetWords at its last word, and the edges of the reserved words and of the OREG words. -/
theorem witness_read_addresses :
    7 < 8 ∧ (0x128 : HostAddr).toNat % 4 = 0 ∧ 0x128 ≤ (0x128 : HostAddr).toNat ∧ 0x128 ≤ (0x1FC : HostAddr).toNat ∧
    (0x1FC : HostAddr).toNat % 4 = 0 ∧ (0x03C : HostAddr).toNat % 4 = 0 ∧ (0x1FF : HostAddr).toNat % 4 ≠ 0 ∧
    ReadWidth.w16 ≠ .w32 := by decide

/-- ReadOregWords: a register file with every field written, and one with none. -/
theorem witness_ReadOregWords :
    ∃ s : State, s.disp = .idle ∧ s.oreg.time = ⟨some 1, some 2, some 3, some 4, some 5⟩ ∧
      s.oreg.pos.lat = some 6 ∧ s.oreg.ins.week = some 7 ∧ s.oreg.rms.align = some 8 ∧ s.oreg.rms.fix = none ∧
      s.oreg.msl.alt = none :=
  ⟨{ State.reset with oreg := { Oreg.unwritten with
      time := ⟨some 1, some 2, some 3, some 4, some 5⟩, pos := ⟨some 6, none, none⟩
      ins := { Oreg.unwritten.ins with week := some 7 }, rms := ⟨none, none, some 8, none⟩ } },
    rfl, rfl, rfl, rfl, rfl, rfl, rfl⟩

/-- ReadConfigAndKinds: an instruction that completes inside a FEED, and one that completes between transactions. -/
theorem witness_ReadConfigAndKinds :
    (∃ t : State, exec (.itemDop 0) (walkAt d 9 0 []) = .next t) ∧
    (∃ t : State, exec .reset (at_ strict .halted 0) = .next t) ∧ (at_ strict .halted 0).params.wf = true ∧
    (at_ strict .halted 0).disp = .idle :=
  ⟨⟨_, rfl⟩, ⟨_, rfl⟩, by decide, rfl⟩

theorem witness_OnlyTheDecodedRowRuns :
    (∃ (s : State) (b : Byte) (i : Instr), s.disp = .idle ∧ i.format = .fsmByte ∧
      encode s.params i = .transaction (.feed b) ∧ i ≠ decode s.ctx (.transaction (.feed b))) ∧
    (∃ s : State, s.disp ≠ .idle) :=
  ⟨⟨State.reset, 3, .feedData 3, rfl, rfl, rfl, by decide⟩, ⟨walkAt d 9 0 [], by decide⟩⟩

theorem witness_FeedWritesLastResult :
    ∃ t : State, Instr.format (.feedStatus 3) = .fsmByte ∧ exec (.feedStatus 3) (at_ d .status 0) = .next t :=
  ⟨_, rfl, rfl⟩

theorem witness_RegistersChangeOnlyByTheirRules :
    ∃ t : State, (at_ d .status 0).disp = .idle ∧ Transaction.feed 3 ≠ .reset ∧
      exec (decode (at_ d .status 0).ctx (.transaction (.feed 3))) (at_ d .status 0) = .next t ∧
      t.statusB ≠ (at_ d .status 0).statusB :=
  ⟨_, rfl, by decide, rfl, by decide⟩

theorem witness_OnlyResetLeavesHalted :
    (∃ t : State, exec (.feedHalted 3) (at_ d .halted 0) = .next t) ∧
    (∃ t : State, exec (.read .w32 0) (at_ d .halted 0) = .next t) ∧ (at_ d .halted 0).disp = .idle ∧
    Instr.feedHalted 3 ≠ .reset :=
  ⟨⟨_, rfl⟩, ⟨_, rfl⟩, rfl, by decide⟩

theorem witness_BadParametersHaveNoInstance :
    ¬ { d with kindDop := 1 }.kinds.Nodup ∧ 255 < { d with cap := 256 }.cap ∧ d.cap = 255 ∧
    (Ctx.mk d .length 0).st = .length := by decide

/-- The state of FRAMER with these received bytes has the invariant, where the sum is right. -/
theorem inv_holding {payload : List Byte} (ck : Byte) (hl : payload.length ≤ 255)
    (hm : Memory.wf 255 (Memory.load [] 0 payload))
    (hw : ∀ i < payload.length, (Memory.cell (Memory.load [] 0 payload) i).isSome)
    (hs : ck = 0x40 + BitVec.ofNat 8 payload.length + payloadSum (Memory.load [] 0 payload) payload.length) :
    Inv { holding d 0x40 payload with acc := ck } := by
  have hn : (BitVec.ofNat 8 payload.length).toNat = payload.length := by simp; omega
  refine ⟨show d.wf = true by decide, hm, ⟨Nat.le_refl _, ?_, rfl⟩, ?_, ?_, ?_, ?_, rfl⟩
  · show (BitVec.ofNat 8 payload.length).toNat ≤ 255
    omega
  · intro i hi
    exact hw i (by simpa [holding, hn] using hi)
  · simp only [SumOk, holding, hn, State.reset]
    rw [hs]; simp
  · intro k _; simp [holding, State.reset]
  · simp [holding, State.reset]

/-- ResetStateHasTheInvariant, StepKeepsTheInvariant, StepCompletesUnderTheInvariant: a state with the invariant from
which a step goes on, into DISPATCH. -/
theorem witness_invariant :
    ∃ s t : State, Inv s ∧ s.params.wf = true ∧ step s = .next t ∧ t.lastResult = .frameOk := by
  have h := inv_holding (payload := [0, 0, 0, 9, 0]) 0x4E (by decide) (by decide) (by decide) (by decide)
  exact ⟨{ holding d 0x40 [0, 0, 0, 9, 0] with acc := 0x4E, input := [.feed 0x4E] }, _,
    ⟨h.params, h.memory, h.counts, h.written, h.sum, h.bits, h.halt, rfl⟩, by decide, rfl, rfl⟩

theorem witness_FlippedByteGivesFrameBad :
    ∃ s t : State, Inv s ∧ Inv t ∧ s.st = .checksum ∧ t.st = .checksum ∧ t.statusB = s.statusB ∧ t.ptype = s.ptype ∧
      t.n = s.n ∧ 0 < s.n.toNat ∧ t.buf.cell 0 ≠ s.buf.cell 0 ∧ ∀ j, j ≠ 0 → t.buf.cell j = s.buf.cell j := by
  refine ⟨_, _, inv_holding (payload := [7]) 0x48 (by decide) (by decide) (by decide) (by decide),
    inv_holding (payload := [8]) 0x49 (by decide) (by decide) (by decide) (by decide), rfl, rfl, rfl, rfl, rfl, by decide,
    by decide, fun j hj => ?_⟩
  simp [holding, Memory.load, Memory.set, Memory.cell, hj]

/-- FramerReturnsToAwaitStart: the bytes after an STX, with CAP = 16. -/
theorem witness_FramerReturnsToAwaitStart :
    ∃ s : State, Inv s ∧ s.st ≠ .halted ∧ (∀ tr ∈ s.input, ∃ b, tr = .feed b) ∧ s.params.cap + 5 ≤ s.input.length ∧
      s.st = .status :=
  ⟨{ at_ (small .abort) .status 0 with input := List.replicate 21 (.feed 16) },
    ⟨by decide, by decide, ⟨by decide, by decide, rfl⟩, by decide, rfl, fun k _ => by simp [at_, State.reset],
      by simp [at_, State.reset], rfl⟩,
    by decide, fun tr h => ⟨16, List.eq_of_mem_replicate h⟩, by decide, rfl⟩

/-- FrameFillsTheBuffer: a frame of no byte and one of two. -/
theorem witness_FrameFillsTheBuffer :
    ∃ s t : State, s.params.wf = true ∧ s.disp = .idle ∧ s.st = .awaitStart ∧ t.params.wf = true ∧ t.disp = .idle ∧
      t.st = .awaitStart ∧ ([] : List Byte).length ≤ s.params.cap ∧ ([5, 6] : List Byte).length ≤ t.params.cap ∧
      s.input = ([stx, 1, 2, BitVec.ofNat 8 ([] : List Byte).length] ++ []).map .feed ++ [.reset] ∧
      t.input = ([stx, 1, 2, BitVec.ofNat 8 ([5, 6] : List Byte).length] ++ [5, 6]).map .feed ++ [] :=
  ⟨{ State.reset with input := [.feed 2, .feed 1, .feed 2, .feed 0, .reset] },
    { State.reset with input := [.feed 2, .feed 1, .feed 2, .feed 2, .feed 5, .feed 6] },
    by decide, rfl, rfl, by decide, rfl, rfl, by decide, by decide, rfl, rfl⟩

/-- FrameReportsOnce: an aggregate frame with an item, one without, and a frame of another type. -/
theorem witness_FrameReportsOnce :
    (∀ input, Inv { State.reset with input := input }) ∧ State.reset.st = .awaitStart ∧
    ([0, 0, 0, 9, 0] : List Byte).length ≤ d.cap ∧ abortsOn d (payloadItems [0, 0, 0, 9, 0]) = false ∧
    payloadItems [0, 0, 0, 9, 0] = [(9, [])] ∧ payloadItems [0, 0, 0] = [] ∧ (0x41 : Byte) ≠ d.aggType ∧
    (let payload : List Byte := [0, 0, 0, 9, 0]
     let ck := BitVec.ofNat 8 ((0 : Byte).toNat + (0x40 : Byte).toNat + payload.length + (payload.map BitVec.toNat).sum)
     ([.feed 2, .feed 0, .feed 0x40, .feed 5, .feed 0, .feed 0, .feed 0, .feed 9, .feed 0, .feed 0x4E, .feed 3] :
       List Transaction) = ([stx, 0, 0x40, BitVec.ofNat 8 payload.length] ++ payload ++ [ck, 3]).map .feed ++ []) := by
  refine ⟨fun input => ⟨show d.wf = true by decide, Memory.nil_wf _, ⟨Nat.le_refl _, Nat.zero_le _, trivial⟩,
    fun i hi => absurd hi (Nat.not_lt_zero i), trivial, fun k _ => by simp [State.reset], by simp [State.reset], rfl⟩,
    rfl, by decide, by decide, by decide, by decide, by decide, by decide⟩

/-- DecodingDependsOnlyOnTheFrame, DecodingTwiceIsDecodingOnce, AtomicFeedIsItsRows: a frame with an item; a second
state with the same frame and other registers. -/
theorem witness_decoding :
    (∃ t : State, exec (.feedChecksumMatch 0) (holding d 0x40 [0, 0, 0, 9, 0]) = .next t) ∧
    (holding d 0x40 [0, 0, 0, 9, 0]).acc = 0 ∧ (holding d 0x40 [0, 0, 0, 9, 0]).params.wf = true ∧
    ∃ s' : State, s'.params = d ∧ s'.ptype = 0x40 ∧ s'.n = 5 ∧ s'.count = 5 ∧ s'.disp = .idle ∧ s'.st = .checksum ∧
      s'.bitset ≠ 0 ∧ ∀ i < 5, s'.buf.cell i = (holding d 0x40 [0, 0, 0, 9, 0]).buf.cell i :=
  ⟨⟨_, rfl⟩, rfl, by decide, { holding d 0x40 [0, 0, 0, 9, 0, 7] with n := 5, count := 5, bitset := 2 }, rfl, rfl, rfl,
    rfl, rfl, rfl, by decide, by decide⟩

/-- Rad2degSpecialValues and Rad2degRoundsToNearestEven: both zeros, an infinity, a NaN, the largest and the smallest
finite value; an input that an instance lists and one that it does not. -/
theorem witness_rad2deg :
    BitVec.extractLsb' 0 63 (0x8000000000000000 : F64) = 0 ∧ f64IsInf 0xFFF0000000000000 = true ∧
    f64IsNaN 0x7FF8000000000000 = true ∧ f64IsFinite 0x7FEFFFFFFFFFFFFF = true ∧ f64IsFinite 1 = true ∧
    d.rad2deg.table.lookup 1 = none ∧ List.lookup (1 : F64) [((1 : F64), (7 : F64))] = some 7 := by decide

end Sys2Proof.Tests
end

section
/-!
SUPPORT. Decoding the word of a selected row (30_encoding.md R72, R79, R84), and what R8 says of the kinds.
-/

namespace Sys2Proof

/-! ### The kinds -/

/-- MAX_KIND is the largest of the eight kinds (R7). -/
theorem Params.max?_kinds (p : Params) : (p.kinds.map BitVec.toNat).max? = some p.maxKind := by
  simp [Params.kinds, Params.maxKind]

theorem Params.toNat_le_maxKind {p : Params} {k : Byte} (h : k ∈ p.kinds) : k.toNat ≤ p.maxKind :=
  (List.max?_eq_some_iff.1 (Params.max?_kinds p)).2 _ (List.mem_map_of_mem h)

theorem Params.exists_toNat_eq_maxKind (p : Params) : ∃ k ∈ p.kinds, k.toNat = p.maxKind :=
  List.mem_map.1 (List.max?_eq_some_iff.1 (Params.max?_kinds p)).1

theorem Params.wf_iff (p : Params) : p.wf = true ↔ p.kinds.Nodup ∧ p.cap ≤ 255 := by
  simp [Params.wf]

/-! ### The decoder on the word of a selected row -/

theorem decode_encode_feed {cx : Ctx} {i : Instr} (hf : i.format = .fsmByte) (h : i.wf cx = true) :
    decode cx (encode cx.params i) = i := by
  cases i with
  | feedAwaitStartStx | feedStatus b | feedPacketType b | feedData b | feedEndOfFrame b | feedHalted b =>
    have hst := eq_of_beq h
    simp [encode, decode, decodeFeed, hst]
  | feedAwaitStartOther b | feedLengthOk b | feedLengthOverflowFailclosed b | feedLengthOverflowAbort b
  | feedChecksumMatch b | feedChecksumMismatch b =>
    simp only [Instr.wf, Bool.and_eq_true, beq_iff_eq, bne_iff_ne, decide_eq_true_eq] at h
    simp [encode, decode, decodeFeed, h]
  | _ => cases hf

theorem decode_encode_packetType {cx : Ctx} {i : Instr} (hf : i.format = .packetType) (h : i.wf cx = true) :
    decode cx (encode cx.params i) = i := by
  cases i with
  | dispatchAggregate => simp [encode, decode, decodePacketType]
  | dispatchOther t =>
    have ht : t ≠ cx.params.aggType := bne_iff_ne.1 h
    simp [encode, decode, decodePacketType, ht]
  | _ => cases hf

/-- The chain of R112 gives each decoded kind its own row: the kind is in range, and no earlier test of the chain has
its code (R8). -/
theorem decodeItem_kinds {p : Params} (hp : p.wf = true) (l : Byte) :
    p.kinds.map (decodeItem p · l) =
      [.itemTime l, .itemPosition l, .itemVelocity l, .itemDop l, .itemSigma l, .itemIns l, .itemInsrms l,
       .itemMsl l] := by
  have inRange : ∀ k ∈ p.kinds, ¬ p.maxKind < k.toNat := fun k hk => Nat.not_lt.2 (Params.toNat_le_maxKind hk)
  have later_ne_earlier : p.kinds.reverse.Nodup := List.nodup_reverse.2 ((Params.wf_iff p).1 hp).1
  simp only [Params.kinds, List.forall_mem_cons] at inRange
  simp only [Params.kinds, List.reverse_cons, List.reverse_nil, List.nil_append, List.cons_append, List.nodup_cons,
    List.mem_cons, not_or] at later_ne_earlier
  simp [Params.kinds, decodeItem, inRange, later_ne_earlier]

theorem decode_encode_item {cx : Ctx} {i : Instr} (hp : cx.params.wf = true) (hf : i.format = .itemKind)
    (h : i.wf cx = true) : decode cx (encode cx.params i) = i := by
  cases i with
  | itemTime l | itemPosition l | itemVelocity l | itemDop l | itemSigma l | itemIns l | itemInsrms l | itemMsl l =>
    have rows := decodeItem_kinds hp l
    simp only [Params.kinds, List.map_cons, List.cons.injEq] at rows
    simp only [encode, decode, rows]
  | itemInRangeUndecoded k l =>
    simp only [Instr.wf, Params.kinds, Bool.and_eq_true, decide_eq_true_eq, Bool.not_eq_true', List.contains_eq_mem,
      decide_eq_false_iff_not, List.mem_cons, not_or, ← Nat.not_lt] at h
    simp [encode, decode, decodeItem, h]
  | itemOutOfRangeSkip k l | itemOutOfRangeAbort k l =>
    simp only [Instr.wf, Bool.and_eq_true, decide_eq_true_eq, beq_iff_eq] at h
    simp [encode, decode, decodeItem, h]
  | _ => cases hf

theorem decode_encode_hostOp (cx : Ctx) {i : Instr} (hf : i.format = .hostOp) :
    decode cx (encode cx.params i) = i := by
  cases i with
  | read w a | write a w | reset => rfl
  | _ => cases hf

theorem decode_encode {cx : Ctx} {i : Instr} (hp : cx.params.wf = true) (h : i.wf cx = true) :
    decode cx (encode cx.params i) = i := by
  cases hf : i.format with
  | fsmByte => exact decode_encode_feed hf h
  | packetType => exact decode_encode_packetType hf h
  | itemKind => exact decode_encode_item hp hf h
  | hostOp => exact decode_encode_hostOp cx hf

/-- Settles O1: format by format, the row's condition in the table decides every test of the decoder. -/
theorem everyInstructionDecodesBack : Obligations.EveryInstructionDecodesBack := by
  intro cx i hp h
  exact decode_encode hp h

/-- Settles O47: MAX_KIND is the maximum of the list of kinds, and a byte is at most 255. -/
theorem badParametersHaveNoInstance : Obligations.BadParametersHaveNoInstance := by
  refine ⟨fun s hbad => ?_, fun p => ⟨p.exists_toNat_eq_maxKind, fun k hk => Params.toNat_le_maxKind hk⟩,
    fun cx b hcap hst => ?_⟩
  · have hw : ¬ s.params.wf = true := by
      rw [Params.wf_iff]
      rintro ⟨hnodup, hcap⟩
      exact hbad.elim (fun h => h hnodup) (fun h => by omega)
    exact if_neg hw
  · have hb : b.toNat ≤ cx.params.cap := hcap ▸ Nat.le_of_lt_succ b.isLt
    simp [decode, decodeFeed, hst, hb]

end Sys2Proof
end

section
/-!
SUPPORT. Every step keeps the invariant (10_state.md R23, R24, R26, R28; R57, R58, R144): one lemma for
each row that a step between transactions can run.
-/

namespace Sys2Proof.Machine

/-! ### The bitset under DISPATCH -/

theorem getLsbD_bitOf (k : Byte) (i : Nat) : (bitOf k).getLsbD i = decide (i = k.toNat) := by
  have hk : k.toNat < 256 := k.isLt
  simp only [bitOf, BitVec.getLsbD_shiftLeft, BitVec.getLsbD_one]
  grind

/-- No bit above MAX_KIND is set (R28). -/
def BitsInRange (s : State) : Prop := ∀ k, s.params.maxKind < k → s.bitset.getLsbD k = false

theorem handleItem_bitsInRange {s t : State} {k l : Byte} (hs : BitsInRange s) (h : handleItem k l s = .next t) :
    BitsInRange t := by
  obtain ⟨c, any, -, -, ⟨-, -, rfl⟩ | ⟨-, -, rfl⟩ | ⟨hk, d, rfl⟩⟩ := handleItem_next h
  · exact hs
  · exact hs
  · intro i hi
    have hne : i ≠ k.toNat := by
      have : s.params.maxKind < i := hi
      omega
    simp [hs i hi, getLsbD_bitOf, hne]

theorem walkItems_bitsInRange {fuel : Nat} {s t : State} (hs : BitsInRange s) (h : walkItems fuel s = .next t) :
    BitsInRange t := by
  induction fuel generalizing s with
  | zero => cases h; exact hs
  | succ fuel ih =>
    unfold walkItems at h
    split at h
    · split at h
      · obtain ⟨s', h1, h2⟩ := andThen_eq_next h
        exact ih (handleItem_bitsInRange hs h1) h2
      · cases h; exact hs
      · cases h
    all_goals (cases h; exact hs)

theorem dispatch_bitsInRange {s t : State} (h : dispatch s = .next t) : BitsInRange t := by
  unfold dispatch at h
  rw [dispatchType_entry rfl, andThen_next] at h
  exact walkItems_bitsInRange (fun k _ => BitVec.getLsbD_zero) h

/-! ### The payload sum under a write -/

theorem payloadSum_congr {m m' : Memory} {k : Nat} (h : ∀ i < k, m.cell i = m'.cell i) :
    payloadSum m k = payloadSum m' k := by
  induction k with
  | zero => rfl
  | succ k ih => rw [payloadSum, payloadSum, ih fun i hi => h i (by omega), h k (by omega)]

/-- A byte written behind the payload so far is added to its sum. -/
theorem payloadSum_set_succ (m : Memory) (k : Nat) (b : Byte) :
    payloadSum (m.set k b) (k + 1) = payloadSum m k + b := by
  rw [payloadSum, payloadSum_congr fun i hi => m.cell_set_ne b (Nat.ne_of_lt hi), Memory.cell_set_same]
  rfl

/-! ### The parts of the invariant -/

/-- Halted goes with a cause and with the result Fault (R144). -/
def HaltOk (s : State) : Prop := (s.st = .halted ↔ s.haltCause ≠ .none) ∧ (s.st = .halted → s.lastResult = .fault)

/-- The parts of the state that only a reset, a DISPATCH or a data byte changes. -/
structure KeepsStore (s t : State) : Prop where
  params : t.params = s.params
  buf : t.buf = s.buf
  bitset : t.bitset = s.bitset
  disp : t.disp = s.disp

/-- An operation on the frame registers alone owes only the parts of the invariant that speak of them. -/
theorem Inv.of_keepsStore {s t : State} (h : Inv s) (k : KeepsStore s t) (hc : t.count.toNat ≤ s.count.toNat)
    (counts : CountOk t) (sum : SumOk t) (halt : HaltOk t) : Inv t where
  params := by rw [k.params]; exact h.params
  memory := by rw [k.params, k.buf]; exact h.memory
  counts := counts
  written i hi := by rw [k.buf]; exact h.written i (by omega)
  sum := sum
  bits := by rw [k.params, k.bitset]; exact h.bits
  halt := halt
  idle := k.disp.trans h.idle

theorem Inv.haltOk_running {s t : State} (h : Inv s) (hs : s.st ≠ .halted) (hc : t.haltCause = s.haltCause)
    (ht : t.st ≠ .halted) : HaltOk t := by
  have hnone : s.haltCause = .none := by_contra fun hne => hs (h.halt.1.2 hne)
  simp [HaltOk, ht, hc, hnone]

theorem haltOk_halted {t : State} (ht : t.st = .halted) (hc : t.haltCause ≠ .none) (hr : t.lastResult = .fault) :
    HaltOk t := by
  simp [HaltOk, ht, hc, hr]

/-- Data and Checksum are told apart by whether the payload is complete (R23). -/
def InPayload (s : State) : Prop := s.st = if s.count.toNat = s.n.toNat then .checksum else .data

theorem InPayload.cases {s : State} (h : InPayload s) :
    s.st = .checksum ∧ s.count.toNat = s.n.toNat ∨ s.st = .data ∧ s.count.toNat ≠ s.n.toNat := by
  unfold InPayload at h
  split_ifs at h with he
  · exact .inl ⟨h, he⟩
  · exact .inr ⟨h, he⟩

theorem InPayload.ne_halted {s : State} (h : InPayload s) : s.st ≠ .halted := by
  rcases h.cases with ⟨hst, -⟩ | ⟨hst, -⟩ <;> simp [hst]

theorem InPayload.countOk {s : State} (h : InPayload s) (hle : s.count.toNat ≤ s.n.toNat)
    (hcap : s.n.toNat ≤ s.params.cap) : CountOk s := by
  refine ⟨hle, hcap, ?_⟩
  rcases h.cases with ⟨hst, he⟩ | ⟨hst, he⟩ <;> rw [hst]
  · exact BitVec.eq_of_toNat_eq he
  · exact Nat.lt_of_le_of_ne hle he

theorem InPayload.sumOk {s : State} (h : InPayload s)
    (hsum : s.acc = s.statusB + s.ptype + s.n + payloadSum s.buf s.count.toNat) : SumOk s := by
  rcases h.cases with ⟨hst, -⟩ | ⟨hst, -⟩ <;> simpa [SumOk, hst] using hsum

/-! ### The FEED rows keep the invariant -/

section FeedRows

variable {s t : State} {b : Byte}

theorem feedRow_inv {sel : Bool} {u : State} (hx : feedRow s sel (.next u) = .next t) (hu : sel = true → Inv u) :
    Inv t := by
  obtain ⟨-, hs, ht⟩ := feedRow_next hx
  cases ht
  exact hu hs

theorem execFeedAwaitStartStx_inv (h : Inv s) (hx : execFeedAwaitStartStx s = .next t) : Inv t := by
  refine feedRow_inv hx fun hs => ?_
  have hst := eq_of_beq hs
  obtain ⟨-, hcap, -⟩ := h.counts
  exact h.of_keepsStore ⟨rfl, rfl, rfl, rfl⟩ (Nat.zero_le _) ⟨Nat.zero_le _, hcap, rfl⟩ rfl
    (h.haltOk_running (by simp [hst]) rfl (by simp))

theorem execFeedAwaitStartOther_inv (h : Inv s) (hx : execFeedAwaitStartOther b s = .next t) : Inv t := by
  refine feedRow_inv hx fun hs => ?_
  have hst := eq_of_beq (Bool.and_eq_true_iff.1 hs).1
  exact h.of_keepsStore ⟨rfl, rfl, rfl, rfl⟩ le_rfl h.counts h.sum
    (h.haltOk_running (by simp [hst]) rfl (by simp [hst]))

theorem execFeedStatus_inv (h : Inv s) (hx : execFeedStatus b s = .next t) : Inv t := by
  refine feedRow_inv hx fun hs => ?_
  have hst := eq_of_beq hs
  obtain ⟨hle, hcap, hcount⟩ := h.counts
  have hsum := h.sum
  simp only [SumOk, hst] at hcount hsum
  exact h.of_keepsStore ⟨rfl, rfl, rfl, rfl⟩ le_rfl ⟨hle, hcap, hcount⟩ (by simp [SumOk, hsum])
    (h.haltOk_running (by simp [hst]) rfl (by simp))

theorem execFeedPacketType_inv (h : Inv s) (hx : execFeedPacketType b s = .next t) : Inv t := by
  refine feedRow_inv hx fun hs => ?_
  have hst := eq_of_beq hs
  obtain ⟨hle, hcap, hcount⟩ := h.counts
  have hsum := h.sum
  simp only [SumOk, hst] at hcount hsum
  exact h.of_keepsStore ⟨rfl, rfl, rfl, rfl⟩ le_rfl ⟨hle, hcap, hcount⟩ (by simp [SumOk, hsum])
    (h.haltOk_running (by simp [hst]) rfl (by simp))

/-- An admissible length: no byte has been received, so none is missing exactly where it is 0. -/
theorem execFeedLengthOk_inv (h : Inv s) (hx : execFeedLengthOk b s = .next t) : Inv t := by
  refine feedRow_inv hx fun hs => ?_
  simp only [Bool.and_eq_true, beq_iff_eq, decide_eq_true_eq] at hs
  obtain ⟨hst, hb⟩ := hs
  obtain ⟨-, -, hcount⟩ := h.counts
  have hsum := h.sum
  simp only [SumOk, hst] at hcount hsum
  have next : (if b = 0 then FsmState.checksum else .data) =
      if s.count.toNat = b.toNat then .checksum else .data :=
    if_congr (by rw [hcount, eq_comm, BitVec.toNat_inj]) rfl rfl
  exact h.of_keepsStore ⟨rfl, rfl, rfl, rfl⟩ le_rfl (InPayload.countOk next (by simp [hcount]) hb)
    (InPayload.sumOk next (by simp [hsum, hcount, payloadSum]))
    (h.haltOk_running (by simp [hst]) rfl (InPayload.ne_halted next))

theorem execFeedLengthOverflowFailclosed_inv (h : Inv s) (hx : execFeedLengthOverflowFailclosed b s = .next t) :
    Inv t := by
  refine feedRow_inv hx fun hs => ?_
  simp only [Bool.and_eq_true, beq_iff_eq] at hs
  obtain ⟨hle, hcap, -⟩ := h.counts
  exact h.of_keepsStore ⟨rfl, rfl, rfl, rfl⟩ le_rfl ⟨hle, hcap, trivial⟩ trivial
    (h.haltOk_running (by simp [hs]) rfl (by simp))

theorem execFeedLengthOverflowAbort_inv (h : Inv s) (hx : execFeedLengthOverflowAbort b s = .next t) : Inv t := by
  refine feedRow_inv hx fun _ => ?_
  obtain ⟨hle, hcap, -⟩ := h.counts
  exact h.of_keepsStore ⟨rfl, rfl, rfl, rfl⟩ le_rfl ⟨hle, hcap, trivial⟩ trivial
    (haltOk_halted rfl (by simp [State.raiseHalt]) rfl)

/-- The byte goes to the cell at `count`, which lies inside the buffer, and both `acc` and the payload sum take it. -/
theorem execFeedData_inv (h : Inv s) (hx : execFeedData b s = .next t) : Inv t := by
  obtain ⟨-, hs, ht⟩ := feedRow_next hx
  have hst := eq_of_beq hs
  obtain ⟨-, hcap, hlt⟩ := h.counts
  have hsum := h.sum
  simp only [SumOk, hst] at hlt hsum
  have hin : s.count.toNat < s.params.cap := by omega
  have hnext : (BitVec.ofNat 8 (s.count.toNat + 1)).toNat = s.count.toNat + 1 :=
    Nat.mod_eq_of_lt (by have := s.n.isLt; omega)
  obtain ⟨-, hw⟩ | ⟨hout, -⟩ := s.bufWrite_cases s.count.toNat b
  case inr => exact absurd hin hout
  rw [hw] at ht
  have next : (if s.count.toNat + 1 = s.n.toNat then FsmState.checksum else .data) =
      if (BitVec.ofNat 8 (s.count.toNat + 1)).toNat = s.n.toNat then .checksum else .data := by
    rw [hnext]
  cases ht
  constructor
  case params => exact h.params
  case memory => exact Memory.set_wf b h.memory hin
  case bits => exact h.bits
  case idle => exact h.idle
  case halt => exact h.haltOk_running (by simp [hst]) rfl (InPayload.ne_halted next)
  case counts => exact InPayload.countOk next (by simp [hnext]; omega) hcap
  case sum => exact InPayload.sumOk next (by simp [hnext, payloadSum_set_succ, hsum, BitVec.add_assoc])
  case written =>
    intro i hi
    have hi : i < s.count.toNat + 1 := hnext ▸ hi
    show (Memory.cell (s.buf.set s.count.toNat b) i).isSome
    rw [Memory.cell_set]
    split_ifs with he
    · rfl
    · exact h.written i (by omega)

theorem execFeedChecksumMismatch_inv (h : Inv s) (hx : execFeedChecksumMismatch b s = .next t) : Inv t := by
  refine feedRow_inv hx fun hs => ?_
  simp only [Bool.and_eq_true, beq_iff_eq] at hs
  obtain ⟨hle, hcap, -⟩ := h.counts
  exact h.of_keepsStore ⟨rfl, rfl, rfl, rfl⟩ le_rfl ⟨hle, hcap, trivial⟩ trivial
    (h.haltOk_running (by simp [hs]) rfl (by simp))

theorem execFeedEndOfFrame_inv (h : Inv s) (hx : execFeedEndOfFrame b s = .next t) : Inv t := by
  refine feedRow_inv hx fun hs => ?_
  have hst := eq_of_beq hs
  obtain ⟨hle, hcap, -⟩ := h.counts
  exact h.of_keepsStore ⟨rfl, rfl, rfl, rfl⟩ le_rfl ⟨hle, hcap, trivial⟩ trivial
    (h.haltOk_running (by simp [hst]) rfl (by simp))

theorem execFeedHalted_inv (h : Inv s) (hx : execFeedHalted b s = .next t) : Inv t := by
  refine feedRow_inv hx fun hs => ?_
  have hst := eq_of_beq hs
  exact h.of_keepsStore ⟨rfl, rfl, rfl, rfl⟩ le_rfl h.counts h.sum
    (haltOk_halted hst (h.halt.1.1 hst) rfl)

/-- DISPATCH writes only the bitset, inside its range, and OREG; the FEED ends in EndOfFrame or, with a cause, in
Halted. -/
theorem execFeedChecksumMatch_inv (h : Inv s) (hx : execFeedChecksumMatch b s = .next t) : Inv t := by
  obtain ⟨-, hst, -, d, any, fault, hd, -, rfl⟩ := execFeedChecksumMatch_next hx
  have hbits := dispatch_bitsInRange hd
  rw [BitsInRange, (dispatch_next hd).2] at hbits
  obtain ⟨hle, hcap, -⟩ := h.counts
  rw [finishFeed_frame hd]
  constructor
  case params => exact h.params
  case memory => exact h.memory
  case bits => exact hbits
  case idle => rfl
  case written => exact h.written
  all_goals cases fault
  case counts.false | counts.true => exact ⟨hle, hcap, trivial⟩
  case sum.false | sum.true => trivial
  case halt.false => exact h.haltOk_running (by simp [hst]) rfl (by simp)
  case halt.true => exact haltOk_halted rfl (by simp) rfl

/-- A FEED runs the row that the decoder gives in that state. -/
theorem exec_decodeFeed_inv (h : Inv s) (cx : Ctx) (hx : exec (decodeFeed cx b) s = .next t) : Inv t := by
  unfold decodeFeed at hx
  split at hx
  · split_ifs at hx
    · exact execFeedAwaitStartStx_inv h hx
    · exact execFeedAwaitStartOther_inv h hx
  · exact execFeedStatus_inv h hx
  · exact execFeedPacketType_inv h hx
  · split_ifs at hx
    · exact execFeedLengthOk_inv h hx
    · split at hx
      · exact execFeedLengthOverflowFailclosed_inv h hx
      · exact execFeedLengthOverflowAbort_inv h hx
  · exact execFeedData_inv h hx
  · split_ifs at hx
    · exact execFeedChecksumMatch_inv h hx
    · exact execFeedChecksumMismatch_inv h hx
  · exact execFeedEndOfFrame_inv h hx
  · exact execFeedHalted_inv (b := b) h hx

end FeedRows

/-! ### The host operations and the step -/

theorem execRead_inv {s t : State} {w : ReadWidth} {a : HostAddr} (h : Inv s) (hx : execRead w a s = .next t) :
    Inv t := by
  obtain ⟨-, hx⟩ := between_next hx
  split_ifs at hx
  cases hx
  exact h.of_keepsStore ⟨rfl, rfl, rfl, rfl⟩ le_rfl h.counts h.sum h.halt

theorem execWrite_inv {s t : State} {a : HostAddr} {w : Word} (h : Inv s) (hx : execWrite a w s = .next t) :
    Inv t := by
  obtain ⟨-, hx⟩ := between_next hx
  cases hx
  exact h.of_keepsStore ⟨rfl, rfl, rfl, rfl⟩ le_rfl h.counts h.sum h.halt

theorem resetAll_inv {s : State} (hp : s.params.wf = true) : Inv s.resetAll where
  params := hp
  memory := Memory.nil_wf _
  counts := ⟨Nat.zero_le _, Nat.zero_le _, trivial⟩
  written _ hi := absurd hi (Nat.not_lt_zero _)
  sum := trivial
  bits _ _ := BitVec.getLsbD_zero
  halt := by simp [State.reset]
  idle := rfl

theorem execReset_inv {s t : State} (h : Inv s) (hx : execReset s = .next t) : Inv t := by
  obtain ⟨-, hx⟩ := between_next hx
  cases hx
  exact resetAll_inv h.params

theorem exec_decode_transaction_inv {s t : State} (h : Inv s) (cx : Ctx) (tr : Transaction)
    (hx : exec (decode cx (.transaction tr)) s = .next t) : Inv t := by
  cases tr with
  | feed b => exact exec_decodeFeed_inv h cx hx
  | read w a => exact execRead_inv h hx
  | write a w => exact execWrite_inv (a := a) (w := w) h hx
  | reset => exact execReset_inv h hx

theorem step_inv {s t : State} (h : Inv s) (hx : step s = .next t) : Inv t := by
  obtain ⟨-, hs⟩ | ⟨tr, rest, -, hs⟩ := step_idle h.params h.idle
  · rw [hs] at hx
    cases hx
    exact h
  · rw [hs] at hx
    have taken : Inv { s with input := rest } :=
      h.of_keepsStore ⟨rfl, rfl, rfl, rfl⟩ le_rfl h.counts h.sum h.halt
    exact exec_decode_transaction_inv taken s.ctx tr hx

/-- Settles O49: what each row that the decoder can give writes, against the parts of the invariant that speak of it. -/
theorem stepKeepsTheInvariant : Obligations.StepKeepsTheInvariant := by
  intro s t h hx
  exact step_inv h hx

end Sys2Proof.Machine
end

section
/-!
SUPPORT. What a step is in each phase of a FEED, and the FEED of a matching checksum byte as the run of its rows (R14, R112; log entry 8).
-/

namespace Sys2Proof.Machine

section Step

variable {s : State}

theorem step_of_fetch_row (hw : s.params.wf = true) {i : Instr} {t : State} (hf : s.fetch = .ok (some (i, t))) :
    step s = exec i t := by
  simp only [step, hw, if_true, hf]

theorem step_of_fetch_none (hw : s.params.wf = true) (hf : s.fetch = .ok none) : step s = s.advance := by
  simp only [step, hw, if_true, hf]

theorem step_idle_nil (hw : s.params.wf = true) (h : s.disp = .idle) (hi : s.input = []) : step s = .next s := by
  rw [step_of_fetch_none hw (by simp only [State.fetch, h, hi]), State.advance, h]

theorem step_entry (hw : s.params.wf = true) (h : s.disp = .entry) : step s = dispatchType s :=
  (step_of_fetch_row (i := decode s.ctx (.packetType s.ptype)) hw (by simp only [State.fetch, h])).trans
    (exec_decodePacketType s)

theorem step_walk_item (hw : s.params.wf = true) {c : Nat} {any : Bool} (h : s.disp = .walk c any) {k l : Byte}
    (hi : s.itemAt c = .ok (some (k, l))) : step s = handleItem k l s :=
  (step_of_fetch_row (i := decode s.ctx (.itemHeader k l)) hw (by simp only [State.fetch, h, hi])).trans
    (exec_decodeItem s k l)

theorem step_walk_end (hw : s.params.wf = true) {c : Nat} {any : Bool} (h : s.disp = .walk c any)
    (hi : s.itemAt c = .ok none) : step s = .next { s with disp := .done any false } := by
  rw [step_of_fetch_none hw (by simp only [State.fetch, h, hi]), State.advance, h]

theorem step_done (hw : s.params.wf = true) {any fault : Bool} (h : s.disp = .done any fault) :
    step s = .next (s.finishFeed any fault) := by
  rw [step_of_fetch_none hw (by simp only [State.fetch, h]), State.advance, h]

end Step

/-- Settles O6: the fetch between transactions takes the first pending one, or has nothing to take. -/
theorem stepRunsTheDecodedTransaction : Obligations.StepRunsTheDecodedTransaction := by
  intro s hw hd
  exact ⟨fun t rest hi => step_of_fetch_row hw (fetch_idle hd hi), fun hi => step_idle_nil hw hd hi⟩

/-! ### A FEED row by row -/

theorem run_succ_of_step {s s' : State} (h : step s = .next s') (k : Nat) :
    Host.Core.run core (k + 1) s = Host.Core.run core k s' := by
  have hs : core.step s = .next s' := h
  simp only [Host.Core.run, hs]

theorem handleItem_params {s t : State} {k l : Byte} (h : handleItem k l s = .next t) : t.params = s.params := by
  obtain ⟨c, any, -, -, ⟨-, -, rfl⟩ | ⟨-, -, rfl⟩ | ⟨-, d, rfl⟩⟩ := handleItem_next h <;> rfl

/-- The steps from inside a walk that returns go through its items one at a time and end the FEED (R105, R93). -/
theorem run_walkItems {fuel : Nat} {s d : State} {any fault : Bool} (hw : s.params.wf = true)
    (h : walkItems fuel s = .next d) (hd : d.disp = .done any fault) :
    ∃ k, Host.Core.run core k s = .next (d.finishFeed any fault) := by
  have returned : ∀ {u : State}, u.params.wf = true → u.disp = .done any fault →
      Host.Core.run core 1 u = .next (u.finishFeed any fault) :=
    fun hu hdone => run_succ_of_step (step_done hu hdone) 0
  induction fuel generalizing s with
  | zero => cases h; exact ⟨1, returned hw hd⟩
  | succ fuel ih =>
    unfold walkItems at h
    split at h
    next c a hs =>
      split at h
      next k l hi =>
        obtain ⟨s', h1, h2⟩ := andThen_eq_next h
        obtain ⟨n, hn⟩ := ih (by rw [handleItem_params h1]; exact hw) h2
        exact ⟨n + 1, (run_succ_of_step ((step_walk_item hw hs hi).trans h1) n).trans hn⟩
      next hi =>
        cases h
        exact ⟨2, (run_succ_of_step (step_walk_end hw hs hi) 1).trans (returned hw hd)⟩
      next => cases h
    all_goals (cases h; exact ⟨1, returned hw hd⟩)

theorem run_dispatch {s d : State} {any fault : Bool} (hw : s.params.wf = true) (h : dispatch s = .next d)
    (hd : d.disp = .done any fault) :
    ∃ k, Host.Core.run core (k + 1) { s with disp := .entry } = .next (d.finishFeed any fault) := by
  obtain ⟨s', h1, h2⟩ := andThen_eq_next h
  have hw' : s'.params.wf = true := by
    rw [dispatchType_entry rfl] at h1
    cases h1
    exact hw
  obtain ⟨k, hk⟩ := run_walkItems hw' h2 hd
  exact ⟨k, (run_succ_of_step ((step_entry (s := { s with disp := .entry }) hw rfl).trans h1) k).trans hk⟩

/-- Settles O57: DISPATCH is the packet-type row and the walk, and the walk is the run of its item rows. -/
theorem atomicFeedIsItsRows : Obligations.AtomicFeedIsItsRows := by
  intro s t b hw h
  obtain ⟨-, -, -, d, any, fault, hd, hdone, rfl⟩ := execFeedChecksumMatch_next h
  exact run_dispatch (s := { s with rxCk := b }) hw hd hdone

end Sys2Proof.Machine
end

section
/-!
SUPPORT. Reads of cells that this frame has not written (R13, R27; log entry 12).
-/

namespace Sys2Proof.Machine

/-- Cell `i` holds a byte that this frame has written. -/
def State.HasCell (s : State) (i : Nat) : Prop :=
  i < s.count.toNat ∧ i < s.params.cap ∧ (s.buf.cell i).isSome = true

theorem State.bufRead_hasCell {s : State} {i : Nat} (h : s.HasCell i) : ∃ b, s.bufRead i = .ok b := by
  obtain ⟨hc, hi, hs⟩ := h
  obtain ⟨b, hb⟩ := Option.isSome_iff_exists.1 hs
  exact ⟨b, State.bufRead_ok hc hi hb⟩

/-- `rd` reads `w` cells in rising order: it answers where it has them all, and faults on the first one it lacks. -/
structure ReadsCells {α : Type} (s : State) (w : Nat) (rd : Nat → Except Fault α) : Prop where
  ok : ∀ p, (∀ i < w, s.HasCell (p + i)) → ∃ x, rd p = .ok x
  fault : ∀ p j, j < w → (∀ i < j, s.HasCell (p + i)) → ¬ s.HasCell (p + j) → rd p = .error (.unwrittenCell (p + j))

theorem readsCells_bufRead (s : State) : ReadsCells s 1 s.bufRead where
  ok p h := State.bufRead_hasCell (h 0 (by omega))
  fault p j hj _ hn := by
    obtain rfl : j = 0 := by omega
    exact State.bufRead_unwritten hn

/-- Two reads, the second behind the first, are a read of the cells of both. -/
theorem ReadsCells.pair {α β : Type} {s : State} {w : Nat} {rd : Nat → Except Fault α} (h : ReadsCells s w rd)
    (f : α → α → β) :
    ReadsCells s (w + w) fun p => do
      let x ← rd p
      let y ← rd (p + w)
      return f x y where
  ok p hall := by
    obtain ⟨x, hx⟩ := h.ok p fun i hi => hall i (by omega)
    obtain ⟨y, hy⟩ := h.ok (p + w) fun i hi => Nat.add_assoc p w i ▸ hall (w + i) (by omega)
    exact ⟨f x y, by simp only [hx, hy]; rfl⟩
  fault p j hj hall hn := by
    by_cases hw : j < w
    · simp only [h.fault p j hw hall hn]
      rfl
    · obtain ⟨x, hx⟩ := h.ok p fun i hi => hall i (by omega)
      obtain ⟨i, rfl⟩ := Nat.exists_eq_add_of_le (Nat.not_lt.1 hw)
      rw [← Nat.add_assoc] at hn ⊢
      have hy := h.fault (p + w) i (by omega) (fun k hk => Nat.add_assoc p w k ▸ hall (w + k) (by omega)) hn
      simp only [hx, hy]
      rfl

theorem readsCells_be16 (s : State) : ReadsCells s 2 s.be16 := (readsCells_bufRead s).pair (· ++ ·)

theorem readsCells_be32 (s : State) : ReadsCells s 4 s.be32 := (readsCells_be16 s).pair (· ++ ·)

theorem readsCells_be64 (s : State) : ReadsCells s 8 s.be64 := (readsCells_be32 s).pair (· ++ ·)

/-- The header of an item is read as a pair of cells (R105). -/
theorem State.itemAt_unwritten {s : State} {c j : Nat} (hc : c + 1 < s.n.toNat) (hj : j < 2)
    (hall : ∀ i < j, s.HasCell (c + i)) (hn : ¬ s.HasCell (c + j)) : s.itemAt c = .error (.unwrittenCell (c + j)) := by
  rw [State.itemAt, if_pos hc]
  exact ((readsCells_bufRead s).pair fun k l => some (k, l)).fault c j hj hall hn

theorem itemRow_fault {s : State} {c : Nat} {any : Bool} {f : Fault} (hd : s.disp = .walk c any)
    (hi : s.itemAt c = .error f) (k l : Byte) (selected : Bool) (body : Nat → Bool → Result) :
    itemRow s k l selected body = .fault f := by
  simp only [itemRow, hd, hi]

theorem exec_item (s : State) {i : Instr} (h : i.format = .itemKind) :
    ∃ k l selected body, exec i s = itemRow s k l selected body := by
  cases i <;> cases h <;> exact ⟨_, _, _, _, rfl⟩

/-- Settles O60: a wide read is a pair of half as wide ones, down to the single cell; an item header is a pair too. -/
theorem unreceivedCellsAreFaults : Obligations.UnreceivedCellsAreFaults := by
  intro s readable
  refine ⟨fun i hn => State.bufRead_unwritten hn, fun p j hall hn => ⟨fun hj => ?_, fun hj => ?_, fun hj => ?_⟩, ?_⟩
  · exact (readsCells_be16 s).fault p j hj hall hn
  · exact (readsCells_be32 s).fault p j hj hall hn
  · exact (readsCells_be64 s).fault p j hj hall hn
  · intro c any j hd hc hj hall hn i hi
    obtain ⟨k, l, selected, body, he⟩ := exec_item s hi
    rw [he]
    exact itemRow_fault hd (State.itemAt_unwritten hc hj hall hn) k l selected body

end Sys2Proof.Machine
end

section
/-!
SUPPORT. The special values of RAD2DEG (R7, R126).
-/

namespace Sys2Proof.Machine

theorem rad2degDefault_isInf (c : Nat) {x : F64} (h : f64IsInf x = true) : rad2degDefault c x = x := by
  have hnan : f64IsNaN x = false := by
    simp only [f64IsInf, f64IsNaN, Bool.and_eq_true, beq_iff_eq] at h ⊢
    simp [h]
  simp [rad2degDefault, h, hnan]

theorem nanOf_isNaN (w : F64) : f64IsNaN (nanOf w) = true := by
  have hfrac := f64Frac_lt w
  have hinf : infMagnitude = 2047 * 2 ^ 52 := rfl
  have hlt : infMagnitude + max 1 (f64Frac w) < 2 ^ 63 := by omega
  rw [f64IsNaN, nanOf, f64Exp_withSign _ hlt, f64Frac_withSign _ hlt]
  simp only [Bool.and_eq_true, beq_iff_eq, bne_iff_ne]
  omega

theorem rad2degDefault_isNaN (c : Nat) {x : F64} (h : f64IsNaN x = true) : f64IsNaN (rad2degDefault c x) = true := by
  rw [rad2degDefault, if_pos h]
  exact nanOf_isNaN _

/-- A zero is its sign and nothing else. -/
theorem withSign_zero {x : F64} (h : x.extractLsb' 0 63 = 0) : withSign (f64Sign x) 0 = x := by
  have hlow : x.toNat % 2 ^ 63 = 0 := by simpa [BitVec.extractLsb'_toNat] using congrArg BitVec.toNat h
  have hlt := x.isLt
  apply BitVec.eq_of_toNat_eq
  rw [withSign_toNat _ (by norm_num), f64Sign, BitVec.getLsbD, Nat.testBit_eq_decide_div_mod_eq]
  simp only [decide_eq_true_eq]
  split_ifs <;> omega

theorem rad2degDefault_zero (c : Nat) {x : F64} (h : x.extractLsb' 0 63 = 0) : rad2degDefault c x = x := by
  have hx := withSign_zero h
  have hexp : f64Exp x = 0 := by rw [← hx, f64Exp_withSign _ (by norm_num)]; rfl
  have hfrac : f64Frac x = 0 := by rw [← hx, f64Frac_withSign _ (by norm_num)]; rfl
  have hmul : mulFinite x degPerRad = x := by
    have hsig : f64Sig x = 0 := by simp [f64Sig, hexp, hfrac]
    have hk : f64Sign degPerRad = false := by decide
    rw [mulFinite, hsig, Nat.zero_mul, roundMagnitude, if_pos rfl, hk, Bool.bne_false, hx]
  simp [rad2degDefault, f64IsNaN, f64IsInf, hexp, hmul]

/-- Settles O58: a function on finitely many patterns is a table; the default's product of a zero is that zero. -/
theorem rad2degSpecialValues : Obligations.Rad2degSpecialValues := by
  refine ⟨fun f => ?_, fun r x => ⟨fun y hy => rad2deg_listed hy, fun hn => ?_⟩⟩
  · obtain ⟨table, ht⟩ := exists_table f
    exact ⟨{ nanChoice := 0, table := table }, fun x => rad2deg_listed (ht x)⟩
  · rw [rad2deg_unlisted hn]
    exact ⟨rad2degDefault_zero _, rad2degDefault_isInf _, rad2degDefault_isNaN _⟩

end Sys2Proof.Machine
end

section
/-!
SUPPORT. The host's READs of STATUS, CONFIG, FRAME0, FRAME1, BITSET0 to BITSET7, KINDS0 and KINDS1 and of the reserved
words (10_state.md R40 to R46): the bits of each word, and the entries of the map.
-/

namespace Sys2Proof

/-- MAX_KIND is a byte (R7). -/
theorem Params.maxKind_lt (p : Params) : p.maxKind < 256 := by
  obtain ⟨k, -, hk⟩ := p.exists_toNat_eq_maxKind
  exact hk ▸ k.isLt

namespace Machine

/-! ### The bits of a word

`Nat.reduceAdd` is kept off: it would add up the widths in the types, where the laws of `++` no longer match. -/

/-- The fields of a word of four bytes, the first the most significant. -/
theorem fourBytes_fields (a b c d : Byte) :
    (a ++ b ++ c ++ d).extractLsb' 0 8 = d ∧ (a ++ b ++ c ++ d).extractLsb' 8 8 = c ∧
      (a ++ b ++ c ++ d).extractLsb' 16 8 = b ∧ (a ++ b ++ c ++ d).extractLsb' 24 8 = a := by
  refine ⟨?_, ?_, ?_, ?_⟩ <;>
    simp [-Nat.reduceAdd, BitVec.extractLsb'_append_eq_of_le, BitVec.extractLsb'_append_eq_of_add_le]

/-- The fields of a word of three bytes over six zeros and two bits. -/
theorem bytesOverBits_fields (a b c : Byte) (x y : BitVec 1) :
    (a ++ b ++ c ++ 0#6 ++ x ++ y).getLsbD 0 = y.getLsbD 0 ∧ (a ++ b ++ c ++ 0#6 ++ x ++ y).getLsbD 1 = x.getLsbD 0 ∧
      (a ++ b ++ c ++ 0#6 ++ x ++ y).extractLsb' 2 6 = 0 ∧ (a ++ b ++ c ++ 0#6 ++ x ++ y).extractLsb' 8 8 = c ∧
      (a ++ b ++ c ++ 0#6 ++ x ++ y).extractLsb' 16 8 = b ∧ (a ++ b ++ c ++ 0#6 ++ x ++ y).extractLsb' 24 8 = a := by
  refine ⟨?_, ?_, ?_, ?_, ?_, ?_⟩ <;>
    simp [-Nat.reduceAdd, -BitVec.getLsbD_eq_getElem, BitVec.getLsbD_append, BitVec.extractLsb'_append_eq_of_le,
      BitVec.extractLsb'_append_eq_of_add_le]

theorem State.statusWord_fields (s : State) :
    s.statusWord.extractLsb' 0 3 = stCode s.st ∧ s.statusWord.extractLsb' 3 1 = 0 ∧
      s.statusWord.extractLsb' 4 2 = resultBits s.lastResult ∧ s.statusWord.extractLsb' 6 2 = 0 ∧
      s.statusWord.extractLsb' 8 2 = causeBits s.haltCause ∧ s.statusWord.extractLsb' 10 22 = 0 := by
  refine ⟨?_, ?_, ?_, ?_, ?_, ?_⟩ <;>
    simp [-Nat.reduceAdd, State.statusWord, BitVec.extractLsb'_append_eq_of_le,
      BitVec.extractLsb'_append_eq_of_add_le]

theorem configWord_fields (p : Params) :
    (configWord p).getLsbD 0 = decide (p.unknownKind = .abort) ∧
      (configWord p).getLsbD 1 = decide (p.overflow = .abort) ∧ (configWord p).extractLsb' 2 6 = 0 ∧
      (configWord p).extractLsb' 8 8 = p.aggType ∧ (configWord p).extractLsb' 16 8 = BitVec.ofNat 8 p.maxKind ∧
      (configWord p).extractLsb' 24 8 = BitVec.ofNat 8 p.cap := by
  unfold configWord
  cases p.unknownKind <;> cases p.overflow <;> exact bytesOverBits_fields _ _ _ _ _

theorem getLsbD_bitsetMask (p : Params) (k : Nat) : (bitsetMask p).getLsbD k = decide (k ≤ p.maxKind) := by
  have hlt := p.maxKind_lt
  rw [bitsetMask, BitVec.getLsbD_ofNat, Nat.testBit_two_pow_sub_one, ← Bool.decide_and]
  exact decide_eq_decide.2 (by omega)

/-- A bit of BITSETi (R44). -/
theorem State.getLsbD_bitsetWord (s : State) (i : Nat) {j : Nat} (hj : j < 32) :
    (s.bitsetWord i).getLsbD j = (decide (32 * i + j ≤ s.params.maxKind) && s.bitset.getLsbD (32 * i + j)) := by
  rw [State.bitsetWord, BitVec.getLsbD_extractLsb', BitVec.getLsbD_and, getLsbD_bitsetMask]
  simp [hj, Bool.and_comm]

/-! ### The entries of the map -/

theorem State.regMap_bitset (s : State) {i : Nat} (hi : i < 8) :
    s.regMap.lookup (0x010 + 4 * i) = some (some (s.bitsetWord i)) := by
  interval_cases i <;> rfl

/-- The map has no entry at the words that R40 and R45 reserve. -/
theorem State.regMap_reserved (s : State) {n : Nat}
    (h : n ∈ [0x038, 0x03C, 0x04C, 0x068, 0x06C, 0x07C, 0x084, 0x088, 0x08C, 0x09C, 0x0AC, 0x0F8, 0x0FC, 0x10C] ∨
      0x128 ≤ n) : s.regMap.lookup n = none := by
  simp only [List.mem_cons, List.not_mem_nil, or_false] at h
  simp only [List.lookup_eq_none_iff, State.regMap, State.systemWords, Oreg.words, TimeSlot.words, PosSlot.words,
    VelSlot.words, DopSlot.words, SigSlot.words, InsSlot.words, RmsSlot.words, MslSlot.words, f64Words,
    List.forall_mem_append, List.forall_mem_cons, bne_iff_ne, List.not_mem_nil, false_implies, implies_true, and_true]
  omega

/-! ### The statements -/

/-- Settles O32: each field of STATUS is the code that the state's register has. -/
theorem readStatus : Obligations.ReadStatus := by
  refine ⟨execRead_written rfl rfl rfl, fun s hd => ⟨s.statusWord, execRead_written hd rfl rfl, ?_⟩⟩
  obtain ⟨hst, h3, hresult, h6, hcause, h10⟩ := s.statusWord_fields
  rw [hst, hresult, hcause]
  refine ⟨?_, h3, ?_, h6, ?_, h10⟩
  · cases s.st <;> rfl
  · cases s.lastResult <;> rfl
  · cases s.haltCause <;> rfl

/-- Settles O34: both words are the parser registers byte by byte. -/
theorem readFrameWords : Obligations.ReadFrameWords := by
  refine ⟨fun a ha => ?_, fun s hd => ⟨⟨s.frame0Word, execRead_written hd rfl rfl, ?_⟩,
    ⟨s.frame1Word, execRead_written hd rfl rfl, ?_⟩⟩⟩
  · obtain rfl | rfl : a = 0x008 ∨ a = 0x00C := by simpa using ha
    · exact execRead_written rfl rfl rfl
    · exact execRead_written rfl rfl rfl
  · exact fourBytes_fields s.rxCk s.n s.ptype s.statusB
  · exact fourBytes_fields 0#8 s.etx s.acc s.count

/-- A READ of BITSETi answers its word (R44). -/
theorem execRead_bitset {s : State} (hd : s.disp = .idle) {i : Nat} (hi : i < 8) :
    execRead .w32 (BitVec.ofNat 9 (0x010 + 4 * i)) s = .next { s with resp := .word (s.bitsetWord i) } := by
  have ha : (BitVec.ofNat 9 (0x010 + 4 * i)).toNat = 0x010 + 4 * i := Nat.mod_eq_of_lt (by omega)
  exact execRead_written hd (by omega) (ha.symm ▸ s.regMap_bitset hi)

/-- Settles O35: a BITSET word is a slice of the bitset under the mask of the bits 0 to MAX_KIND. -/
theorem readBitsetWords : Obligations.ReadBitsetWords := by
  refine ⟨fun i hi => ?_, fun s i hd hi =>
    ⟨s.bitsetWord i, execRead_bitset hd hi, fun j hj => s.getLsbD_bitsetWord i hj⟩⟩
  have empty : State.reset.bitsetWord i = 0 := by simp [State.bitsetWord, State.reset]
  exact empty ▸ execRead_bitset (s := State.reset) rfl hi

/-- Settles O37: the map has no entry at a reserved address. -/
theorem readReservedWords : Obligations.ReadReservedWords := by
  intro s a hd ha hr
  exact execRead_reserved hd ha (s.regMap_reserved hr)

end Machine

end Sys2Proof
end

section
/-!
SUPPORT. Which register a row may write (10_state.md R21, R27, R28, R38): the "written by" column as a relation between the
states before and after, proved once for every row that a host transaction decodes to.
-/

namespace Sys2Proof

/-- The decoder gives a transaction a row whose word it is. -/
theorem encode_decode_transaction (cx : Ctx) (tr : Transaction) :
    encode cx.params (decode cx (.transaction tr)) = .transaction tr := by
  cases tr with
  | feed b =>
    unfold decode decodeFeed
    cases cx.st with
    | awaitStart =>
      by_cases hb : b = stx
      · subst hb; rfl
      · simp [hb, encode]
    | length =>
      by_cases hb : b.toNat ≤ cx.params.cap
      · simp [hb, encode]
      · cases ho : cx.params.overflow <;> simp [hb, encode]
    | checksum => by_cases hb : b = cx.acc <;> simp [hb, encode]
    | _ => rfl
  | read | write | reset => rfl

namespace Machine

/-- What the host transaction `tr` may change from `s` to `t`, each register only where R21, R27, R28 and R38 have it
written. -/
structure WritesByRules (s t : State) (tr : Transaction) : Prop where
  params : t.params = s.params
  statusB : t.statusB ≠ s.statusB → s.st = .status
  ptype : t.ptype ≠ s.ptype → s.st = .packetType
  n : t.n ≠ s.n → s.st = .length
  count : t.count ≠ s.count → s.st = .awaitStart ∨ s.st = .data
  acc : t.acc ≠ s.acc → s.st = .awaitStart ∨ s.st = .status ∨ s.st = .packetType ∨ s.st = .length ∨ s.st = .data
  rxCk : t.rxCk ≠ s.rxCk → s.st = .checksum
  etx : t.etx ≠ s.etx → s.st = .endOfFrame
  haltCause : t.haltCause ≠ s.haltCause → s.st = .length ∨ s.st = .checksum
  buf : t.buf ≠ s.buf → s.st = .data
  decoded : t.bitset ≠ s.bitset ∨ t.oreg ≠ s.oreg → s.st = .checksum ∧ tr = .feed s.acc
  resetChoice : t.resetChoice = s.resetChoice
  input : t.input = s.input
  disp : t.disp = s.disp

/-- Writing nothing is by the rules: a row answers for what it writes alone. -/
theorem WritesByRules.refl (s : State) (tr : Transaction) : WritesByRules s s tr where
  params := rfl
  statusB h := absurd rfl h
  ptype h := absurd rfl h
  n h := absurd rfl h
  count h := absurd rfl h
  acc h := absurd rfl h
  rxCk h := absurd rfl h
  etx h := absurd rfl h
  haltCause h := absurd rfl h
  buf h := absurd rfl h
  decoded h := h.elim (absurd rfl) (absurd rfl)
  resetChoice := rfl
  input := rfl
  disp := rfl

section Rows

variable {s t : State} {b : Byte} {tr : Transaction}

theorem feedRow_writesByRules {selected : Bool} {u : State} (hx : feedRow s selected (.next u) = .next t)
    (hu : selected = true → WritesByRules s u tr) : WritesByRules s t tr := by
  obtain ⟨-, hs, ht⟩ := feedRow_next hx
  cases ht
  exact hu hs

theorem execFeedData_writesByRules (hx : execFeedData b s = .next t) : WritesByRules s t tr := by
  obtain ⟨-, hs, ht⟩ := feedRow_next hx
  have hst := eq_of_beq hs
  obtain ⟨-, hw⟩ | ⟨-, hw⟩ := s.bufWrite_cases s.count.toNat b <;> rw [hw] at ht <;> cases ht
  exact { WritesByRules.refl s tr with
    buf := fun _ => hst, count := fun _ => .inr hst, acc := fun _ => by simp [hst] }

/-- DISPATCH writes the bitset and the register file, and runs only on a byte that is the accumulator. -/
theorem execFeedChecksumMatch_writesByRules (hx : execFeedChecksumMatch b s = .next t) :
    WritesByRules s t (.feed b) := by
  obtain ⟨hd, hst, rfl, d, any, fault, h, -, rfl⟩ := execFeedChecksumMatch_next hx
  rw [finishFeed_frame h]
  exact { WritesByRules.refl s (.feed s.acc) with
    rxCk := fun _ => hst, haltCause := fun _ => .inr hst, decoded := fun _ => ⟨hst, rfl⟩, disp := hd.symm }

/-- Every row that the word of a transaction other than RESET can have. -/
theorem exec_writesByRules {i : Instr} (hi : encode s.params i = .transaction tr) (hr : tr ≠ .reset)
    (hx : exec i s = .next t) : WritesByRules s t tr := by
  have keep := WritesByRules.refl s tr
  cases i with
  | feedAwaitStartStx =>
    refine feedRow_writesByRules hx fun hs => ?_
    have hst := eq_of_beq hs
    exact { keep with count := fun _ => .inl hst, acc := fun _ => by simp [hst] }
  | feedStatus b =>
    refine feedRow_writesByRules hx fun hs => ?_
    have hst := eq_of_beq hs
    exact { keep with statusB := fun _ => hst, acc := fun _ => by simp [hst] }
  | feedPacketType b =>
    refine feedRow_writesByRules hx fun hs => ?_
    have hst := eq_of_beq hs
    exact { keep with ptype := fun _ => hst, acc := fun _ => by simp [hst] }
  | feedLengthOk b =>
    refine feedRow_writesByRules hx fun hs => ?_
    have hst := eq_of_beq (Bool.and_eq_true_iff.1 hs).1
    exact { keep with n := fun _ => hst, acc := fun _ => by simp [hst] }
  | feedLengthOverflowFailclosed b =>
    refine feedRow_writesByRules hx fun hs => ?_
    have hst := eq_of_beq (Bool.and_eq_true_iff.1 (Bool.and_eq_true_iff.1 hs).1).1
    exact { keep with acc := fun _ => by simp [hst] }
  | feedLengthOverflowAbort b =>
    refine feedRow_writesByRules hx fun hs => ?_
    have hst := eq_of_beq (Bool.and_eq_true_iff.1 (Bool.and_eq_true_iff.1 hs).1).1
    exact { keep with haltCause := fun _ => .inl hst, acc := fun _ => by simp [hst] }
  | feedData b => exact execFeedData_writesByRules hx
  | feedChecksumMatch b =>
    cases hi
    exact execFeedChecksumMatch_writesByRules hx
  | feedChecksumMismatch b =>
    refine feedRow_writesByRules hx fun hs => ?_
    have hst := eq_of_beq (Bool.and_eq_true_iff.1 hs).1
    exact { keep with rxCk := fun _ => hst }
  | feedEndOfFrame b =>
    refine feedRow_writesByRules hx fun hs => ?_
    have hst := eq_of_beq hs
    exact { keep with etx := fun _ => hst }
  | feedAwaitStartOther b | feedHalted b => exact feedRow_writesByRules hx fun _ => { keep with }
  | read w a =>
    obtain ⟨-, hx⟩ := between_next hx
    split_ifs at hx
    cases hx
    exact { keep with }
  | write a w =>
    obtain ⟨-, hx⟩ := between_next hx
    cases hx
    exact { keep with }
  | reset =>
    cases hi
    exact absurd rfl hr
  | _ => cases hi

end Rows

/-- Settles O45: a transaction's row writes by the rules, and the decoder gives it a row whose word it is. -/
theorem registersChangeOnlyByTheirRules : Obligations.RegistersChangeOnlyByTheirRules := by
  intro s t tr hd hr hx
  have h := exec_writesByRules (encode_decode_transaction s.ctx tr) hr hx
  exact ⟨h.statusB, h.ptype, h.n, h.count, h.acc, h.rxCk, h.etx, h.haltCause, h.buf, h.decoded, h.resetChoice, h.input,
    h.disp.trans hd⟩

/-! ### The parameters -/

theorem decodedItem_params {s t : State} {k l : Byte} {dec : State → Nat → Byte → Except Fault Oreg}
    (hx : decodedItem s k l dec = .next t) : t.params = s.params := by
  obtain ⟨c, any, d, -, -, -, rfl⟩ := decodedItem_next hx
  rfl

theorem dispatchRow_next {s s' t : State} {selected : Bool} (hx : dispatchRow s selected s' = .next t) :
    s.disp = .entry ∧ selected = true ∧ s' = t := by
  unfold dispatchRow at hx
  split_ifs at hx with h
  cases hx
  exact ⟨h.1, h.2, rfl⟩

/-- No row writes a parameter (R42; log entry 3). -/
theorem exec_params {s t : State} {i : Instr} (hx : exec i s = .next t) : t.params = s.params := by
  cases i with
  | reset =>
    obtain ⟨-, hx⟩ := between_next hx
    cases hx
    rfl
  | dispatchAggregate =>
    obtain ⟨-, -, rfl⟩ := dispatchRow_next hx
    rfl
  | dispatchOther t =>
    obtain ⟨-, -, rfl⟩ := dispatchRow_next hx
    rfl
  | itemTime l | itemPosition l | itemVelocity l | itemDop l | itemSigma l | itemIns l | itemInsrms l | itemMsl l =>
    exact decodedItem_params hx
  | itemInRangeUndecoded k l | itemOutOfRangeSkip k l | itemOutOfRangeAbort k l =>
    obtain ⟨c, any, -, -, -, hb⟩ := itemRow_next hx
    cases hb
    rfl
  | _ => exact (exec_writesByRules rfl (by simp) hx).params

/-- Settles O33: the words are the parameters at their bits (R8 keeps CAP and MAX_KIND bytes), and no row writes one. -/
theorem readConfigAndKinds : Obligations.ReadConfigAndKinds := by
  refine fun s => ⟨fun hw hd => ?_, fun i t hx => exec_params hx⟩
  have hcap : s.params.cap < 256 := Nat.lt_succ_of_le ((Params.wf_iff _).1 hw).2
  obtain ⟨hunknown, hoverflow, hzero, hagg, hmax, hcapByte⟩ := configWord_fields s.params
  refine ⟨⟨configWord s.params, execRead_written hd rfl rfl, ?_, ?_, hzero, hagg, ?_, ?_⟩,
    ⟨kinds0Word s.params, execRead_written hd rfl rfl, fourBytes_fields _ _ _ _⟩,
    ⟨kinds1Word s.params, execRead_written hd rfl rfl, fourBytes_fields _ _ _ _⟩⟩
  · rw [hunknown, decide_eq_true_iff]
  · rw [hoverflow, decide_eq_true_iff]
  · rw [hmax]
    exact Nat.mod_eq_of_lt s.params.maxKind_lt
  · rw [hcapByte]
    exact Nat.mod_eq_of_lt hcap

end Machine

end Sys2Proof
end

section
/-!
SUPPORT. The byte that FEED stores in Data (R92), and RESET (R48).
-/

namespace Sys2Proof.Machine

/-- Settles O12: the cell at the old `count` lies in the buffer, so the write is made, and below N the count does not
wrap. -/
theorem feedDataByte : Obligations.FeedDataByte := by
  intro s b hd hst hlt hcap
  have hin : s.count.toNat < s.params.cap := by omega
  have hcount : BitVec.ofNat 8 (s.count.toNat + 1) = s.count + 1 := by simp [BitVec.ofNat_add]
  have hnext : s.count.toNat + 1 = s.n.toNat ↔ s.count + 1 = s.n := by
    have hn := s.n.isLt
    rw [← hcount, ← BitVec.toNat_inj, BitVec.toNat_ofNat, Nat.mod_eq_of_lt (by omega)]
  have hw : s.bufWrite s.count.toNat b = .ok { s with buf := s.buf.set s.count.toNat b } := if_pos hin
  have hsel : (s.st == .data) = true := by simp [hst]
  refine ⟨s.buf.set s.count.toNat b, ?_, Memory.cell_set_same _ _ _, fun i hi => Memory.cell_set_ne _ _ hi,
    fun h => Memory.set_wf b h hin⟩
  show execFeedData b s = _
  rw [execFeedData, hsel, feedRow_selected hd, hw]
  simp only [hcount, if_congr hnext rfl rfl]
  rfl

/-- Settles O41: between transactions RESET is `resetAll`, whose fields are those of `State.reset`. -/
theorem resetSetsEveryRegister : Obligations.ResetSetsEveryRegister := by
  intro s hd
  refine ⟨s.resetAll, between_idle hd _, ?_⟩
  exact ⟨rfl, rfl, rfl, rfl, rfl, rfl, rfl, rfl, rfl, rfl, fun _ => rfl, rfl, rfl, rfl⟩

/-- Settles O48: the invariant does not speak of the free choice, so it is that of a RESET. -/
theorem resetStateHasTheInvariant : Obligations.ResetStateHasTheInvariant := by
  intro p input choice hp
  have h : Inv (State.resetAll { State.reset with params := p, input := input }) := resetAll_inv hp
  exact h.of_keepsStore ⟨rfl, rfl, rfl, rfl⟩ le_rfl h.counts h.sum h.halt

end Sys2Proof.Machine
end

section
/-!
SUPPORT. The host's READs of the OREG words (10_state.md R45; R131, log entry 11): each register with its place in the
map, what it holds before its first write, and the words that each kind of register gives.
-/

namespace Sys2Proof.Machine

/-! ### The registers and their places -/

/-- The free value of reset of the register of `w` bits at `place` (R48; log entry 11). -/
def heldAtReset (choice w place : Nat) : BitVec w := (Config.oregAtReset choice place).setWidth w

/-- The registers that are a word of their own. -/
def wordRegisters : List (Nat × (Oreg → OregField (BitVec 32))) :=
  [(0x040, (·.time.towMs)), (0x044, (·.time.week)), (0x070, (·.vel.hspeed)), (0x074, (·.vel.vspeed)),
   (0x078, (·.vel.heading)), (0x080, (·.dop.hdop)), (0x090, (·.sig.east)), (0x094, (·.sig.north)),
   (0x098, (·.sig.vert)), (0x0A4, (·.ins.timeMs)), (0x0C8, (·.ins.vn)), (0x0CC, (·.ins.ve)), (0x0D0, (·.ins.vd)),
   (0x0D4, (·.ins.speed)), (0x104, (·.rms.timeMs))]

/-- The registers of two words. -/
def f64Registers : List (Nat × (Oreg → OregField F64)) :=
  [(0x050, (·.pos.lat)), (0x058, (·.pos.lon)), (0x060, (·.pos.hgt)), (0x0B0, (·.ins.lat)), (0x0B8, (·.ins.lon)),
   (0x0C0, (·.ins.alt)), (0x0D8, (·.ins.roll)), (0x0E0, (·.ins.pitch)), (0x0E8, (·.ins.heading)),
   (0x0F0, (·.ins.track)), (0x110, (·.msl.latDeg)), (0x118, (·.msl.lonDeg)), (0x120, (·.msl.alt))]

/-- The registers in the low half of a word. -/
def u16Registers : List (Nat × (Oreg → OregField (BitVec 16))) :=
  [(0x0A0, (·.ins.week)), (0x100, (·.rms.week))]

/-- The pairs of byte registers that share a word, the first in the low byte. -/
def bytePairRegisters : List (Nat × (Oreg → OregField Byte) × (Oreg → OregField Byte)) :=
  [(0x0A8, (·.ins.align), (·.ins.fix)), (0x108, (·.rms.align), (·.rms.fix))]

/-- The register at `place` holds its written value, or the free value of its place. -/
def ComesUpFree {w : Nat} (place : Nat) (get : Oreg → OregField (BitVec w)) : Prop :=
  ∀ (o : Oreg) (choice : Nat), get (o.contents choice) = some ((get o).getD (heldAtReset choice w place))

theorem comesUpFree_of_or {w place : Nat} {get : Oreg → OregField (BitVec w)}
    (h : ∀ o choice, get (o.contents choice) = (get o).or (some (heldAtReset choice w place))) :
    ComesUpFree place get :=
  fun o choice => (h o choice).trans Option.or_some

theorem ComesUpFree.of_unwritten {w place : Nat} {get : Oreg → OregField (BitVec w)} (h : ComesUpFree place get)
    {o : Oreg} (choice : Nat) (hn : get o = none) :
    get (o.contents choice) = some (heldAtReset choice w place) := by
  rw [h o choice, hn, Option.getD_none]

theorem wordRegisters_free : ∀ r ∈ wordRegisters, ComesUpFree r.1 r.2 := by
  intro r hr
  fin_cases hr <;> exact comesUpFree_of_or fun _ _ => rfl

theorem f64Registers_free : ∀ r ∈ f64Registers, ComesUpFree r.1 r.2 := by
  intro r hr
  fin_cases hr <;> exact comesUpFree_of_or fun _ _ => rfl

theorem u16Registers_free : ∀ r ∈ u16Registers, ComesUpFree r.1 r.2 := by
  intro r hr
  fin_cases hr <;> exact comesUpFree_of_or fun _ _ => rfl

theorem bytePairRegisters_free : ∀ r ∈ bytePairRegisters, ComesUpFree r.1 r.2.1 ∧ ComesUpFree (r.1 + 1) r.2.2 := by
  intro r hr
  fin_cases hr <;> exact ⟨comesUpFree_of_or fun _ _ => rfl, comesUpFree_of_or fun _ _ => rfl⟩

theorem timeMisc_free :
    ComesUpFree 0x048 (·.time.sats) ∧ ComesUpFree 0x049 (·.time.flags1) ∧ ComesUpFree 0x04A (·.time.flags2) :=
  ⟨comesUpFree_of_or fun _ _ => rfl, comesUpFree_of_or fun _ _ => rfl, comesUpFree_of_or fun _ _ => rfl⟩

/-! ### The words at the places -/

/-- The words at address `n` are `f` of the register file, and `n` is an address that a READ can have. -/
structure HasWord (n : Nat) (f : Oreg → Option Word) : Prop where
  above : 0x040 ≤ n
  below : n < 0x200
  aligned : n % 4 = 0
  lookup : ∀ o : Oreg, o.words.lookup n = some (f o)

theorem wordRegisters_hasWord : ∀ r ∈ wordRegisters, HasWord r.1 r.2 := by
  intro r hr
  have address : 0x040 ≤ r.1 ∧ r.1 < 0x200 ∧ r.1 % 4 = 0 := by
    fin_cases hr <;> decide
  obtain ⟨hlo, hhi, h4⟩ := address
  refine ⟨hlo, hhi, h4, fun o => ?_⟩
  revert r
  simp [wordRegisters, Oreg.words, TimeSlot.words, PosSlot.words, VelSlot.words, DopSlot.words,
    SigSlot.words, InsSlot.words, RmsSlot.words, MslSlot.words, f64Words, List.lookup]

theorem f64Registers_hasWord : ∀ r ∈ f64Registers,
    HasWord r.1 (fun o => (r.2 o).map (·.extractLsb' 0 32)) ∧
      HasWord (r.1 + 4) (fun o => (r.2 o).map (·.extractLsb' 32 32)) := by
  have words : ∀ o : Oreg, ∀ r ∈ f64Registers, o.HasF64 r.1 (r.2 o) := by
    intro o
    obtain ⟨posLat, posLon, posHgt⟩ := o.words_pos
    obtain ⟨insLat, insLon, insAlt⟩ := o.words_insPos
    obtain ⟨roll, pitch, heading, track⟩ := o.words_insAngles
    obtain ⟨mslLat, mslLon, mslAlt⟩ := o.words_msl
    simp only [f64Registers, List.forall_mem_cons, List.not_mem_nil, false_implies, implies_true, and_true]
    exact ⟨posLat, posLon, posHgt, insLat, insLon, insAlt, roll, pitch, heading, track, mslLat, mslLon, mslAlt⟩
  intro r hr
  have address : 0x040 ≤ r.1 ∧ r.1 + 4 < 0x200 ∧ r.1 % 4 = 0 := by
    fin_cases hr <;> decide
  obtain ⟨hlo, hhi, h4⟩ := address
  exact ⟨⟨hlo, by omega, h4, fun o => (words o r hr).1⟩, ⟨by omega, hhi, by omega, fun o => (words o r hr).2⟩⟩

theorem u16Registers_hasWord : ∀ r ∈ u16Registers, HasWord r.1 (fun o => u16Word (r.2 o)) := by
  intro r hr
  fin_cases hr <;> exact ⟨by decide, by decide, by decide, fun _ => rfl⟩

theorem bytePairRegisters_hasWord : ∀ r ∈ bytePairRegisters,
    HasWord r.1 (fun o => bytePairWord (r.2.1 o) (r.2.2 o)) := by
  intro r hr
  fin_cases hr <;> exact ⟨by decide, by decide, by decide, fun _ => rfl⟩

theorem timeMisc_hasWord : HasWord 0x048 (fun o => timeMiscWord o.time) :=
  ⟨by decide, by decide, by decide, fun o => o.words_bytes.1⟩

theorem bytePairWord_eq_none {x y : Option Byte} (h : x = none ∨ y = none) : bytePairWord x y = none := by
  rcases h with rfl | rfl
  · rfl
  · cases x <;> rfl

theorem timeMiscWord_eq_none {t : TimeSlot} (h : t.sats = none ∨ t.flags1 = none ∨ t.flags2 = none) :
    timeMiscWord t = none := by
  rcases h with h | h | h <;> simp [timeMiscWord, h]

theorem timeMiscWord_eq_some {t : TimeSlot} {n f g : Byte} (hn : t.sats = some n) (hf : t.flags1 = some f)
    (hg : t.flags2 = some g) : timeMiscWord t = some (0#8 ++ g ++ f ++ n) := by
  simp [timeMiscWord, hn, hf, hg]

/-! ### READ -/

section Read

variable {s : State} (hd : s.disp = .idle)
include hd

/-- A READ of an OREG word whose registers are written. -/
theorem HasWord.read_written {n : Nat} {f : Oreg → Option Word} (h : HasWord n f) {w : Word} (hw : f s.oreg = some w) :
    exec (.read .w32 (BitVec.ofNat 9 n)) s = .next { s with resp := .word w } := by
  have ha : (BitVec.ofNat 9 n).toNat = n := Nat.mod_eq_of_lt h.below
  exact execRead_written hd (by rw [ha, h.aligned]) (by rw [ha, s.regMap_oreg h.above, h.lookup, hw])

/-- A READ of an OREG word with an unwritten register answers what the registers hold (R131). -/
theorem HasWord.read_unwritten {n : Nat} {f : Oreg → Option Word} (h : HasWord n f) {w : Word} (hn : f s.oreg = none)
    (hw : f (s.oreg.contents s.resetChoice) = some w) :
    exec (.read .w32 (BitVec.ofNat 9 n)) s = .next { s with resp := .unwrittenRead (BitVec.ofNat 9 n) w } := by
  have ha : (BitVec.ofNat 9 n).toNat = n := Nat.mod_eq_of_lt h.below
  have hc : s.contentsWord (BitVec.ofNat 9 n) = w := State.contentsWord_eq (by rw [ha, h.lookup, hw])
  rw [← hc]
  exact execRead_unwritten hd (by rw [ha, h.aligned]) (by rw [ha, s.regMap_oreg h.above, h.lookup, hn])

theorem read_oreg_reserved {n : Nat} (hn : n < 0x200) (h4 : n % 4 = 0)
    (h : n ∈ [0x038, 0x03C, 0x04C, 0x068, 0x06C, 0x07C, 0x084, 0x088, 0x08C, 0x09C, 0x0AC, 0x0F8, 0x0FC, 0x10C] ∨
      0x128 ≤ n) : exec (.read .w32 (BitVec.ofNat 9 n)) s = .next { s with resp := .word 0 } := by
  have ha : (BitVec.ofNat 9 n).toNat = n := Nat.mod_eq_of_lt hn
  exact execRead_reserved hd (by rw [ha, h4]) (by rw [ha, s.regMap_reserved h])

end Read

/-- Settles O36: kind by kind of register, the words at its place, of its written value or of what it holds. -/
theorem readOregWords : Obligations.ReadOregWords := by
  intro s hd gives unwritten held o
  refine ⟨List.forall_mem_map (l := wordRegisters) (f := fun r => (r.1, r.2 o)) |>.2 fun r hr => ?word,
    List.forall_mem_map (l := f64Registers) (f := fun r => (r.1, r.2 o)) |>.2 fun r hr => ?f64,
    List.forall_mem_map (l := u16Registers) (f := fun r => (r.1, r.2 o)) |>.2 fun r hr => ?u16,
    List.forall_mem_map (l := bytePairRegisters) (f := fun r => (r.1, r.2.1 o, r.2.2 o)) |>.2 fun r hr => ?bytePair,
    fun n f g hn hf hg => timeMisc_hasWord.read_written hd (timeMiscWord_eq_some hn hf hg),
    fun h => ?timeMisc, fun a ha => ?reserved, fun a hlo hhi h4 => read_oreg_reserved hd (by omega) h4 (.inr hlo)⟩
  case word =>
    have free := wordRegisters_free r hr
    have word := wordRegisters_hasWord r hr
    exact ⟨fun v hv => word.read_written hd hv, fun hn => word.read_unwritten hd hn (free.of_unwritten _ hn)⟩
  case f64 =>
    have free := f64Registers_free r hr
    obtain ⟨lo, hi⟩ := f64Registers_hasWord r hr
    refine ⟨fun v hv => ⟨lo.read_written hd (congrArg _ hv), hi.read_written hd (congrArg _ hv)⟩, fun hn => ?_⟩
    have hheld := free.of_unwritten s.resetChoice hn
    exact ⟨lo.read_unwritten hd (congrArg _ hn) (congrArg _ hheld),
      hi.read_unwritten hd (congrArg _ hn) (congrArg _ hheld)⟩
  case u16 =>
    have free := u16Registers_free r hr
    have word := u16Registers_hasWord r hr
    exact ⟨fun v hv => word.read_written hd (congrArg u16Word hv),
      fun hn => word.read_unwritten hd (congrArg u16Word hn) (congrArg u16Word (free.of_unwritten _ hn))⟩
  case bytePair =>
    obtain ⟨freeLow, freeHigh⟩ := bytePairRegisters_free r hr
    have word := bytePairRegisters_hasWord r hr
    exact ⟨fun x y hx hy => word.read_written hd (congrArg₂ bytePairWord hx hy),
      fun h => word.read_unwritten hd (bytePairWord_eq_none h) (congrArg₂ bytePairWord (freeLow o _) (freeHigh o _))⟩
  case timeMisc =>
    obtain ⟨freeSats, freeFlags1, freeFlags2⟩ := timeMisc_free
    exact timeMisc_hasWord.read_unwritten hd (timeMiscWord_eq_none h)
      (timeMiscWord_eq_some (freeSats o _) (freeFlags1 o _) (freeFlags2 o _))
  case reserved =>
    have address : a < 0x200 ∧ a % 4 = 0 := by
      revert a
      decide
    exact read_oreg_reserved hd address.1 address.2 (.inl (List.mem_cons_of_mem _ (List.mem_cons_of_mem _ ha)))

end Sys2Proof.Machine
end

section
/-!
SUPPORT. Under the invariant no FEED stops (20_memory.md R57, R58; 30_encoding.md R79): the decoder gives a selected
row, a data byte finds its cell, and DISPATCH runs on a payload that the buffer holds whole.
-/

namespace Sys2Proof

/-! ### The row of a byte -/

theorem decodeFeed_format (cx : Ctx) (b : Byte) : (decodeFeed cx b).format = .fsmByte := by
  unfold decodeFeed
  cases cx.st with
  | awaitStart | checksum => dsimp only; split_ifs <;> rfl
  | length => cases cx.params.overflow <;> dsimp only <;> split_ifs <;> rfl
  | _ => rfl

/-- The decoder gives a byte a row that the table selects for it (R79). -/
theorem decodeFeed_wf (cx : Ctx) (b : Byte) : (decodeFeed cx b).wf cx = true := by
  unfold decodeFeed
  cases hst : cx.st with
  | awaitStart => by_cases hb : b = stx <;> simp [hb, Instr.wf, hst]
  | length =>
    by_cases hb : b.toNat ≤ cx.params.cap
    · simp [hb, Instr.wf, hst]
    · cases ho : cx.params.overflow <;> simp [hb, Instr.wf, hst, ho, Nat.lt_of_not_le hb]
  | checksum => by_cases hb : b = cx.acc <;> simp [hb, Instr.wf, hst]
  | _ => simp [Instr.wf, hst]

namespace Machine

/-! ### The payload in the buffer -/

/-- The payload bytes that the buffer holds. -/
def State.payload (s : State) : List Byte := (List.range s.n.toNat).map fun i => (s.buf.cell i).getD 0

/-- In Checksum the whole payload has been received (R23, R58). -/
theorem Inv.holdsPayload {s : State} (h : Inv s) (hst : s.st = .checksum) : HoldsPayload s s.payload := by
  obtain ⟨-, hcap, hcount⟩ := h.counts
  simp only [hst] at hcount
  refine ⟨by simp [State.payload], hcount, hcap, fun i hi => ?_⟩
  have hi : i < s.count.toNat := by simpa [State.payload, hcount] using hi
  obtain ⟨b, hb⟩ := Option.isSome_iff_exists.1 (h.written i hi)
  simp [State.payload, hb]

/-- A walk with two bytes left is at an item whose bytes are those of the payload (R70, R105). -/
theorem HoldsPayload.atItem {s : State} {payload : List Byte} (h : HoldsPayload s payload) {c : Nat} {any : Bool}
    (hd : s.disp = .walk c any) (hc : c + 1 < payload.length) :
    AtItem s c any payload[c] payload[c + 1] ((payload.drop (c + 2)).take payload[c + 1].toNat) := by
  obtain ⟨hn, hcount, hcap, hcell⟩ := h
  refine ⟨hd, hn ▸ hc, by rw [hcount], hcap, hcell c (by omega), hcell (c + 1) hc, ?_, fun i hi => ?_⟩
  · rw [List.length_take, List.length_drop, hn]
  · rw [List.length_take, List.length_drop] at hi
    rw [hcell (c + 2 + i) (by omega), List.getElem_take, List.getElem_drop]

/-! ### DISPATCH -/

theorem walkItems_completes {fuel : Nat} {s : State} {payload : List Byte} (h : HoldsPayload s payload) :
    Completes (walkItems fuel s) := by
  induction fuel generalizing s with
  | zero => exact ⟨s, rfl⟩
  | succ fuel ih =>
    unfold walkItems
    cases hd : s.disp with
    | walk c any =>
      by_cases hc : c + 1 < payload.length
      · have hitem := h.atItem hd hc
        simp only [hitem.itemAt, handleItem_atItem hitem, andThen_next]
        refine ih ?_
        split_ifs
        · cases s.params.unknownKind <;> exact h
        · exact h
      · have ⟨hn, _⟩ := h
        have hend : s.itemAt c = .ok none := if_neg (hn ▸ hc)
        simp only [hend]
        exact ⟨_, rfl⟩
    | idle | entry | done _ _ => exact ⟨s, rfl⟩

/-- The state after the packet-type test (R102, R103). -/
def State.typeTested (s : State) : State :=
  { s with bitset := 0, disp := if s.ptype = s.params.aggType then .walk 3 false else .done false false }

/-- DISPATCH is the walk from behind the packet-type test, which ends at once for a packet of another type. -/
theorem dispatch_eq_walkItems (s : State) : dispatch s = walkItems (s.n.toNat + 1) s.typeTested := by
  rw [dispatch, dispatchType_entry rfl]
  rfl

theorem dispatch_completes {s : State} {payload : List Byte} (h : HoldsPayload s payload) :
    Completes (dispatch s) := by
  rw [dispatch_eq_walkItems]
  exact walkItems_completes h

/-! ### The FEED rows -/

theorem feedRow_completes {s : State} {selected : Bool} {r : Result} (hd : s.disp = .idle) (hs : selected = true)
    (hr : Completes r) : Completes (feedRow s selected r) := by
  rw [hs, feedRow_selected hd]
  exact hr

/-- The FEED of a matching checksum byte ends as its DISPATCH returns (R93). -/
theorem execFeedChecksumMatch_of_dispatch {s d : State} {any fault : Bool} (hd : s.disp = .idle)
    (hst : s.st = .checksum) (h : dispatch { s with rxCk := s.acc } = .next d) (hdone : d.disp = .done any fault) :
    execFeedChecksumMatch s.acc s = .next (d.finishFeed any fault) := by
  have hs : (s.st == .checksum && s.acc == s.acc) = true := by simp [hst]
  rw [execFeedChecksumMatch, hs, feedRow_selected hd, h, andThen_next, finish, hdone]

section UnderInvariant

variable {s : State} (h : Inv s)
include h

/-- In Data the cell at `count` lies in the buffer (R23, R57). -/
theorem execFeedData_completes {b : Byte} (hst : s.st = .data) : Completes (execFeedData b s) := by
  obtain ⟨-, hcap, hlt⟩ := h.counts
  simp only [hst] at hlt
  have hw : s.bufWrite s.count.toNat b = .ok { s with buf := s.buf.set s.count.toNat b } := if_pos (by omega)
  rw [execFeedData, hw]
  exact feedRow_completes h.idle (by simp [hst]) ⟨_, rfl⟩

theorem execFeedChecksumMatch_completes (hst : s.st = .checksum) : Completes (execFeedChecksumMatch s.acc s) := by
  have hp : HoldsPayload { s with rxCk := s.acc } s.payload := h.holdsPayload hst
  obtain ⟨d, hd⟩ := dispatch_completes hp
  obtain ⟨⟨any, fault, hdone⟩, -⟩ := dispatch_next hd
  exact ⟨_, execFeedChecksumMatch_of_dispatch h.idle hst hd hdone⟩

/-- Every FEED row completes where the table selects it. -/
theorem exec_feed_completes {i : Instr} (hf : i.format = .fsmByte) (hw : i.wf s.ctx = true) : Completes (exec i s) := by
  cases i with
  | feedData b => exact execFeedData_completes h (eq_of_beq hw)
  | feedChecksumMatch b =>
    simp only [Instr.wf, Bool.and_eq_true, beq_iff_eq] at hw
    obtain ⟨hst, rfl⟩ := hw
    exact execFeedChecksumMatch_completes h hst
  | feedAwaitStartStx | feedAwaitStartOther b | feedStatus b | feedPacketType b | feedLengthOk b
  | feedLengthOverflowFailclosed b | feedLengthOverflowAbort b | feedChecksumMismatch b | feedEndOfFrame b
  | feedHalted b => exact feedRow_completes h.idle hw ⟨_, rfl⟩
  | _ => cases hf

/-- The invariant does not speak of the transactions still to come. -/
theorem Inv.with_input (input : List Transaction) : Inv { s with input := input } :=
  h.of_keepsStore ⟨rfl, rfl, rfl, rfl⟩ le_rfl h.counts h.sum h.halt

end UnderInvariant

/-! ### READ -/

theorem execRead_refused {s : State} (hd : s.disp = .idle) {width : ReadWidth} {a : HostAddr}
    (ha : a.toNat % 4 ≠ 0 ∨ width ≠ .w32) : execRead width a s = .refused .misalignedRead := by
  rw [execRead, between_idle hd, if_pos ha]

/-- Settles O50: a FEED byte has a selected row, which completes; a WRITE and a RESET always do, and a READ of a whole
word at a multiple of 4. -/
theorem stepCompletesUnderTheInvariant : Obligations.StepCompletesUnderTheInvariant := by
  intro s h
  obtain ⟨-, hs⟩ | ⟨tr, rest, hi, hs⟩ := step_idle h.params h.idle
  · exact .inl ⟨s, hs⟩
  have taken := h.with_input rest
  rw [hs]
  cases tr with
  | feed b => exact .inl (exec_feed_completes taken (decodeFeed_format s.ctx b) (decodeFeed_wf s.ctx b))
  | read width a =>
    by_cases ha : a.toNat % 4 ≠ 0 ∨ width ≠ .w32
    · exact .inr ⟨width, a, rest, hi, execRead_refused taken.idle ha, ha⟩
    · obtain ⟨h4, rfl⟩ : a.toNat % 4 = 0 ∧ width = .w32 := by simpa using ha
      exact .inl ⟨_, execRead_aligned taken.idle h4⟩
  | write a w => exact .inl ⟨_, between_idle taken.idle _⟩
  | reset => exact .inl ⟨_, between_idle taken.idle _⟩

end Machine

end Sys2Proof
end

section
/-!
SUPPORT. What a READ can answer (20_memory.md R56; R130, R131), and which rows a transaction can run (R61, R85, R134).
-/

namespace Sys2Proof.Machine

/-- Settles O38: the answer is that of the map, which does not read the port; a word is missing only in the OREG words. -/
theorem readAlwaysAnswers : Obligations.ReadAlwaysAnswers := by
  intro s a hd ha
  refine ⟨s.readResponse a, execRead_aligned hd ha, ?_,
    fun last => execRead_aligned (s := { s with resp := last }) hd ha⟩
  obtain hw | ⟨hn, hr⟩ := s.readResponse_cases a
  · exact .inl hw
  · exact .inr ⟨⟨_, hr⟩, State.regMap_none hn⟩

/-- Settles O43: a row that the table selects is the one its word decodes to, and the guard of every FEED row is the
table's condition. -/
theorem onlyTheDecodedRowRuns : Obligations.OnlyTheDecodedRowRuns := by
  refine ⟨fun s b i hd hf hb hne => ?_, fun s i hd hf => ?_⟩
  · have unselected : i.wf s.ctx = false := Bool.eq_false_iff.2 fun hw =>
      hne ((decode_encode_feed hf hw).symm.trans (congrArg (decode s.ctx) hb))
    obtain ⟨r, hr⟩ := exec_feed s hf
    rw [hr, unselected, feedRow_unselected hd]
  · obtain hf | hf := hf
    · obtain ⟨r, hr⟩ := exec_feed s hf
      rw [hr]
      exact between_busy hd _
    · cases i with
      | read | write | reset => exact between_busy hd _
      | _ => cases hf

end Sys2Proof.Machine
end

section
/-!
SUPPORT. What a DISPATCH stores is a function of the frame (20_memory.md R58; 42_decoders.md R127): two states with the
same parameters, N, count and payload cells answer every read of the payload alike, and so walk through the same items.
-/

namespace Sys2Proof.Machine

/-! ### Reads of the same payload -/

/-- The two states have the same parameters and the same frame in the buffer: N, the count and the cells below N. -/
structure SameFrame (s s' : State) : Prop where
  params : s'.params = s.params
  n : s'.n = s.n
  count : s'.count = s.count
  cell : ∀ i < s.n.toNat, s'.buf.cell i = s.buf.cell i

namespace SameFrame

variable {s s' : State} (h : SameFrame s s')
include h

theorem bufRead {i : Nat} (hi : i < s.n.toNat) : s'.bufRead i = s.bufRead i := by
  have hr : s'.received i = s.received i := by rw [State.received, State.received, h.count, h.params]
  rw [State.bufRead, State.bufRead, hr, h.cell i hi]

theorem be8 (p : Nat) (hp : p + 1 ≤ s.n.toNat) : s'.be8 p = s.be8 p := h.bufRead hp

theorem be16 (p : Nat) (hp : p + 2 ≤ s.n.toNat) : s'.be16 p = s.be16 p := by
  rw [State.be16, State.be16, h.be8 p (by omega), h.be8 (p + 1) (by omega)]

theorem be32 (p : Nat) (hp : p + 4 ≤ s.n.toNat) : s'.be32 p = s.be32 p := by
  rw [State.be32, State.be32, h.be16 p (by omega), h.be16 (p + 2) (by omega)]

theorem be64 (p : Nat) (hp : p + 8 ≤ s.n.toNat) : s'.be64 p = s.be64 p := by
  rw [State.be64, State.be64, h.be32 p (by omega), h.be32 (p + 4) (by omega)]

/-- A field that is present lies wholly below N (R115). -/
theorem getField {α : Type} {rd rd' : Nat → Except Fault α} {w : Nat} (hw : 0 < w)
    (hrd : ∀ p, p + w ≤ s.n.toNat → rd' p = rd p) (v : Nat) (l : Byte) (off : Nat) :
    getField s' v l off w rd' = getField s v l off w rd := by
  have hp : s'.present v l off w = s.present v l off w := by
    rw [State.present, State.present, State.extent, State.extent, h.n]
  unfold Machine.getField
  rw [hp]
  split_ifs with hin
  · have hin : off + w ≤ min l.toNat (s.n.toNat - v) := of_decide_eq_true hin
    rw [hrd (v + off) (by omega)]
  · rfl

theorem get8 (v : Nat) (l : Byte) (off : Nat) : get8 s' v l off = get8 s v l off :=
  h.getField (by omega) h.be8 v l off

theorem get16 (v : Nat) (l : Byte) (off : Nat) : get16 s' v l off = get16 s v l off :=
  h.getField (by omega) h.be16 v l off

theorem get32 (v : Nat) (l : Byte) (off : Nat) : get32 s' v l off = get32 s v l off :=
  h.getField (by omega) h.be32 v l off

theorem get64 (v : Nat) (l : Byte) (off : Nat) : get64 s' v l off = get64 s v l off :=
  h.getField (by omega) h.be64 v l off

theorem itemAt (c : Nat) : s'.itemAt c = s.itemAt c := by
  unfold State.itemAt
  rw [h.n]
  split_ifs with hc
  · rw [h.bufRead (i := c) (by omega), h.bufRead hc]
  · rfl

end SameFrame

/-! ### The decoders read the payload alone -/

/-- The decoder gives the same fields in every state with the same frame. -/
def ReadsFrame (dec : State → Nat → Byte → Except Fault Oreg) : Prop :=
  ∀ ⦃s s' : State⦄, SameFrame s s' → ∀ v l, dec s' v l = dec s v l

theorem readsFrame_decodeTime : ReadsFrame decodeTime := fun s s' h v l => by
  simp only [decodeTime, h.get32, h.get8]

theorem readsFrame_decodePosition : ReadsFrame decodePosition := fun s s' h v l => by
  simp only [decodePosition, h.get64]

theorem readsFrame_decodeVelocity : ReadsFrame decodeVelocity := fun s s' h v l => by
  simp only [decodeVelocity, h.get8, h.get32]

theorem readsFrame_decodeDop : ReadsFrame decodeDop := fun s s' h v l => by
  simp only [decodeDop, h.get32]

theorem readsFrame_decodeSigma : ReadsFrame decodeSigma := fun s s' h v l => by
  simp only [decodeSigma, h.get32]

theorem readsFrame_decodeIns : ReadsFrame decodeIns := fun s s' h v l => by
  simp only [decodeIns, h.get16, h.get32, h.get8, h.get64]

theorem readsFrame_decodeInsrms : ReadsFrame decodeInsrms := fun s s' h v l => by
  simp only [decodeInsrms, h.get16, h.get32, h.get8]

theorem readsFrame_decodeMsl : ReadsFrame decodeMsl := fun s s' h v l => by
  simp only [decodeMsl, h.get64, h.params]

/-! ### The walk -/

/-- The two states are at the same place of the same walk, with the same bits set so far. -/
structure SameWalk (s s' : State) : Prop extends SameFrame s s' where
  disp : s'.disp = s.disp
  bitset : s'.bitset = s.bitset

/-- `s'` after a part of a walk that ends in `t` and stores the fields `d`. -/
def State.walked (s' t : State) (d : Oreg) : State :=
  { s' with bitset := t.bitset, oreg := d.store s'.oreg, disp := t.disp }

theorem State.walked_walked (s t u : State) (d e : Oreg) : (s.walked t d).walked u e = s.walked u (e.store d) := by
  simp only [State.walked, Oreg.store_assoc]

theorem SameWalk.walked {s s' : State} (w : SameWalk s s') (t : State) (d : Oreg) :
    SameWalk (s.walked t d) (s'.walked t d) :=
  ⟨⟨w.params, w.n, w.count, w.cell⟩, rfl, rfl⟩

/-- The part `f` of a walk leads from `s` to `t`, and from every state at the same walk to the same place, with the same
fields stored. -/
def WalksAlike (f : State → Result) (s t : State) : Prop :=
  ∃ d : Oreg, t = s.walked t d ∧ ∀ s', SameWalk s s' → f s' = .next (s'.walked t d)

namespace WalksAlike

variable {f g : State → Result} {s t u : State}

theorem congr (h : WalksAlike f s t) (he : ∀ s', SameWalk s s' → g s' = f s') : WalksAlike g s t := by
  obtain ⟨d, ht, hd⟩ := h
  exact ⟨d, ht, fun s' w => (he s' w).trans (hd s' w)⟩

/-- A part that stores no field, and sets the bits and the cursor alike. -/
theorem of_move (move : State → State) (hs : move s = s.walked (move s) Oreg.unwritten)
    (hm : ∀ s', SameWalk s s' → move s' = s'.walked (move s) Oreg.unwritten) :
    WalksAlike (fun s' => .next (move s')) s (move s) :=
  ⟨Oreg.unwritten, hs, fun s' w => congrArg _ (hm s' w)⟩

theorem refl (s : State) : WalksAlike .next s s :=
  .of_move id rfl fun s' w => by simp [State.walked, ← w.bitset, ← w.disp]

/-- Two parts of a walk, one after the other, store the fields of both (R128). -/
theorem andThen (hf : WalksAlike f s t) (hg : WalksAlike g t u) :
    WalksAlike (fun s' => Machine.andThen (f s') g) s u := by
  obtain ⟨d, ht, hd⟩ := hf
  obtain ⟨e, hu, he⟩ := hg
  refine ⟨e.store d, ?_, fun s' w => ?_⟩
  · rw [← State.walked_walked s t, ← ht]
    exact hu
  · have w' : SameWalk t (s'.walked t d) := by
      rw [ht]
      exact w.walked _ d
    show Machine.andThen (f s') g = _
    rw [hd s' w, andThen_next, he _ w', State.walked_walked]

end WalksAlike

/-! ### The items -/

/-- An item row walks alike where its body does: the header is read alike and the row selected alike. -/
theorem itemRow_walksAlike {s t : State} {kind : Params → Byte} {l : Byte} {selected : Params → Bool}
    {body : State → Nat → Bool → Result} (h : itemRow s (kind s.params) l (selected s.params) (body s) = .next t)
    (hb : ∀ c any, body s c any = .next t → WalksAlike (fun s' => body s' c any) s t) :
    WalksAlike (fun s' => itemRow s' (kind s'.params) l (selected s'.params) (body s')) s t := by
  obtain ⟨c, any, hd, hi, hs, hx⟩ := itemRow_next h
  refine (hb c any hx).congr fun s' w => ?_
  simp [itemRow, w.params, w.disp, w.itemAt, hd, hi, hs]

theorem decodedItem_walksAlike {s t : State} {kind : Params → Byte} {l : Byte}
    {dec : State → Nat → Byte → Except Fault Oreg} (hdec : ReadsFrame dec)
    (h : decodedItem s (kind s.params) l dec = .next t) :
    WalksAlike (fun s' => decodedItem s' (kind s'.params) l dec) s t := by
  refine itemRow_walksAlike (selected := fun _ => true) h fun c any hb => ?_
  cases hx : dec s (c + 2) l with
  | error f => simp [hx] at hb
  | ok d =>
    rw [hx] at hb
    cases hb
    refine ⟨d, rfl, fun s' w => ?_⟩
    dsimp only
    rw [hdec w.toSameFrame, hx]
    simp [State.walked, State.setBit, State.nextItem, w.params, w.bitset]

theorem exec_item_walksAlike {s t : State} {i : Instr} (hf : i.format = .itemKind) (h : exec i s = .next t) :
    WalksAlike (exec i) s t := by
  cases i with
  | itemTime l => exact decodedItem_walksAlike (kind := (·.kindTime)) readsFrame_decodeTime h
  | itemPosition l => exact decodedItem_walksAlike (kind := (·.kindPosition)) readsFrame_decodePosition h
  | itemVelocity l => exact decodedItem_walksAlike (kind := (·.kindVelocity)) readsFrame_decodeVelocity h
  | itemDop l => exact decodedItem_walksAlike (kind := (·.kindDop)) readsFrame_decodeDop h
  | itemSigma l => exact decodedItem_walksAlike (kind := (·.kindSigma)) readsFrame_decodeSigma h
  | itemIns l => exact decodedItem_walksAlike (kind := (·.kindIns)) readsFrame_decodeIns h
  | itemInsrms l => exact decodedItem_walksAlike (kind := (·.kindInsrms)) readsFrame_decodeInsrms h
  | itemMsl l => exact decodedItem_walksAlike (kind := (·.kindMsl)) readsFrame_decodeMsl h
  | itemInRangeUndecoded k l =>
    refine itemRow_walksAlike (kind := fun _ => k)
      (selected := fun p => decide (k.toNat ≤ p.maxKind) && !p.kinds.contains k) h fun c any hb => ?_
    cases hb
    exact .of_move (fun s' => (s'.setBit k).nextItem c l) rfl fun s' w => by
      simp [State.walked, State.setBit, State.nextItem, w.bitset]
  | itemOutOfRangeSkip k l =>
    refine itemRow_walksAlike (kind := fun _ => k)
      (selected := fun p => decide (p.maxKind < k.toNat) && p.unknownKind == .skip) h fun c any hb => ?_
    cases hb
    exact .of_move (fun s' => s'.nextItem c l) rfl fun s' w => by simp [State.walked, State.nextItem, w.bitset]
  | itemOutOfRangeAbort k l =>
    refine itemRow_walksAlike (kind := fun _ => k)
      (selected := fun p => decide (p.maxKind < k.toNat) && p.unknownKind == .abort) h fun c any hb => ?_
    cases hb
    exact .of_move (fun s' => { s' with disp := .done any true }) rfl fun s' w => by simp [State.walked, w.bitset]
  | _ => cases hf

theorem decodeItem_format (p : Params) (k l : Byte) : (decodeItem p k l).format = .itemKind := by
  unfold decodeItem
  split_ifs
  · cases p.unknownKind <;> rfl
  all_goals rfl

theorem handleItem_walksAlike {s t : State} {k l : Byte} (h : handleItem k l s = .next t) :
    WalksAlike (handleItem k l) s t := by
  rw [← exec_decodeItem] at h
  refine (exec_item_walksAlike (decodeItem_format s.params k l) h).congr fun s' w => ?_
  rw [← exec_decodeItem, w.params]

/-! ### DISPATCH -/

theorem walkItems_walksAlike {fuel : Nat} {s t : State} (h : walkItems fuel s = .next t) :
    WalksAlike (walkItems fuel) s t := by
  induction fuel generalizing s with
  | zero => cases h; exact .refl _
  | succ fuel ih =>
    unfold walkItems at h
    split at h
    next c any hd =>
      split at h
      next k l hi =>
        obtain ⟨s1, h1, h2⟩ := andThen_eq_next h
        refine ((handleItem_walksAlike h1).andThen (ih h2)).congr fun s' w => ?_
        simp only [walkItems, w.disp, hd, w.itemAt, hi]
      next hi =>
        cases h
        refine WalksAlike.congr (.of_move (fun s' => { s' with disp := .done any false }) rfl fun s' w => ?_)
          fun s' w => ?_
        · simp [State.walked, w.bitset]
        · simp only [walkItems, w.disp, hd, w.itemAt, hi]
      next => cases h
    all_goals
      next hd =>
        cases h
        exact (WalksAlike.refl _).congr fun s' w => by simp only [walkItems, w.disp, hd]

/-- What DISPATCH leaves in a state with the same packet type and the same frame. -/
theorem dispatch_sameFrame {s t : State} (h : dispatch s = .next t) :
    ∃ d : Oreg, ∀ s', SameFrame s s' → s'.ptype = s.ptype → dispatch s' = .next (s'.walked t d) := by
  rw [dispatch_eq_walkItems] at h
  obtain ⟨d, -, hd⟩ := walkItems_walksAlike h
  refine ⟨d, fun s' hs ht => ?_⟩
  have w : SameWalk s.typeTested s'.typeTested :=
    ⟨⟨hs.params, hs.n, hs.count, hs.cell⟩, by simp only [State.typeTested, ht, hs.params], rfl⟩
  rw [dispatch_eq_walkItems, hs.n]
  exact hd _ w

/-- Settles O55: the walk is the same in both states, and what FRAMER does with its outcome reads no other register. -/
theorem decodingDependsOnlyOnTheFrame : Obligations.DecodingDependsOnlyOnTheFrame := by
  intro s t h
  obtain ⟨-, -, -, r, any, fault, hr, hdone, rfl⟩ := execFeedChecksumMatch_next h
  obtain ⟨d, hd⟩ := dispatch_sameFrame hr
  refine ⟨d, r.bitset, fun s' hp ht hn hc hidle hst hcell => ?_⟩
  have hr' := hd { s' with rxCk := s'.acc } ⟨hp, hn, hc, hcell⟩ ht
  show execFeedChecksumMatch s'.acc s' = _
  rw [execFeedChecksumMatch_of_dispatch hidle hst hr' hdone, finishFeed_frame hr', finishFeed_frame hr]
  cases fault <;> simp [State.walked, hidle]

end Sys2Proof.Machine
end

section
/-!
SUPPORT. Decoding and encoding from the side of the words (30_encoding.md R70, R72, R76, R79, R84, R105): every word decodes
to a selected row whose word it is, and the decoder on bytes reads exactly the bytes of one word.
-/

namespace Sys2Proof

/-! ### The row of a packet type -/

theorem decodePacketType_wf (cx : Ctx) (t : Byte) : (decodePacketType cx.params t).wf cx = true := by
  unfold decodePacketType
  split_ifs with ht
  · rfl
  · exact bne_iff_ne.2 ht

theorem encode_decodePacketType (p : Params) (t : Byte) : encode p (decodePacketType p t) = .packetType t := by
  unfold decodePacketType
  split_ifs with ht
  · rw [ht]; rfl
  · rfl

/-! ### The row of an item header -/

/-- A kind that falls through the whole chain of R112 is in range and is none of the eight (R72). -/
theorem decodeItem_wf (cx : Ctx) (k l : Byte) : (decodeItem cx.params k l).wf cx = true := by
  unfold decodeItem
  by_cases hk : cx.params.maxKind < k.toNat
  · cases hu : cx.params.unknownKind <;> simp [hk, hu, Instr.wf]
  · rw [if_neg hk]
    split_ifs
    case neg =>
      have hnot : k ∉ cx.params.kinds := by simp [Params.kinds, *]
      simp [Instr.wf, hnot, Nat.not_lt.1 hk]
    all_goals rfl

/-- The test that a decoded kind passes says that the kind is the code in the row's word (R71, R112). -/
theorem encode_decodeItem (p : Params) (k l : Byte) : encode p (decodeItem p k l) = .itemHeader k l := by
  unfold decodeItem
  by_cases hk : p.maxKind < k.toNat
  · cases hu : p.unknownKind <;> simp [hk, encode]
  · rw [if_neg hk]
    split_ifs <;> simp [encode, *]

/-! ### Every word -/

theorem decode_wf (cx : Ctx) (c : Code) : (decode cx c).wf cx = true := by
  cases c with
  | transaction tr =>
    cases tr with
    | feed b => exact decodeFeed_wf cx b
    | read | write | reset => rfl
  | packetType t => exact decodePacketType_wf cx t
  | itemHeader k l => exact decodeItem_wf cx k l

theorem encode_decode (cx : Ctx) (c : Code) : encode cx.params (decode cx c) = c := by
  cases c with
  | transaction tr => exact encode_decode_transaction cx tr
  | packetType t => exact encode_decodePacketType cx.params t
  | itemHeader k l => exact encode_decodeItem cx.params k l

/-- Settles O2: place by place, the decoder's tests are the conditions of the row it answers. -/
theorem everyWordEncodesBack : Obligations.EveryWordEncodesBack := by
  intro cx c
  exact ⟨decode_wf cx c, encode_decode cx c⟩

/-- Settles O3: the row is the one that the decoder answers; a selected FEED row decodes back from its own word, so there
is no second one. -/
theorem everyByteHasExactlyOneRow : Obligations.EveryByteHasExactlyOneRow := by
  intro cx b
  refine ⟨decodeFeed cx b, ⟨decodeFeed_format cx b, decodeFeed_wf cx b, encode_decode_transaction cx (.feed b)⟩, ?_⟩
  rintro i ⟨hf, hwf, hword⟩
  calc i = decode cx (encode cx.params i) := (decode_encode_feed hf hwf).symm
    _ = decodeFeed cx b := by rw [hword]; rfl

/-! ### The decoder on bytes -/

theorem codeFormat_encode (p : Params) (i : Instr) : codeFormat (encode p i) = i.format := by
  cases i <;> rfl

/-- On the bytes of a word that has bytes, the decoder answers the word's row and leaves what stands behind them. -/
theorem decodeBytes_codeBytes_append (cx : Ctx) {c : Code} (hc : codeFormat c ≠ .hostOp) (rest : List Byte) :
    decodeBytes cx (codeFormat c) (codeBytes c ++ rest) = .ok (decode cx c, rest) := by
  cases c with
  | transaction tr =>
    cases tr with
    | feed b => rfl
    | read | write | reset => exact absurd rfl hc
  | packetType t => rfl
  | itemHeader k l => rfl

/-- Settles O4: the bytes of a row's word are read in the row's format, and the word decodes back to the row. -/
theorem bytesDecodeAndLeaveTheRest : Obligations.BytesDecodeAndLeaveTheRest := by
  refine ⟨fun cx i rest hp hwf hf => ?_, fun cx b => rfl, fun cx bs => ?_⟩
  · rw [← codeFormat_encode cx.params i] at hf ⊢
    rw [decodeBytes_codeBytes_append cx hf, decode_encode hp hwf]
  · unfold decodeBytes
    rfl

/-- Settles O5: each word is evaluated in the table's own layout. -/
theorem tableWordsDecodeToTheirRows : Obligations.TableWordsDecodeToTheirRows := by
  unfold Obligations.TableWordsDecodeToTheirRows
  decide

end Sys2Proof
end

section
/-!
SUPPORT. What each FEED row does in the state that the table gives it (40_framing.md R86 to R96), that its result is
`last_result` (R98), and what a step is inside a FEED (R93, R103, R105, R112).
-/

namespace Sys2Proof.Machine

/-! ### A FEED row where it is selected -/

theorem feedRow_of_selected {s : State} {selected : Bool} (hd : s.disp = .idle) (hs : selected = true) (r : Result) :
    feedRow s selected r = r := by
  rw [hs, feedRow_selected hd]

/-- Settles O8: the condition of each row is that of its state and byte. -/
theorem feedInAwaitStart : Obligations.FeedInAwaitStart := by
  intro s hd hst
  refine ⟨feedRow_of_selected hd (by simp [hst]) _, fun b hb => feedRow_of_selected hd ?_ _⟩
  simpa [hst, stx] using hb

/-- Settles O9: both rows are selected by the state alone. -/
theorem feedInStatusAndPacketType : Obligations.FeedInStatusAndPacketType := by
  intro s b hd
  exact ⟨fun hst => feedRow_of_selected hd (by simp [hst]) _, fun hst => feedRow_of_selected hd (by simp [hst]) _⟩

/-- Settles O10: a length up to CAP selects the row. -/
theorem feedAdmissibleLength : Obligations.FeedAdmissibleLength := by
  intro s b hd hst hb
  exact feedRow_of_selected hd (by simp [hst, hb]) _

/-- Settles O11: a length above CAP selects the row of the policy. -/
theorem feedOverflowingLength : Obligations.FeedOverflowingLength := by
  intro s b hd hst hb
  exact ⟨fun hp => feedRow_of_selected hd (by simp [hst, hb, hp]) _,
    fun hp => feedRow_of_selected hd (by simp [hst, hb, hp]) _⟩

/-- Settles O13: a byte other than the accumulator selects the row. -/
theorem feedWrongChecksum : Obligations.FeedWrongChecksum := by
  intro s b hd hst hb
  exact feedRow_of_selected hd (by simp [hst, hb]) _

/-- Settles O14: the row is selected by the state alone. -/
theorem feedInEndOfFrame : Obligations.FeedInEndOfFrame := by
  intro s b hd hst
  exact feedRow_of_selected hd (by simp [hst]) _

/-- Settles O15: the row is selected by the state alone. -/
theorem feedInHalted : Obligations.FeedInHalted := by
  intro s b hd hst
  exact feedRow_of_selected hd (by simp [hst]) _

/-! ### The result of a FEED -/

/-- A row that ends by reporting `r` (R85) leaves `r` on the port and in `last_result`. -/
theorem feedRow_emit_resp {s t u : State} {selected : Bool} {r : ResultCode}
    (h : feedRow s selected (.next (u.emit r)) = .next t) : t.resp = .result t.lastResult := by
  obtain ⟨-, -, ht⟩ := feedRow_next h
  cases ht
  rfl

/-- Settles O44: every row reports its result; in Data only where the byte was stored, in Checksum as DISPATCH returned. -/
theorem feedWritesLastResult : Obligations.FeedWritesLastResult := by
  intro s t i hf h
  cases i with
  | feedData b =>
    obtain ⟨-, hw⟩ | ⟨-, hw⟩ := s.bufWrite_cases s.count.toNat b
    · simp only [exec, execFeedData, hw] at h
      exact feedRow_emit_resp h
    · simp only [exec, execFeedData, hw] at h
      cases (feedRow_next h).2.2
  | feedChecksumMatch b =>
    obtain ⟨-, -, -, d, any, fault, hd, -, rfl⟩ := execFeedChecksumMatch_next h
    rw [finishFeed_frame hd]
  | feedAwaitStartStx | feedAwaitStartOther b | feedStatus b | feedPacketType b | feedLengthOk b
  | feedLengthOverflowFailclosed b | feedLengthOverflowAbort b | feedChecksumMismatch b | feedEndOfFrame b
  | feedHalted b => exact feedRow_emit_resp h
  | _ => cases hf

/-! ### A step inside a FEED -/

/-- Settles O7: phase by phase, what is fetched, and what happens where no row is next. -/
theorem stepInsideAFeedRunsItsRows : Obligations.StepInsideAFeedRunsItsRows := by
  intro s hw
  refine ⟨fun hd => step_of_fetch_row hw ?_, fun c any k l hd hi => step_of_fetch_row hw ?_, fun c any hd hc => ?_,
    fun any hd => step_done hw hd, fun any hd => step_done hw hd⟩
  · simp only [State.fetch, hd]
  · simp only [State.fetch, hd, hi]
  · exact step_walk_end hw hd (if_neg hc)

end Sys2Proof.Machine
end

section
/-!
SUPPORT. The FEED of a matching checksum byte on the payload's meaning as a byte list (R93, R102 to R112, R128): the walk
in the buffer and the items of the list go on together, one item at a time.
-/

namespace Sys2Proof.Machine

/-! ### The items of a byte list -/

section Items

variable {p : Params} {x : Byte × List Byte} {xs : List (Byte × List Byte)}

theorem abortsOn_cons : abortsOn p (x :: xs) = (abortsOn p [x] || abortsOn p xs) := by
  simp [abortsOn, Bool.and_or_distrib_left]

theorem abortsOn_singleton : abortsOn p [x] = true ↔ p.maxKind < x.1.toNat ∧ p.unknownKind = .abort := by
  simp [abortsOn, and_comm]

/-- An item that ends the walk is not handled, and neither is any behind it (R109). -/
theorem handledItems_cons_of_aborts (h : abortsOn p [x] = true) : handledItems p (x :: xs) = [] := by
  obtain ⟨hk, hp⟩ := abortsOn_singleton.1 h
  simp [handledItems, hp, hk]

theorem handledItems_cons (h : abortsOn p [x] = false) : handledItems p (x :: xs) = x :: handledItems p xs := by
  rw [← Bool.not_eq_true, abortsOn_singleton] at h
  cases hp : p.unknownKind with
  | skip => simp [handledItems, hp]
  | abort =>
    have hk : x.1.toNat ≤ p.maxKind := by simpa [hp] using h
    simp [handledItems, hp, hk]

/-- A kind above MAX_KIND is none of the eight and writes no field (R108). -/
theorem wireItem_of_outOfRange {k : Byte} (h : p.maxKind < k.toNat) (value : List Byte) :
    wireItem p k value = Oreg.unwritten := by
  have hne : ∀ k' ∈ p.kinds, k ≠ k' := by
    rintro k' hk' rfl
    exact absurd (Params.toNat_le_maxKind hk') (by omega)
  simp only [Params.kinds, List.forall_mem_cons] at hne
  simp [wireItem, hne]

/-- Where two bytes are left there is an item, and the next one begins behind its value bytes (R70, R110). -/
theorem itemsFrom_drop {fuel c : Nat} {payload : List Byte} (hc : c + 1 < payload.length) :
    itemsFrom (fuel + 1) (payload.drop c) =
      (payload[c], (payload.drop (c + 2)).take payload[c + 1].toNat) ::
        itemsFrom fuel (payload.drop (c + 2 + payload[c + 1].toNat)) := by
  rw [List.drop_eq_getElem_cons (by omega : c < payload.length), List.drop_eq_getElem_cons hc, itemsFrom,
    List.drop_drop]

/-- Where fewer than two bytes are left there is none (R105). -/
theorem itemsFrom_short {fuel : Nat} {bs : List Byte} (h : bs.length ≤ 1) : itemsFrom fuel bs = [] := by
  match fuel, bs, h with
  | 0, _, _ => rfl
  | _ + 1, [], _ => rfl
  | _ + 1, [_], _ => rfl

end Items

/-! ### The walk -/

/-- `s` with the bits set and the fields stored that these items give (R106 to R108, R128). -/
def State.withItems (s : State) (items : List (Byte × List Byte)) : State :=
  { s with
    bitset := items.foldl (fun b x => if x.1.toNat ≤ s.params.maxKind then b ||| bitOf x.1 else b) s.bitset
    oreg := storeItems s.params items s.oreg }

/-- One item of the payload: under Abort a kind out of range ends the walk with a fault; any other item is handled and
the cursor goes behind it (R106 to R110). -/
theorem handleItem_payload {s : State} {c : Nat} {any : Bool} {k l : Byte} {value : List Byte}
    (h : AtItem s c any k l value) :
    handleItem k l s = .next
      (if abortsOn s.params [(k, value)] then { s with disp := .done any true }
        else { s.withItems [(k, value)] with disp := .walk (c + 2 + l.toNat) true }) := by
  rw [handleItem_atItem h]
  by_cases hk : s.params.maxKind < k.toNat
  · cases hp : s.params.unknownKind with
    | abort => simp [abortsOn, hp, hk]
    | skip => simp [abortsOn, hp, hk, State.withItems, State.nextItem, storeItems, wireItem_of_outOfRange hk]
  · simp [abortsOn, hk, Nat.not_lt.1 hk, State.withItems, storeItems]

theorem walkItems_item {fuel c : Nat} {any : Bool} {s : State} {k l : Byte} (hd : s.disp = .walk c any)
    (hi : s.itemAt c = .ok (some (k, l))) : walkItems (fuel + 1) s = andThen (handleItem k l s) (walkItems fuel) := by
  simp only [walkItems, hd, hi]

theorem walkItems_end {fuel c : Nat} {any : Bool} {s : State} (hd : s.disp = .walk c any)
    (hi : s.itemAt c = .ok none) : walkItems (fuel + 1) s = .next { s with disp := .done any false } := by
  simp only [walkItems, hd, hi]

/-- `s` after a walk over the rest of the items, `matchedAny` being `any` so far (R108, R109, R111). -/
def State.afterWalk (s : State) (any : Bool) (items : List (Byte × List Byte)) : State :=
  let handled := handledItems s.params items
  { s.withItems handled with disp := .done (any || !handled.isEmpty) (abortsOn s.params items) }

theorem State.afterWalk_nil (s : State) (any : Bool) : s.afterWalk any [] = { s with disp := .done any false } := by
  cases hp : s.params.unknownKind <;>
    simp [State.afterWalk, handledItems, abortsOn, hp, State.withItems, storeItems]

theorem State.afterWalk_cons_of_aborts {s : State} {any : Bool} {x : Byte × List Byte} {xs : List (Byte × List Byte)}
    (h : abortsOn s.params [x] = true) : s.afterWalk any (x :: xs) = { s with disp := .done any true } := by
  simp [State.afterWalk, handledItems_cons_of_aborts h, abortsOn_cons, h, State.withItems, storeItems]

theorem State.afterWalk_cons {s : State} {any : Bool} {x : Byte × List Byte} {xs : List (Byte × List Byte)}
    (h : abortsOn s.params [x] = false) (c : Nat) :
    s.afterWalk any (x :: xs) = { s.withItems [x] with disp := .walk c true }.afterWalk true xs := by
  simp only [State.afterWalk, handledItems_cons h, abortsOn_cons (xs := xs), h, List.isEmpty_cons, Bool.not_false,
    Bool.or_true, Bool.false_or]
  rfl

/-- With fewer than two bytes left the walk ends, and these bytes hold no item (R105). -/
theorem walkItems_payload_end {fuel c : Nat} {any : Bool} {s : State} {payload : List Byte}
    (h : HoldsPayload s payload) (hd : s.disp = .walk c any) (hc : ¬ c + 1 < payload.length) :
    walkItems (fuel + 1) s = .next (s.afterWalk any (itemsFrom fuel (payload.drop c))) := by
  have ⟨hn, _⟩ := h
  have noItem : itemsFrom fuel (payload.drop c) = [] := itemsFrom_short (by rw [List.length_drop]; omega)
  rw [noItem, State.afterWalk_nil]
  exact walkItems_end hd (if_neg (hn ▸ hc))

/-- The walk from cursor `c` does what the items of the bytes from `c` on say. -/
theorem walkItems_payload {fuel c : Nat} {any : Bool} {s : State} {payload : List Byte} (h : HoldsPayload s payload)
    (hd : s.disp = .walk c any) (hf : payload.length ≤ fuel + c) :
    walkItems (fuel + 1) s = .next (s.afterWalk any (itemsFrom fuel (payload.drop c))) := by
  induction fuel generalizing s c any with
  | zero => exact walkItems_payload_end h hd (by omega)
  | succ fuel ih =>
    by_cases hc : c + 1 < payload.length
    · have hitem := h.atItem hd hc
      rw [itemsFrom_drop hc, walkItems_item hd hitem.itemAt, handleItem_payload hitem, andThen_next]
      split_ifs with ha
      · rw [State.afterWalk_cons_of_aborts ha]
        rfl
      · rw [State.afterWalk_cons (Bool.eq_false_iff.2 ha)]
        exact ih h rfl (by omega)
    · exact walkItems_payload_end h hd hc

/-- DISPATCH on an aggregate payload in the buffer: the bitset is cleared, and the walk goes over the items behind the
sub-header (R102, R104). -/
theorem dispatch_payload {s : State} {payload : List Byte} (h : HoldsPayload s payload)
    (ht : s.ptype = s.params.aggType) :
    dispatch s = .next ({ s with bitset := 0 }.afterWalk false (payloadItems payload)) := by
  have hd : s.typeTested = { s with bitset := 0, disp := .walk 3 false } := by simp [State.typeTested, ht]
  have ⟨hn, _⟩ := h
  rw [dispatch_eq_walkItems, ← hn, hd]
  exact walkItems_payload (s := { s with bitset := 0, disp := .walk 3 false }) h rfl (by omega)

/-- Where the walk is not ended by a fault there is a handled item iff there is an item. -/
theorem handledItems_eq_nil {p : Params} {items : List (Byte × List Byte)} (h : abortsOn p items = false) :
    handledItems p items = [] ↔ items = [] := by
  cases items with
  | nil => cases hp : p.unknownKind <;> simp [handledItems, hp]
  | cons x xs =>
    rw [abortsOn_cons, Bool.or_eq_false_iff] at h
    simp [handledItems_cons h.1]

/-- Settles O17: DISPATCH does what the items say, and FRAMER reports its outcome. -/
theorem matchDecodesThePayload : Obligations.MatchDecodesThePayload := by
  intro s payload hd hst ht h items handled halts r
  have hdis := dispatch_payload (s := { s with rxCk := s.acc }) h ht
  have hr : (if halts then .fault else if !handled.isEmpty then .frameOk else .frameBad) = r := by
    cases hh : halts with
    | true => simp [r, hh]
    | false => simp [r, hh, handled, handledItems_eq_nil hh]
  show execFeedChecksumMatch s.acc s = _
  rw [execFeedChecksumMatch_of_dispatch hd hst hdis rfl, finishFeed_frame hdis, ← hr, ← hd]
  rfl

end Sys2Proof.Machine
end

section
/-!
SUPPORT. The checksum tells apart two frames that differ in one payload byte (R94, R97).
-/

namespace Sys2Proof.Machine

/-- Payloads that agree but in cell `i` have different sums where that cell lies in the payload (R97). -/
theorem payloadSum_ne {m m' : Memory} {i k : Nat} (hi : i < k) (hne : (m'.cell i).getD 0 ≠ (m.cell i).getD 0)
    (heq : ∀ j, j ≠ i → m'.cell j = m.cell j) : payloadSum m' k ≠ payloadSum m k := by
  induction k with
  | zero => omega
  | succ k ih =>
    rw [payloadSum, payloadSum]
    by_cases hk : i = k
    · subst hk
      rw [payloadSum_congr fun j hj => heq j (by omega)]
      simpa using hne
    · rw [heq k (Ne.symm hk)]
      simpa using ih (by omega)

/-- In Checksum all of the payload has been received and summed (R23, R24). -/
theorem Inv.acc_checksum {s : State} (h : Inv s) (hst : s.st = .checksum) :
    s.acc = s.statusB + s.ptype + s.n + payloadSum s.buf s.n.toNat := by
  obtain ⟨-, -, hcount⟩ := h.counts
  have hsum := h.sum
  simp only [SumOk, hst] at hcount hsum
  rw [hsum, hcount]

/-- In Checksum every payload cell holds a byte (R58). -/
theorem Inv.cell_checksum {s : State} (h : Inv s) (hst : s.st = .checksum) {i : Nat} (hi : i < s.n.toNat) :
    ∃ b, s.buf.cell i = some b := by
  obtain ⟨hn, _, _, hcell⟩ := h.holdsPayload hst
  exact ⟨_, hcell i (hn ▸ hi)⟩

/-- Settles O54: the two sums differ, so the checksum of the one frame is a wrong one for the other. -/
theorem flippedByteGivesFrameBad : Obligations.FlippedByteGivesFrameBad := by
  intro s t i hs ht hsst htst hstatus hptype hn hi hne heq
  have hbyte : (t.buf.cell i).getD 0 ≠ (s.buf.cell i).getD 0 := by
    obtain ⟨b, hb⟩ := hs.cell_checksum hsst hi
    obtain ⟨b', hb'⟩ := ht.cell_checksum htst (hn ▸ hi)
    simpa [hb, hb'] using hne
  have hck : s.acc ≠ t.acc := by
    rw [hs.acc_checksum hsst, ht.acc_checksum htst, hstatus, hptype, hn]
    simpa using (payloadSum_ne hi hbyte heq).symm
  have hrow : decode t.ctx (.transaction (.feed s.acc)) = .feedChecksumMismatch s.acc := by
    simp [decode, decodeFeed, State.ctx, htst, hck]
  rw [hrow]
  exact feedWrongChecksum t s.acc ht.idle htst hck

end Sys2Proof.Machine
end

section
/-!
SUPPORT. The framer from byte to byte (40_framing.md R86 to R95, R97): one step in each state, and what STX, the header and the payload
of a frame leave in the registers and the buffer.
-/

namespace Sys2Proof.Machine

/-! ### The runs -/

theorem run_one (s : State) : Host.Core.run core 1 s = step s := by
  cases hx : step s with
  | next t => exact run_succ_of_step hx 0
  | fault f => simp only [Host.Core.run, show core.step s = .fault f from hx] <;> rfl
  | refused r => simp only [Host.Core.run, show core.step s = .refused r from hx] <;> rfl

/-- A run that answers a next state begins with a step that does. -/
theorem step_next_of_run {k : Nat} {s t : State} (h : Host.Core.run core (k + 1) s = .next t) :
    ∃ s', step s = .next s' := by
  cases hx : step s with
  | next s' => exact ⟨s', rfl⟩
  | fault f => simp [Host.Core.run, show core.step s = .fault f from hx] at h
  | refused r => simp [Host.Core.run, show core.step s = .refused r from hx] at h

theorem run_succ {k : Nat} {s t : State} (h : Host.Core.run core k s = .next t) :
    Host.Core.run core (k + 1) s = step t := by
  induction k generalizing s with
  | zero =>
    obtain rfl : s = t := Host.Outcome.next.inj h
    exact run_one s
  | succ k ih =>
    obtain ⟨s', hx⟩ := step_next_of_run h
    rw [run_succ_of_step hx] at h ⊢
    exact ih h

/-- `k` steps lead from `s` to `t`, and each of them answers Incomplete. -/
structure RunsQuietly (k : Nat) (s t : State) : Prop where
  run : Host.Core.run core k s = .next t
  quiet : ∀ j < k, ∃ u, Host.Core.run core (j + 1) s = .next u ∧ u.lastResult = .incomplete

theorem RunsQuietly.zero (s : State) : RunsQuietly 0 s s where
  run := rfl
  quiet j hj := absurd hj (Nat.not_lt_zero j)

theorem RunsQuietly.succ {k : Nat} {s t u : State} (h : RunsQuietly k s t) (hx : step t = .next u)
    (hu : u.lastResult = .incomplete) : RunsQuietly (k + 1) s u where
  run := (run_succ h.run).trans hx
  quiet j hj := by
    obtain hj | rfl := Nat.lt_succ_iff_lt_or_eq.1 hj
    · exact h.quiet j hj
    · exact ⟨u, (run_succ h.run).trans hx, hu⟩

/-! ### The step in each state -/

section Bytes

variable {s : State} {b : Byte} {rest : List Transaction} (hw : s.params.wf = true) (hd : s.disp = .idle)
  (hi : s.input = .feed b :: rest)
include hw hd hi

theorem step_feed {i : Instr} (hrow : decodeFeed s.ctx b = i) : step s = exec i { s with input := rest } :=
  hrow ▸ step_of_fetch_row hw (fetch_idle hd hi)

theorem step_awaitStart_stx (hst : s.st = .awaitStart) (hb : b = stx) :
    step s = .next { s with
      count := 0, acc := 0, st := .status, lastResult := .incomplete, resp := .result .incomplete, input := rest } :=
  (step_feed (i := .feedAwaitStartStx) hw hd hi (by simp [decodeFeed, State.ctx, hst, hb])).trans
    (feedInAwaitStart { s with input := rest } hd hst).1

theorem step_status (hst : s.st = .status) :
    step s = .next { s with
      statusB := b, acc := s.acc + b, st := .packetType, lastResult := .incomplete, resp := .result .incomplete
      input := rest } :=
  (step_feed (i := .feedStatus b) hw hd hi (by simp [decodeFeed, State.ctx, hst])).trans
    ((feedInStatusAndPacketType { s with input := rest } b hd).1 hst)

theorem step_packetType (hst : s.st = .packetType) :
    step s = .next { s with
      ptype := b, acc := s.acc + b, st := .length, lastResult := .incomplete, resp := .result .incomplete
      input := rest } :=
  (step_feed (i := .feedPacketType b) hw hd hi (by simp [decodeFeed, State.ctx, hst])).trans
    ((feedInStatusAndPacketType { s with input := rest } b hd).2 hst)

theorem step_length (hst : s.st = .length) (hb : b.toNat ≤ s.params.cap) :
    step s = .next { s with
      n := b, acc := s.acc + b, st := if b = 0 then .checksum else .data, lastResult := .incomplete
      resp := .result .incomplete, input := rest } :=
  (step_feed hw hd hi (by simp [decodeFeed, State.ctx, hst, hb])).trans (feedAdmissibleLength _ b hd hst hb)

theorem step_data (hst : s.st = .data) (hlt : s.count.toNat < s.n.toNat) (hcap : s.n.toNat ≤ s.params.cap) :
    ∃ m : Memory,
      step s = .next { s with
        buf := m, count := s.count + 1, acc := s.acc + b, st := if s.count + 1 = s.n then .checksum else .data
        lastResult := .incomplete, resp := .result .incomplete, input := rest } ∧
      m.cell s.count.toNat = some b ∧ ∀ i, i ≠ s.count.toNat → m.cell i = s.buf.cell i := by
  obtain ⟨m, hx, hsame, hne, -⟩ := feedDataByte { s with input := rest } b hd hst hlt hcap
  exact ⟨m, (step_feed hw hd hi (by simp [decodeFeed, State.ctx, hst])).trans hx, hsame, hne⟩

theorem step_endOfFrame (hst : s.st = .endOfFrame) :
    step s = .next { s with
      etx := b, st := .awaitStart, lastResult := .incomplete, resp := .result .incomplete, input := rest } :=
  (step_feed hw hd hi (by simp [decodeFeed, State.ctx, hst])).trans (feedInEndOfFrame _ b hd hst)

end Bytes

/-! ### A frame -/

/-- The frame's sum after the first `k` payload bytes (R97). -/
def frameSum (sb ty : Byte) (payload : List Byte) (k : Nat) : Byte :=
  BitVec.ofNat 8 (sb.toNat + ty.toNat + payload.length + ((payload.take k).map BitVec.toNat).sum)

/-- `s` after STX, the header and the first `k` payload bytes of a frame, with `m` in the buffer. -/
def State.inFrame (s : State) (sb ty : Byte) (payload : List Byte) (rest : List Transaction) (k : Nat) (m : Memory) :
    State :=
  { s with
    st := if k = payload.length then .checksum else .data, statusB := sb, ptype := ty
    n := BitVec.ofNat 8 payload.length, count := BitVec.ofNat 8 k, acc := frameSum sb ty payload k, buf := m
    lastResult := .incomplete, resp := .result .incomplete, input := (payload.drop k).map .feed ++ rest }

theorem frameSum_zero (sb ty : Byte) (payload : List Byte) :
    frameSum sb ty payload 0 = 0 + sb + ty + BitVec.ofNat 8 payload.length := by
  simp [frameSum, BitVec.ofNat_add]

theorem frameSum_succ (sb ty : Byte) {payload : List Byte} {k : Nat} (hk : k < payload.length) :
    frameSum sb ty payload (k + 1) = frameSum sb ty payload k + payload[k] := by
  rw [frameSum, List.take_succ_eq_append_getElem hk, List.map_append, List.sum_append]
  simp [frameSum, BitVec.ofNat_add, BitVec.add_assoc, -List.map_take]

/-- A byte counts up to CAP without wrapping (R8). -/
theorem toNat_ofNat_of_le_cap {p : Params} (hw : p.wf = true) {k : Nat} (hk : k ≤ p.cap) :
    (BitVec.ofNat 8 k).toNat = k := by
  have ⟨_, h255⟩ := (Params.wf_iff p).1 hw
  exact Nat.mod_eq_of_lt (by omega)

section Frame

variable {s : State} {sb ty : Byte} {payload : List Byte} {rest : List Transaction} (hw : s.params.wf = true)
  (hd : s.disp = .idle) (hcap : payload.length ≤ s.params.cap)
include hw hd hcap

/-- STX, status, type and length (R86 to R89). -/
theorem runsQuietly_header (hst : s.st = .awaitStart)
    (hi : s.input = ([stx, sb, ty, BitVec.ofNat 8 payload.length] ++ payload).map .feed ++ rest) :
    RunsQuietly 4 s (s.inFrame sb ty payload rest 0 s.buf) := by
  have hn := toNat_ofNat_of_le_cap hw hcap
  have h1 := (RunsQuietly.zero s).succ (step_awaitStart_stx hw hd hi hst rfl) rfl
  have h2 := h1.succ (step_status hw hd rfl rfl) rfl
  have h3 := h2.succ (step_packetType hw hd rfl rfl) rfl
  have h4 := h3.succ (step_length hw hd rfl rfl (hn.trans_le hcap)) rfl
  have hzero : BitVec.ofNat 8 payload.length = 0 ↔ 0 = payload.length := by
    rw [← BitVec.toNat_inj, hn]; simp [eq_comm]
  simp only [State.inFrame, frameSum_zero, ← hzero]
  exact h4

/-- One payload byte (R92). -/
theorem step_inFrame {k : Nat} (hk : k < payload.length) (m : Memory) :
    ∃ m' : Memory,
      step (s.inFrame sb ty payload rest k m) = .next (s.inFrame sb ty payload rest (k + 1) m') ∧
      m'.cell k = some payload[k] ∧ ∀ i, i ≠ k → m'.cell i = m.cell i := by
  have hn := toNat_ofNat_of_le_cap hw hcap
  have hcount := toNat_ofNat_of_le_cap hw (hk.le.trans hcap)
  have hnext := toNat_ofNat_of_le_cap hw (Nat.le_trans hk hcap)
  have hi : (s.inFrame sb ty payload rest k m).input =
      .feed payload[k] :: ((payload.drop (k + 1)).map .feed ++ rest) := by
    rw [State.inFrame, List.drop_eq_getElem_cons hk]
    rfl
  have hlt : (BitVec.ofNat 8 k).toNat < (BitVec.ofNat 8 payload.length).toNat := by omega
  obtain ⟨m', hx, hsame, hne⟩ := step_data (b := payload[k]) (s := s.inFrame sb ty payload rest k m) hw hd hi (if_neg hk.ne) hlt
    (hn.trans_le hcap)
  have hend : BitVec.ofNat 8 k + 1 = BitVec.ofNat 8 payload.length ↔ k + 1 = payload.length := by
    rw [show (1 : Byte) = BitVec.ofNat 8 1 from rfl, ← BitVec.ofNat_add, ← BitVec.toNat_inj, hnext, hn]
  refine ⟨m', ?_, (congrArg m'.cell hcount).symm.trans hsame, fun i h => hne i (hcount.symm ▸ h)⟩
  rw [hx]
  simp only [State.inFrame, frameSum_succ sb ty hk, BitVec.ofNat_add, ← hend]
  rfl

/-- STX, the header and `k` payload bytes leave these in the buffer, and the rest of it as it was. -/
theorem runsQuietly_inFrame (hst : s.st = .awaitStart)
    (hi : s.input = ([stx, sb, ty, BitVec.ofNat 8 payload.length] ++ payload).map .feed ++ rest) {k : Nat}
    (hk : k ≤ payload.length) :
    ∃ m : Memory, RunsQuietly (4 + k) s (s.inFrame sb ty payload rest k m) ∧
      (∀ i, (h : i < k) → m.cell i = some payload[i]) ∧ ∀ i, k ≤ i → m.cell i = s.buf.cell i := by
  induction k with
  | zero => exact ⟨s.buf, runsQuietly_header hw hd hcap hst hi, by simp, fun _ _ => rfl⟩
  | succ k ih =>
    obtain ⟨m, hrun, hin, hout⟩ := ih (by omega)
    obtain ⟨m', hx, hsame, hne⟩ := step_inFrame (rest := rest) (sb := sb) (ty := ty) hw hd hcap hk m
    refine ⟨m', hrun.succ hx rfl, fun i h => ?_, fun i h => ?_⟩
    · obtain h | rfl := Nat.lt_succ_iff_lt_or_eq.1 h
      · rw [hne i h.ne, hin i h]
      · exact hsame
    · rw [hne i (by omega), hout i (by omega)]

end Frame

/-- Settles O52: the state after the last payload byte, byte by byte. -/
theorem frameFillsTheBuffer : Obligations.FrameFillsTheBuffer := by
  intro s sb ty payload rest hw hd hst hcap hi
  obtain ⟨m, hrun, hin, hout⟩ := runsQuietly_inFrame hw hd hcap hst hi le_rfl
  refine ⟨m, ?_, hin, hout⟩
  rw [hrun.run]
  simp [State.inFrame, frameSum]

end Sys2Proof.Machine
end

section
/-!
SUPPORT. The end of a frame (40_framing.md R93, R95, R100) and how many bytes the framer can be away from AwaitStart (R99).
-/

namespace Sys2Proof.Machine

/-! ### The checksum byte -/

/-- DISPATCH on a packet of another type returns without looking at the payload (R103). -/
theorem dispatch_otherType {s : State} (ht : s.ptype ≠ s.params.aggType) :
    dispatch s = .next { s with bitset := 0, disp := .done false false } := by
  rw [dispatch_eq_walkItems, State.typeTested, if_neg ht]
  rfl

theorem execFeedChecksumMatch_otherType {s : State} (hd : s.disp = .idle) (hst : s.st = .checksum)
    (ht : s.ptype ≠ s.params.aggType) :
    execFeedChecksumMatch s.acc s = .next { s with
      rxCk := s.acc, bitset := 0, st := .endOfFrame, lastResult := .frameBad, resp := .result .frameBad } := by
  have hdis := dispatch_otherType (s := { s with rxCk := s.acc }) ht
  rw [execFeedChecksumMatch_of_dispatch hd hst hdis rfl, finishFeed_frame hdis, ← hd]
  rfl

/-- The payload of a frame of this type does not halt the block (R93, R109). -/
def DispatchReturns (p : Params) (ty : Byte) (payload : List Byte) : Prop :=
  ty = p.aggType → abortsOn p (payloadItems payload) = false

/-- The result of a frame with a right checksum that does not halt the block (R93). -/
def frameResult (p : Params) (ty : Byte) (payload : List Byte) : ResultCode :=
  if ty = p.aggType ∧ payloadItems payload ≠ [] then .frameOk else .frameBad

theorem execFeedChecksumMatch_returns {s : State} {payload : List Byte} (hd : s.disp = .idle) (hst : s.st = .checksum)
    (hp : HoldsPayload s payload) (hr : DispatchReturns s.params s.ptype payload) :
    ∃ bits o, execFeedChecksumMatch s.acc s = .next { s with
      rxCk := s.acc, bitset := bits, oreg := o, st := .endOfFrame
      lastResult := frameResult s.params s.ptype payload
      resp := .result (frameResult s.params s.ptype payload) } := by
  by_cases ht : s.ptype = s.params.aggType
  · have hx : execFeedChecksumMatch s.acc s = _ := matchDecodesThePayload s payload hd hst ht hp
    have hfr : frameResult s.params s.ptype payload = if payloadItems payload = [] then .frameBad else .frameOk := by
      simp [frameResult, ht]
    rw [hx, hfr, hr ht]
    exact ⟨_, _, rfl⟩
  · have hfr : frameResult s.params s.ptype payload = .frameBad := by simp [frameResult, ht]
    rw [execFeedChecksumMatch_otherType hd hst ht, hfr]
    exact ⟨_, _, rfl⟩

theorem step_checksum_match {s : State} {b : Byte} {rest : List Transaction} (hw : s.params.wf = true)
    (hd : s.disp = .idle) (hi : s.input = .feed b :: rest) (hst : s.st = .checksum) (hb : b = s.acc) :
    step s = execFeedChecksumMatch s.acc { s with input := rest } :=
  step_feed (i := .feedChecksumMatch s.acc) hw hd hi (by simp [decodeFeed, State.ctx, hst, hb])

/-! ### The end of a frame -/

/-- The right checksum behind the payload reports the frame's result, and the byte after it ends the frame (R93, R95). -/
theorem steps_frameEnd {s : State} {etx : Byte} {payload : List Byte} {rest : List Transaction}
    (hw : s.params.wf = true) (hd : s.disp = .idle) (hst : s.st = .checksum) (hp : HoldsPayload s payload)
    (hr : DispatchReturns s.params s.ptype payload) (hi : s.input = .feed s.acc :: .feed etx :: rest) :
    ∃ t u, step s = .next t ∧ t.lastResult = frameResult s.params s.ptype payload ∧
      step t = .next u ∧ u.lastResult = .incomplete ∧ u.st = .awaitStart ∧ u.etx = etx ∧ u.input = rest := by
  obtain ⟨bits, o, hx⟩ := execFeedChecksumMatch_returns (s := { s with input := .feed etx :: rest }) hd hst hp hr
  exact ⟨_, _, (step_checksum_match hw hd hi hst rfl).trans hx, rfl, step_endOfFrame hw hd rfl rfl, rfl, rfl, rfl, rfl⟩

theorem holdsPayload_inFrame {s : State} {sb ty : Byte} {payload : List Byte} {rest : List Transaction} {m : Memory}
    (hw : s.params.wf = true) (hcap : payload.length ≤ s.params.cap)
    (hm : ∀ i, (h : i < payload.length) → m.cell i = some payload[i]) :
    HoldsPayload (s.inFrame sb ty payload rest payload.length m) payload := by
  have hn := toNat_ofNat_of_le_cap hw hcap
  exact ⟨hn.symm, rfl, hn.trans_le hcap, hm⟩

/-- Settles O53: the bytes up to the payload's end answer Incomplete, and two more steps end the frame. -/
theorem frameReportsOnce : Obligations.FrameReportsOnce := by
  intro s sb ty etx payload rest h hst hcap hr ck hi j hj
  obtain ⟨m, hrun, hin, -⟩ := runsQuietly_inFrame (rest := .feed ck :: .feed etx :: rest) (sb := sb) (ty := ty)
    h.params h.idle hcap hst (by simpa using hi) le_rfl
  have hck : ck = frameSum sb ty payload payload.length := by simp [ck, frameSum]
  obtain ⟨t, u, ht, htr, hu, hur, hend⟩ := steps_frameEnd (etx := etx) (rest := rest)
    (s := s.inFrame sb ty payload (.feed ck :: .feed etx :: rest) payload.length m) h.params h.idle (if_pos rfl)
    (holdsPayload_inFrame h.params hcap hin) hr (by simp [State.inFrame, hck])
  have hrun1 := (run_succ hrun.run).trans ht
  have hrun2 := (run_succ hrun1).trans hu
  rw [Nat.add_comm 4] at hrun1 hrun2
  obtain hj | rfl | rfl : j < 4 + payload.length ∨ j = payload.length + 4 ∨ j = payload.length + 5 := by omega
  · obtain ⟨v, hv, hvr⟩ := hrun.quiet j hj
    exact ⟨v, hv, by rw [hvr, if_pos (by omega)], fun hj' => by omega⟩
  · exact ⟨t, hrun1, by rw [htr, if_neg (by omega)]; rfl, fun hj' => by omega⟩
  · exact ⟨u, hrun2, by rw [hur, if_pos (by omega)], fun _ => hend⟩

/-! ### The way back to AwaitStart -/

/-- How many bytes at most lead to AwaitStart or to Halted (R99). -/
def State.bytesLeft (s : State) : Nat :=
  match s.st with
  | .awaitStart => 0
  | .status => s.params.cap + 5
  | .packetType => s.params.cap + 4
  | .length => s.params.cap + 3
  | .data => s.n.toNat - s.count.toNat + 2
  | .checksum => 2
  | .endOfFrame => 1
  | .halted => 0

theorem Inv.bytesLeft_le {s : State} (h : Inv s) : s.bytesLeft ≤ s.params.cap + 5 := by
  obtain ⟨-, hcap, -⟩ := h.counts
  unfold State.bytesLeft
  split <;> omega

/-- The block is halted, and by a policy (R91, R109). -/
def HaltedByPolicy (s : State) : Prop :=
  s.st = .halted ∧ (s.params.unknownKind = .abort ∨ s.params.overflow = .abort)

/-- A byte leads nearer to AwaitStart, or the block halts by a policy. -/
def Nearer (s t : State) : Prop := t.st ≠ .halted ∧ t.bytesLeft < s.bytesLeft ∨ HaltedByPolicy t

/-- The FEED of the right checksum ends in EndOfFrame, but where the walk meets an out-of-range kind under Abort (R93). -/
theorem execFeedChecksumMatch_nearer {s t : State} (h : Inv s) (hst : s.st = .checksum)
    (hx : execFeedChecksumMatch s.acc s = .next t) : Nearer s t := by
  have hp := h.holdsPayload hst
  by_cases hr : DispatchReturns s.params s.ptype s.payload
  · obtain ⟨bits, o, hx'⟩ := execFeedChecksumMatch_returns h.idle hst hp hr
    obtain rfl := Host.Outcome.next.inj (hx'.symm.trans hx)
    exact .inl ⟨by simp, by simp [State.bytesLeft, hst]⟩
  · obtain ⟨ht, ha⟩ : s.ptype = s.params.aggType ∧ abortsOn s.params (payloadItems s.payload) = true := by
      simpa [DispatchReturns] using hr
    have hx' : execFeedChecksumMatch s.acc s = _ := matchDecodesThePayload s s.payload h.idle hst ht hp
    obtain rfl := Host.Outcome.next.inj (hx'.symm.trans hx)
    have hpolicy : s.params.unknownKind = .abort := eq_of_beq (Bool.and_eq_true_iff.1 ha).1
    exact .inr ⟨if_pos ha, .inl hpolicy⟩

/-- Behind the length byte the payload bytes still missing, and two more, are the most there can be (R89, R92). -/
theorem nearer_of_inPayload {s t : State} {complete : Prop} [Decidable complete]
    (ht : t.st = if complete then .checksum else .data) (hlt : t.n.toNat - t.count.toNat + 2 < s.bytesLeft) :
    Nearer s t := by
  have hrun : t.st ≠ .halted ∧ t.bytesLeft ≤ t.n.toNat - t.count.toNat + 2 := by
    unfold State.bytesLeft
    split_ifs at ht <;> simp [ht]
  exact .inl ⟨hrun.1, by omega⟩

section Nearer

variable {s t : State} {b : Byte} {rest : List Transaction} (h : Inv s) (hi : s.input = .feed b :: rest)
  (hx : step s = .next t)
include h hi hx

/-- A length byte above CAP rejects the frame or halts the block (R90, R91). -/
theorem step_overflow_nearer (hst : s.st = .length) (hb : s.params.cap < b.toNat) : Nearer s t := by
  have hb' : ¬ b.toNat ≤ s.params.cap := Nat.not_le.2 hb
  have hover := feedOverflowingLength { s with input := rest } b h.idle hst hb
  cases hp : s.params.overflow with
  | failClosed =>
    have hs := step_feed (i := .feedLengthOverflowFailclosed b) h.params h.idle hi
      (by simp [decodeFeed, State.ctx, hst, hb', hp])
    cases (hs.trans (hover.1 hp)).symm.trans hx
    exact .inl ⟨by simp, by simp [State.bytesLeft, hst]⟩
  | abort =>
    have hs := step_feed (i := .feedLengthOverflowAbort b) h.params h.idle hi
      (by simp [decodeFeed, State.ctx, hst, hb', hp])
    cases (hs.trans (hover.2 hp)).symm.trans hx
    exact .inr ⟨rfl, .inr hp⟩

theorem step_checksum_nearer (hst : s.st = .checksum) : Nearer s t := by
  by_cases hb : b = s.acc
  · exact execFeedChecksumMatch_nearer (s := { s with input := rest }) (h.with_input rest) hst
      ((step_checksum_match h.params h.idle hi hst hb).symm.trans hx)
  · have hs := step_feed (i := .feedChecksumMismatch b) h.params h.idle hi (by simp [decodeFeed, State.ctx, hst, hb])
    cases (hs.trans (feedWrongChecksum { s with input := rest } b h.idle hst hb)).symm.trans hx
    exact .inl ⟨by simp, by simp [State.bytesLeft, hst]⟩

/-- A byte in the middle of a frame. -/
theorem step_nearer (hwait : s.st ≠ .awaitStart) (hrun : s.st ≠ .halted) : Nearer s t := by
  obtain ⟨-, hcap, hcount⟩ := h.counts
  cases hst : s.st with
  | awaitStart => exact absurd hst hwait
  | halted => exact absurd hst hrun
  | status =>
    cases (step_status h.params h.idle hi hst).symm.trans hx
    exact .inl ⟨by simp, by simp [State.bytesLeft, hst]⟩
  | packetType =>
    cases (step_packetType h.params h.idle hi hst).symm.trans hx
    exact .inl ⟨by simp, by simp [State.bytesLeft, hst]⟩
  | length =>
    obtain hb | hb := le_or_gt b.toNat s.params.cap
    · cases (step_length h.params h.idle hi hst hb).symm.trans hx
      exact nearer_of_inPayload rfl (by simp only [State.bytesLeft, hst]; omega)
    · exact step_overflow_nearer h hi hx hst hb
  | data =>
    simp only [hst] at hcount
    obtain ⟨m, hs, -, -⟩ := step_data h.params h.idle hi hst hcount hcap
    cases hs.symm.trans hx
    have hnext : (s.count + 1).toNat = s.count.toNat + 1 := by
      have hn := s.n.isLt
      exact BitVec.toNat_add_of_lt (by simp; omega)
    exact nearer_of_inPayload rfl (by simp only [State.bytesLeft, hst, hnext]; omega)
  | checksum => exact step_checksum_nearer h hi hx hst
  | endOfFrame =>
    cases (step_endOfFrame h.params h.idle hi hst).symm.trans hx
    exact .inl ⟨by simp, by simp [State.bytesLeft, hst]⟩

end Nearer

/-- Under the invariant a pending byte is taken (R57, R58), and the invariant and the parameters are kept. -/
theorem step_feed_inv {s : State} {b : Byte} {rest : List Transaction} (h : Inv s) (hi : s.input = .feed b :: rest) :
    ∃ t, step s = .next t ∧ Inv t ∧ t.input = rest ∧ t.params = s.params := by
  have hs : step s = exec (decodeFeed s.ctx b) { s with input := rest } := step_feed h.params h.idle hi rfl
  obtain ⟨t, hx⟩ : Completes (exec (decodeFeed s.ctx b) { s with input := rest }) :=
    exec_feed_completes (h.with_input rest) (decodeFeed_format s.ctx b) (decodeFeed_wf s.ctx b)
  have keeps := exec_writesByRules (s := { s with input := rest }) (encode_decode_transaction s.ctx (.feed b))
    (by simp) hx
  have ht := hs.trans hx
  exact ⟨t, ht, step_inv h ht, keeps.input, keeps.params⟩

theorem State.bytesLeft_eq_zero {s : State} (hrun : s.st ≠ .halted) : s.bytesLeft = 0 ↔ s.st = .awaitStart := by
  cases hst : s.st <;> simp_all [State.bytesLeft]

/-- Enough bytes lead to AwaitStart, or the block halts on the way. -/
theorem run_to_awaitStart {n : Nat} {s : State} (h : Inv s) (hrun : s.st ≠ .halted)
    (hfeed : ∀ tr ∈ s.input, ∃ b, tr = .feed b) (hn : s.bytesLeft ≤ n) (hlen : n ≤ s.input.length) :
    ∃ k ≤ n, ∃ t, Host.Core.run core k s = .next t ∧ t.input = s.input.drop k ∧ t.params = s.params ∧
      (t.st = .awaitStart ∨ HaltedByPolicy t) := by
  induction n generalizing s with
  | zero => exact ⟨0, le_rfl, s, rfl, rfl, rfl, .inl ((State.bytesLeft_eq_zero hrun).1 (Nat.le_zero.1 hn))⟩
  | succ n ih =>
    by_cases hwait : s.st = .awaitStart
    · exact ⟨0, Nat.zero_le _, s, rfl, rfl, rfl, .inl hwait⟩
    obtain ⟨tr, rest, hi⟩ := List.exists_cons_of_length_pos (Nat.lt_of_lt_of_le n.succ_pos hlen)
    rw [hi, List.forall_mem_cons] at hfeed
    obtain ⟨⟨b, rfl⟩, hfeed⟩ := hfeed
    obtain ⟨t, hx, ht, rfl, hp⟩ := step_feed_inv h hi
    rw [hi] at hlen ⊢
    obtain ⟨hrun', hlt⟩ | hhalt := step_nearer h hi hx hwait hrun
    · obtain ⟨k, hk, u, hu, hinput, hup, hend⟩ := ih ht hrun' hfeed (by omega) (Nat.le_of_succ_le_succ hlen)
      exact ⟨k + 1, by omega, u, (run_succ_of_step hx k).trans hu, hinput, hup.trans hp, hend⟩
    · exact ⟨1, by omega, t, (run_one s).trans hx, rfl, hp, .inr hhalt⟩

/-- Settles O51: no state is further from AwaitStart than CAP + 5 bytes. -/
theorem framerReturnsToAwaitStart : Obligations.FramerReturnsToAwaitStart := by
  intro s h hst hfeed hlen
  obtain ⟨k, hk, t, hrun, hinput, hp, hend⟩ := run_to_awaitStart h hst hfeed h.bytesLeft_le hlen
  unfold HaltedByPolicy at hend
  rw [hp] at hend
  exact ⟨k, hk, t, hrun, hinput, hend⟩

end Sys2Proof.Machine
end

section
/-!
SUPPORT. The packet-type rows and the item rows where the table selects them (41_dispatch.md R102 to R110), and how far an
item moves the cursor (R26).
-/

namespace Sys2Proof.Machine

/-! ### The packet type -/

theorem dispatchRow_of_selected {s : State} {selected : Bool} (hd : s.disp = .entry) (hs : selected = true) (s' : State) :
    dispatchRow s selected s' = .next s' :=
  if_pos ⟨hd, hs⟩

/-- Settles O18: the row is selected by the type, and its effect asks for nothing else. -/
theorem dispatchRowsClearTheBitset : Obligations.DispatchRowsClearTheBitset := by
  intro s hd
  exact ⟨fun ht => dispatchRow_of_selected hd (beq_iff_eq.2 ht) _,
    fun ht => dispatchRow_of_selected hd (by simp [ht]) _⟩

/-- Settles O16: DISPATCH returns (false, false) from the packet type alone. -/
theorem matchOfANonAggregateFrame : Obligations.MatchOfANonAggregateFrame :=
  fun _ hd hst ht => execFeedChecksumMatch_otherType hd hst ht

/-! ### The items -/

section AtItem

variable {s : State} {c : Nat} {any : Bool} {k l : Byte} {value : List Byte} (h : AtItem s c any k l value)
include h

theorem itemRow_of_selected {selected : Bool} (hs : selected = true) (body : Nat → Bool → Result) :
    itemRow s k l selected body = body c any := by
  rw [hs, itemRow_atItem h]

/-- The header lies in a payload of at most 255 bytes, and L is a byte (R26, R110). -/
theorem AtItem.nextCursor_le : c + 2 + l.toNat ≤ 510 := by
  have hin := h.inside
  have hn := s.n.isLt
  have hl := l.isLt
  omega

end AtItem

/-- Settles O27: the row is selected by a kind that is in range and none of the eight. -/
theorem undecodedItemSetsItsBit : Obligations.UndecodedItemSetsItsBit := by
  intro s c any k l value h hk hne
  exact itemRow_of_selected h (by simp [hk, hne]) _

/-- Settles O28: the row is selected by a kind above MAX_KIND under Skip. -/
theorem outOfRangeItemIsSkipped : Obligations.OutOfRangeItemIsSkipped := by
  intro s c any k l value h hk hp
  exact itemRow_of_selected h (by simp [hk, hp]) _

/-- Settles O29: the row is selected by a kind above MAX_KIND under Abort. -/
theorem outOfRangeItemAborts : Obligations.OutOfRangeItemAborts := by
  intro s c any k l value h hk hp
  exact itemRow_of_selected h (by simp [hk, hp]) _

/-- Settles O30: the decoded row is the chain of R112, which at an item that does not abort handles this one item. -/
theorem itemsAreHandledByTheirKind : Obligations.ItemsAreHandledByTheirKind := by
  intro s c any k l value h hskip
  refine ⟨(exec_decodeItem s k l).trans ?_, h.nextCursor_le⟩
  have noAbort : ¬ abortsOn s.params [(k, value)] = true := by
    rw [abortsOn_singleton]
    rintro ⟨hk, hp⟩
    simp [hskip hk] at hp
  rw [handleItem_payload h, if_neg noAbort]
  rfl

end Sys2Proof.Machine
end

section
/-!
SUPPORT. The big-endian reads (42_decoders.md R114) and the eight decoded item rows (R106, R118 to R125): a row stores
what its decoder gives as wire fields.
-/

namespace Sys2Proof.Machine

/-! ### Big-endian reads -/

section Reads

variable {s : State} {p : Nat}

theorem State.be16_of_be8 {hi lo : Byte} (h : s.be8 p = .ok hi) (h' : s.be8 (p + 1) = .ok lo) :
    s.be16 p = .ok (hi ++ lo) := by
  rw [State.be16, h, h']
  rfl

theorem State.be32_of_be16 {hi lo : BitVec 16} (h : s.be16 p = .ok hi) (h' : s.be16 (p + 2) = .ok lo) :
    s.be32 p = .ok (hi ++ lo) := by
  rw [State.be32, h, h']
  rfl

theorem State.be64_of_be32 {hi lo : BitVec 32} (h : s.be32 p = .ok hi) (h' : s.be32 (p + 4) = .ok lo) :
    s.be64 p = .ok (hi ++ lo) := by
  rw [State.be64, h, h']
  rfl

end Reads

/-- Two pairs of bytes side by side are the four bytes in a row. -/
theorem append_bytePair (a b c d : Byte) : (a ++ b) ++ (c ++ d) = a ++ b ++ c ++ d := by
  simp only [BitVec.append_assoc, BitVec.cast_eq]

/-- Two words of four bytes side by side are the eight bytes in a row. -/
theorem append_fourBytes (x : BitVec 32) (a b c d : Byte) : x ++ (a ++ b ++ c ++ d) = x ++ a ++ b ++ c ++ d := by
  simp only [BitVec.append_assoc, BitVec.cast_eq]

/-- Settles O31: each read puts two reads of half its width side by side. -/
theorem bigEndianReads : Obligations.BigEndianReads := by
  intro s p has
  have read8 : ∀ i b, has i b → s.be8 i = .ok b := fun i b ⟨hcap, hcount, hb⟩ => State.bufRead_ok hcount hcap hb
  have read16 : ∀ i b0 b1, has i b0 → has (i + 1) b1 → s.be16 i = .ok (b0 ++ b1) := fun i b0 b1 h0 h1 =>
    State.be16_of_be8 (read8 i b0 h0) (read8 (i + 1) b1 h1)
  have read32 : ∀ i b0 b1 b2 b3, has i b0 → has (i + 1) b1 → has (i + 2) b2 → has (i + 3) b3 →
      s.be32 i = .ok (b0 ++ b1 ++ b2 ++ b3) := fun i b0 b1 b2 b3 h0 h1 h2 h3 =>
    append_bytePair b0 b1 b2 b3 ▸
      State.be32_of_be16 (read16 i b0 b1 h0 h1) (read16 (i + 2) b2 b3 h2 h3)
  refine ⟨read8 p, read16 p, read32 p, fun b0 b1 b2 b3 b4 b5 b6 b7 h0 h1 h2 h3 h4 h5 h6 h7 => ?_⟩
  rw [State.be64_of_be32 (read32 p b0 b1 b2 b3 h0 h1 h2 h3) (read32 (p + 4) b4 b5 b6 b7 h4 h5 h6 h7),
    append_fourBytes]

/-! ### The decoded items

An item row stores `d.store s.oreg`, `d` the fields of its decoder; the slots in which `d` is unwritten stay by
computation. -/

/-- Settles O19, by the fields that DECODE_TIME gives. -/
theorem timeItemStoresItsFields : Obligations.TimeItemStoresItsFields := by
  intro s c any l value h
  exact decodedItem_atItem h (decodeTime_wire h.valueAt)

/-- Settles O20, by the fields that DECODE_POSITION gives. -/
theorem positionItemStoresItsFields : Obligations.PositionItemStoresItsFields := by
  intro s c any l value h
  exact decodedItem_atItem h (decodePosition_wire h.valueAt)

/-- A bit of the flags byte is set only where the item has that byte (R120). -/
theorem getLsbD_headD_iff (value : List Byte) (bit : Nat) :
    (value.headD 0).getLsbD bit = true ↔ ∃ flags rest, value = flags :: rest ∧ flags.getLsbD bit = true := by
  cases value with
  | nil => simp
  | cons flags rest => simp

/-- Settles O21: DECODE_VELOCITY gives a field only under its gate bit, and a field not given keeps its value. -/
theorem velocityItemStoresGatedFields : Obligations.VelocityItemStoresGatedFields := by
  intro s c any l value h set
  refine ⟨_, decodedItem_atItem h (decodeVelocity_wire h.valueAt), ?_⟩
  have gate : ∀ bit, (value.headD 0).getLsbD bit = true ↔ set bit := getLsbD_headD_iff value
  refine ⟨fun h0 => ?_, fun h0 => ?_, fun h2 => ?_, fun h2 => ?_⟩
  · simp only [VelSlot.store, if_pos ((gate 0).2 h0), and_self]
  · simp only [VelSlot.store, if_neg (mt (gate 0).1 h0), Option.none_or, and_self]
  · simp only [VelSlot.store, if_pos ((gate 2).2 h2)]
  · simp only [VelSlot.store, if_neg (mt (gate 2).1 h2), Option.none_or]

/-- Settles O22, by the field that DECODE_DOP gives. -/
theorem dopItemStoresItsField : Obligations.DopItemStoresItsField := by
  intro s c any l value h
  exact decodedItem_atItem h (decodeDop_wire h.valueAt)

/-- Settles O23, by the fields that DECODE_SIGMA gives. -/
theorem sigmaItemStoresItsFields : Obligations.SigmaItemStoresItsFields := by
  intro s c any l value h
  exact decodedItem_atItem h (decodeSigma_wire h.valueAt)

/-- Settles O24, by the fields that DECODE_INS gives. -/
theorem insItemStoresItsFields : Obligations.InsItemStoresItsFields := by
  intro s c any l value h
  exact decodedItem_atItem h (decodeIns_wire h.valueAt)

/-- Settles O25, by the fields that DECODE_INSRMS gives. -/
theorem insrmsItemStoresItsFields : Obligations.InsrmsItemStoresItsFields := by
  intro s c any l value h
  exact decodedItem_atItem h (decodeInsrms_wire h.valueAt)

/-- Settles O26, by the fields that DECODE_MSL gives. -/
theorem mslItemStoresDegrees : Obligations.MslItemStoresDegrees := by
  intro s c any l value h
  exact decodedItem_atItem h (decodeMsl_wire h.valueAt)

end Sys2Proof.Machine
end

section
/-!
SUPPORT. Decoding the same frame again (42_decoders.md R127): the same fields stored twice are stored once.
-/

namespace Sys2Proof.Machine

/-- What the FEED of a matching checksum byte leaves, given what it stores and how it ends (R93). -/
def State.afterMatch (s : State) (d : Oreg) (bits : BitVec 256) (st : FsmState) (r : ResultCode) : State :=
  { s with
    rxCk := s.acc, oreg := d.store s.oreg, bitset := bits, st := st
    haltCause := if st = .halted then .unknownKind else s.haltCause, lastResult := r, resp := .result r }

/-- Every field but the register file and the cause is set anew, and these two are left as they are the second time. -/
theorem State.afterMatch_again (s : State) (d : Oreg) (bits : BitVec 256) (st : FsmState) (r : ResultCode) :
    { s.afterMatch d bits st r with st := .checksum }.afterMatch d bits st r = s.afterMatch d bits st r := by
  have cause : (if st = .halted then .unknownKind else if st = .halted then .unknownKind else s.haltCause) =
      if st = .halted then HaltCause.unknownKind else s.haltCause := by
    split_ifs <;> rfl
  simp only [State.afterMatch, Oreg.store_self, cause]

/-- Settles O56: the frame is still in the buffer, so the FEED stores the same fields with the same outcome (R58). -/
theorem decodingTwiceIsDecodingOnce : Obligations.DecodingTwiceIsDecodingOnce := by
  intro s t b h
  obtain ⟨hidle, hst, rfl, -⟩ := execFeedChecksumMatch_next h
  obtain ⟨d, bits, hframe⟩ := decodingDependsOnlyOnTheFrame s t h
  have ht : t = s.afterMatch d bits t.st t.lastResult :=
    Host.Outcome.next.inj (h.symm.trans (hframe s rfl rfl rfl rfl hidle hst fun _ _ => rfl))
  generalize t.st = st, t.lastResult = r at ht hframe
  subst ht
  exact (hframe { s.afterMatch d bits st r with st := .checksum } rfl rfl rfl rfl hidle rfl fun _ _ => rfl).trans
    (congrArg _ (s.afterMatch_again d bits st r))

end Sys2Proof.Machine
end

section
/-!
SUPPORT. The default RAD2DEG of a finite value (42_decoders.md R126): an exact product packed by `roundMagnitude` is the
product rounded to nearest, ties to even.
-/

namespace Sys2Proof.Machine

/-! ### Whole numbers of units

A number `v` is rounded to the `z` units `w` that are at most half a unit away from it. -/

section Units

variable {w v : ℚ} (hw : 0 < w)
include hw

/-- A natural number of units is rounded past no natural number of units. -/
theorem round_le_of_lt {q b : ℕ} (near : 2 * |q * w - v| ≤ w) (h : v < b * w) : q ≤ b := by
  have hlt : (q : ℚ) * w < (b + 1 : ℕ) * w := by
    push_cast
    linarith [le_abs_self (q * w - v)]
  exact Nat.lt_succ_iff.1 (Nat.cast_lt.1 (lt_of_mul_lt_mul_right hlt hw.le))

theorem le_round_of_le {q b : ℕ} (near : 2 * |q * w - v| ≤ w) (h : b * w ≤ v) : b ≤ q := by
  have hlt : (b : ℚ) * w < (q + 1 : ℕ) * w := by
    push_cast
    linarith [neg_abs_le (q * w - v)]
  exact Nat.lt_succ_iff.1 (Nat.cast_lt.1 (lt_of_mul_lt_mul_right hlt hw.le))

variable {z : ℤ} (near : 2 * |z * w - v| ≤ w)
include near

/-- No other whole number of units is nearer, and one is as near only where `v` lies halfway between two. -/
theorem nearest_unit (z' : ℤ) :
    |z * w - v| ≤ |z' * w - v| ∧ (|z * w - v| = |z' * w - v| → z' ≠ z → 2 * |z * w - v| = w) := by
  by_cases h : z' = z
  · exact ⟨h ▸ le_rfl, fun _ hne => absurd h hne⟩
  · have one : (1 : ℚ) ≤ |(z' : ℚ) - z| := by exact_mod_cast Int.one_le_abs (sub_ne_zero.2 h)
    have apart : w ≤ |z' * w - z * w| := by
      rw [← sub_mul, abs_mul, abs_of_pos hw]
      exact le_mul_of_one_le_left hw.le one
    have triangle := abs_sub_le (z' * w) v (z * w)
    rw [abs_sub_comm v] at triangle
    exact ⟨by linarith, fun he _ => by linarith⟩

/-- A number below a whole number of units that `v` reaches is farther from `v`. -/
theorem nearer_than_below {b : ℕ} (hv : b * w ≤ |v|) {y : ℚ} (hy : |y| < b * w) : |z * w - v| < |y - v| := by
  obtain ⟨hlow, hhigh⟩ := abs_lt.1 hy
  rcases le_total 0 v with h | h
  · rw [abs_of_nonneg h] at hv
    have hb : |((b : ℤ) : ℚ) * w - v| = v - b * w := by
      rw [Int.cast_natCast, abs_sub_comm, abs_of_nonneg (sub_nonneg.2 hv)]
    linarith [(nearest_unit hw near b).1, neg_abs_le (y - v)]
  · rw [abs_of_nonpos h] at hv
    have hb : |((-b : ℤ) : ℚ) * w - v| = -(b * w) - v := by
      rw [Int.cast_neg, Int.cast_natCast, neg_mul, abs_of_nonneg (by linarith)]
    linarith [(nearest_unit hw near (-b)).1, le_abs_self (y - v)]

end Units

/-! ### Finite values -/

/-- A value whose unit is not below 2 ^ u is a whole number of 2 ^ u. -/
theorem f64Value_whole (y : F64) {u : ℤ} (h : u ≤ f64Unit y) : ∃ z : ℤ, f64Value y = z * 2 ^ u := by
  refine ⟨(if f64Sign y then -1 else 1) * (f64Sig y * 2 ^ (f64Unit y - u).toNat), ?_⟩
  have hunit : (2 : ℚ) ^ f64Unit y = 2 ^ (f64Unit y - u).toNat * 2 ^ u := by
    rw [← zpow_natCast, ← zpow_add₀ two_ne_zero, Int.toNat_of_nonneg (by omega), sub_add_cancel]
  rw [f64Value, hunit]
  push_cast
  ring

/-- Among all finite values none is nearer to `v` than the nearest whole number of 2 ^ u, where `v` has 53 bits in this
unit or the unit is the smallest; and one is as near only where `v` lies halfway. -/
theorem nearest_f64Value {u : ℤ} {v : ℚ} (hv : u = -1074 ∨ 2 ^ 52 * (2 : ℚ) ^ u ≤ |v|) {z : ℤ}
    (near : 2 * |z * (2 : ℚ) ^ u - v| ≤ 2 ^ u) (y : F64) :
    |z * (2 : ℚ) ^ u - v| ≤ |f64Value y - v| ∧
      (|z * (2 : ℚ) ^ u - v| = |f64Value y - v| → f64Value y ≠ z * 2 ^ u → 2 * |z * (2 : ℚ) ^ u - v| = 2 ^ u) := by
  have hw : (0 : ℚ) < 2 ^ u := by positivity
  have smallOrWhole : (2 ^ 52 * (2 : ℚ) ^ u ≤ |v| ∧ |f64Value y| < 2 ^ 52 * (2 : ℚ) ^ u) ∨
      ∃ z' : ℤ, f64Value y = z' * 2 ^ u := by
    rcases hv with rfl | hv
    · exact .inr (f64Value_whole y (f64Sig_range y).2.1)
    · exact (f64Value_grid y u).imp_left fun h => ⟨hv, h⟩
  rcases smallOrWhole with ⟨hv, hy⟩ | ⟨z', hz'⟩
  · have hlt := nearer_than_below hw near (b := 2 ^ 52) (by exact_mod_cast hv) (by exact_mod_cast hy)
    exact ⟨hlt.le, fun he => absurd he hlt.ne⟩
  · obtain ⟨hle, htie⟩ := nearest_unit hw near z'
    rw [hz']
    exact ⟨hle, fun he hne => htie he fun h => hne (h ▸ rfl)⟩

/-! ### Overflow -/

/-- Halfway between the largest finite value and 2 ^ 1024, in the unit of the largest exponent. -/
theorem overflow_eq : (2 : ℚ) ^ 1024 - 2 ^ 970 = (2 ^ 53 - 1 / 2) * 2 ^ (971 : ℤ) := by
  have h1024 : (2 : ℚ) ^ 1024 = 2 ^ 53 * 2 ^ 971 := pow_add 2 53 971
  have h971 : (2 : ℚ) ^ 971 = 2 ^ 970 * 2 := pow_succ 2 970
  rw [zpow_ofNat, h1024, h971]
  generalize (2 : ℚ) ^ 970 = x
  ring

/-- In any unit the number is rounded below the even 2 ^ 53 exactly where it is below the halfway point before it. -/
theorem round_lt_iff {w v : ℚ} (hw : 0 < w) {q : ℕ} (near : 2 * |q * w - v| ≤ w)
    (tie : 2 * |q * w - v| = w → q % 2 = 0) : q < 2 ^ 53 ↔ v < (2 ^ 53 - 1 / 2) * w := by
  constructor
  · intro hq
    by_contra hv
    have hle : (q : ℚ) * w ≤ (2 ^ 53 - 1) * w := by
      have : (q : ℚ) + 1 ≤ 2 ^ 53 := by exact_mod_cast hq
      gcongr
      linarith
    have heven : q % 2 = 0 := tie (by linarith [neg_abs_le (q * w - v)])
    have hge : 2 ^ 53 - 1 ≤ q := by
      have : (2 ^ 53 - 1) * w ≤ q * w := by linarith [neg_abs_le (q * w - v)]
      have : (2 : ℚ) ^ 53 ≤ q + 1 := by linarith [le_of_mul_le_mul_right this hw]
      exact Nat.sub_le_iff_le_add.2 (by exact_mod_cast this)
    omega
  · intro hv
    by_contra hq
    have hle : (2 : ℚ) ^ 53 * w ≤ q * w := by
      have : (2 : ℚ) ^ 53 ≤ q := by exact_mod_cast Nat.not_lt.1 hq
      gcongr
    linarith [le_abs_self (q * w - v)]

/-- `q` units 2 ^ u are the number `v` rounded as `roundMagnitude` does: the unit is the smallest or `v` has 53 bits in it,
`q` is at most half a unit away, and even where exactly half (`roundMagnitude_packs`). -/
structure RoundedIn (u : ℤ) (v : ℚ) (q : ℕ) : Prop where
  unit_ge : -1074 ≤ u
  low : u = -1074 ∨ 2 ^ 52 * (2 : ℚ) ^ u ≤ v
  high : v < 2 ^ 53 * (2 : ℚ) ^ u
  near : 2 * |q * (2 : ℚ) ^ u - v| ≤ 2 ^ u
  tie : 2 * |q * (2 : ℚ) ^ u - v| = 2 ^ u → q % 2 = 0

section RoundedIn

variable {u : ℤ} {v : ℚ} {q : ℕ} (h : RoundedIn u v q)
include h

theorem RoundedIn.le : q ≤ 2 ^ 53 :=
  round_le_of_lt (by positivity) h.near (by exact_mod_cast h.high)

theorem RoundedIn.ge : u = -1074 ∨ 2 ^ 52 ≤ q :=
  h.low.imp_right fun hv => le_round_of_le (by positivity) h.near (by exact_mod_cast hv)

/-- The packed pattern is below infinity's exactly where the number is below 2 ^ 1024 − 2 ^ 970. -/
theorem RoundedIn.packed_lt_iff : (u + 1074).toNat * 2 ^ 52 + q < infMagnitude ↔ v < 2 ^ 1024 - 2 ^ 970 := by
  have hle := h.le
  have hge := h.ge
  have hhigh := h.high
  have hinf : infMagnitude = 2047 * 2 ^ 52 := rfl
  have hw : (0 : ℚ) < 2 ^ (971 : ℤ) := by positivity
  rw [overflow_eq]
  rcases lt_trichotomy u 971 with hu | rfl | hu
  · have below : (2 : ℚ) ^ u * 2 ≤ 2 ^ (971 : ℤ) := by
      rw [← zpow_add_one₀ two_ne_zero]
      exact zpow_le_zpow_right₀ one_le_two (by omega)
    generalize (2 : ℚ) ^ (971 : ℤ) = w at below hw
    exact iff_of_true (by omega) (by linarith)
  · rw [← round_lt_iff hw h.near h.tie]
    omega
  · have above : (2 : ℚ) ^ (971 : ℤ) * 2 ≤ 2 ^ u := by
      rw [← zpow_add_one₀ two_ne_zero]
      exact zpow_le_zpow_right₀ one_le_two (by omega)
    have hv := h.low.resolve_left (by omega)
    generalize (2 : ℚ) ^ (971 : ℤ) = w at above hw
    exact iff_of_false (by omega) (by linarith)

end RoundedIn

/-! ### Rounding to a pattern -/

theorem roundMagnitude_le (m : ℕ) (e : ℤ) : roundMagnitude m e ≤ infMagnitude := by
  unfold roundMagnitude
  split_ifs
  · exact Nat.zero_le _
  · exact Nat.min_le_left _ _

theorem f64IsNaN_withSign (neg : Bool) {mag : ℕ} (h : mag ≤ infMagnitude) : f64IsNaN (withSign neg mag) = false := by
  have hinf : infMagnitude = 2047 * 2 ^ 52 := rfl
  rw [f64IsNaN, f64Exp_withSign neg (by omega), f64Frac_withSign neg (by omega), ← Bool.not_eq_true]
  simp only [Bool.and_eq_true, beq_iff_eq, bne_iff_ne]
  omega

theorem f64IsFinite_withSign (neg : Bool) {mag : ℕ} (h : mag ≤ infMagnitude) :
    f64IsFinite (withSign neg mag) = true ↔ mag < infMagnitude := by
  have hinf : infMagnitude = 2047 * 2 ^ 52 := rfl
  rw [f64IsFinite, f64Exp_withSign neg (by omega), bne_iff_ne]
  omega

/-- The number `v` rounded to nearest, ties to even, with an infinity from 2 ^ 1024 − 2 ^ 970 on (R126). -/
structure RoundsTo (v : ℚ) (r : F64) : Prop where
  notNaN : f64IsNaN r = false
  finite : f64IsFinite r = true ↔ |v| < 2 ^ 1024 - 2 ^ 970
  nearest : f64IsFinite r = true → ∀ y : F64, |f64Value r - v| ≤ |f64Value y - v| ∧
    (|f64Value r - v| = |f64Value y - v| → f64Value y ≠ f64Value r → f64Frac r % 2 = 0)

/-- The factor of a sign bit. -/
def signFactor (neg : Bool) : ℤ := if neg then -1 else 1

theorem abs_signFactor_mul (neg : Bool) (a : ℚ) : |signFactor neg * a| = |a| := by
  cases neg <;> simp [signFactor]

theorem f64Value_eq_signFactor (x : F64) : f64Value x = signFactor (f64Sign x) * (f64Sig x * 2 ^ f64Unit x) := by
  rw [f64Value, mul_assoc]
  cases f64Sign x <;> simp [signFactor]

theorem abs_signFactor_mul_sub (neg : Bool) (a b : ℚ) : |signFactor neg * a - signFactor neg * b| = |a - b| := by
  rw [← mul_sub, abs_signFactor_mul]

/-- The packed pattern under a sign is the number of that sign rounded. -/
theorem RoundedIn.rounds {u : ℤ} {v : ℚ} {q : ℕ} (h : RoundedIn u v q) (hv : 0 ≤ v) (neg : Bool) :
    RoundsTo (signFactor neg * v) (withSign neg (min infMagnitude ((u + 1074).toNat * 2 ^ 52 + q))) := by
  have hinf : infMagnitude = 2047 * 2 ^ 52 := rfl
  have hle := Nat.min_le_left infMagnitude ((u + 1074).toNat * 2 ^ 52 + q)
  have habs : |signFactor neg * v| = v := by rw [abs_signFactor_mul, abs_of_nonneg hv]
  have hfin : f64IsFinite (withSign neg (min infMagnitude ((u + 1074).toNat * 2 ^ 52 + q))) = true ↔
      (u + 1074).toNat * 2 ^ 52 + q < infMagnitude := by
    rw [f64IsFinite_withSign neg hle, min_lt_iff, or_iff_right (lt_irrefl _)]
  refine ⟨f64IsNaN_withSign neg hle, by rw [hfin, habs, h.packed_lt_iff], fun hf y => ?_⟩
  have hlt := hfin.1 hf
  rw [min_eq_right hlt.le]
  obtain ⟨hmag, hfrac, -⟩ := packed_value neg h.unit_ge h.le h.ge hlt
  have hvalue : f64Value (withSign neg ((u + 1074).toNat * 2 ^ 52 + q)) =
      ((signFactor neg * q : ℤ) : ℚ) * 2 ^ u := by
    rw [f64Value_eq_signFactor, hmag, f64Sign_withSign neg (by omega), ← mul_assoc, Int.cast_mul, Int.cast_natCast]
  have hoff : |((signFactor neg * q : ℤ) : ℚ) * 2 ^ u - signFactor neg * v| = |q * (2 : ℚ) ^ u - v| := by
    rw [Int.cast_mul, Int.cast_natCast, mul_assoc, abs_signFactor_mul_sub]
  obtain ⟨hnear, htie⟩ := nearest_f64Value (habs.symm ▸ h.low) (hoff.symm ▸ h.near) y
  rw [hvalue, hfrac]
  exact ⟨hnear, fun he hne => h.tie (hoff ▸ htie he hne)⟩

theorem withSign_zero_rounds (neg : Bool) : RoundsTo 0 (withSign neg 0) := by
  have hsig : f64Sig (withSign neg 0) = 0 := by
    rw [f64Sig, f64Exp_withSign neg (by norm_num), f64Frac_withSign neg (by norm_num)]
    rfl
  have hvalue : f64Value (withSign neg 0) = 0 := by
    rw [f64Value_eq_signFactor, hsig, Nat.cast_zero, zero_mul, mul_zero]
  have hfin := (f64IsFinite_withSign neg (Nat.zero_le _)).2 (by decide : 0 < infMagnitude)
  refine ⟨f64IsNaN_withSign neg (Nat.zero_le _), iff_of_true hfin ?_, fun _ y => ?_⟩
  · rw [abs_zero, sub_pos]
    exact pow_lt_pow_right₀ one_lt_two (by norm_num)
  · rw [hvalue, sub_zero, sub_zero, abs_zero]
    exact ⟨abs_nonneg _, fun he hne => absurd (abs_eq_zero.1 he.symm) hne⟩

theorem roundMagnitude_rounds (neg : Bool) (m : ℕ) (e : ℤ) :
    RoundsTo (signFactor neg * (m * 2 ^ e)) (withSign neg (roundMagnitude m e)) := by
  rcases Nat.eq_zero_or_pos m with rfl | hm
  · rw [Nat.cast_zero, zero_mul, mul_zero, roundMagnitude, if_pos rfl]
    exact withSign_zero_rounds neg
  · obtain ⟨u, q, hr, hu, hlow, hhigh, near, tie⟩ := roundMagnitude_packs hm e
    rw [hr]
    exact RoundedIn.rounds ⟨hu, hlow, hhigh, near, tie⟩ (by positivity) neg

/-! ### The product -/

theorem signFactor_mul (a b : Bool) : signFactor a * signFactor b = signFactor (a != b) := by
  cases a <;> cases b <;> rfl

/-- The exact product is what `mulFinite` rounds. -/
theorem f64Value_mul (x y : F64) :
    f64Value x * f64Value y =
      signFactor (f64Sign x != f64Sign y) * ((f64Sig x * f64Sig y : ℕ) * 2 ^ (f64Unit x + f64Unit y)) := by
  rw [f64Value_eq_signFactor, f64Value_eq_signFactor, ← signFactor_mul, zpow_add₀ two_ne_zero]
  push_cast
  ring

theorem mulFinite_rounds (x y : F64) : RoundsTo (f64Value x * f64Value y) (mulFinite x y) := by
  rw [f64Value_mul]
  exact roundMagnitude_rounds _ _ _

theorem f64Sign_mulFinite (x y : F64) : f64Sign (mulFinite x y) = (f64Sign x != f64Sign y) := by
  have hle := roundMagnitude_le (f64Sig x * f64Sig y) (f64Unit x + f64Unit y)
  have hinf : infMagnitude = 2047 * 2 ^ 52 := rfl
  exact f64Sign_withSign _ (by omega)

theorem rad2degDefault_isFinite (c : ℕ) {x : F64} (h : f64IsFinite x = true) :
    rad2degDefault c x = mulFinite x degPerRad := by
  have hexp : (f64Exp x == 2047) = false := by simpa [f64IsFinite] using h
  simp [rad2degDefault, f64IsNaN, f64IsInf, hexp]

/-- Settles O59: the default multiplies by K, which is positive, and a product is rounded to nearest, ties to even. -/
theorem rad2degRoundsToNearestEven : Obligations.Rad2degRoundsToNearestEven := by
  refine ⟨rfl, fun c x hc hx => ?_⟩
  rw [rad2deg_unlisted hc, rad2degDefault_isFinite _ hx]
  have hsign : f64Sign (mulFinite x degPerRad) = f64Sign x := by
    have hk : f64Sign degPerRad = false := by decide
    rw [f64Sign_mulFinite, hk, Bool.bne_false]
  have hr := mulFinite_rounds x degPerRad
  exact ⟨hsign, hr.notNaN, hr.finite, fun hf y _ => hr.nearest hf y⟩

end Sys2Proof.Machine
end

section
/-!
SUPPORT. The host operations between transactions (43_host_ops.md R132, R133; R134, R157): READ refused, WRITE ignored and
RESET.
-/

namespace Sys2Proof.Machine

/-! ### WRITE and RESET -/

theorem execWrite_idle {s : State} (hd : s.disp = .idle) (a : HostAddr) (w : Word) :
    execWrite a w s = .next { s with resp := .none } := by
  rw [execWrite, between_idle hd]

theorem execReset_idle {s : State} (hd : s.disp = .idle) : execReset s = .next s.resetAll := by
  rw [execReset, between_idle hd]

/-! ### The statements -/

/-- Settles O39: between transactions the guard of READ (R132) is all that decides. -/
theorem misalignedReadIsRefused : Obligations.MisalignedReadIsRefused :=
  fun _ _ _ hd ha => execRead_refused hd ha

/-- Settles O40: a WRITE touches the answer port alone, and there leaves no answer. -/
theorem writeChangesNothing : Obligations.WriteChangesNothing :=
  fun _ a w hd => execWrite_idle hd a w

/-- Settles O42: between transactions RESET is `resetAll`, which keeps just these fields (log entries 11, 21). -/
theorem resetKeepsWhatIsPending : Obligations.ResetKeepsWhatIsPending :=
  fun _ hd => execReset_idle hd

end Sys2Proof.Machine
end

section
/-!
SUPPORT. The block in Halted (60_exceptions.md R145): which rows can run there, and what they leave.
-/

namespace Sys2Proof.Machine

/-! ### The rows that can run in Halted -/

/-- The rows of DISPATCH run only inside a FEED (R61, R105). -/
theorem exec_idle_format {s t : State} {i : Instr} (hd : s.disp = .idle) (hx : exec i s = .next t) :
    i.format = .fsmByte ∨ i.format = .hostOp := by
  cases hf : i.format with
  | fsmByte => exact .inl rfl
  | hostOp => exact .inr rfl
  | packetType =>
    cases i with
    | dispatchAggregate | dispatchOther =>
      obtain ⟨he, -, -⟩ := dispatchRow_next hx
      simp [hd] at he
    | _ => cases hf
  | itemKind =>
    obtain ⟨k, l, selected, body, hr⟩ := exec_item s hf
    obtain ⟨c, any, hw, -⟩ := itemRow_next (hr ▸ hx)
    simp [hd] at hw

/-- The only FEED row that the table selects in Halted (R96). -/
theorem eq_feedHalted_of_wf {cx : Ctx} {i : Instr} (hf : i.format = .fsmByte) (hst : cx.st = .halted)
    (hw : i.wf cx = true) : ∃ b, i = .feedHalted b := by
  cases i with
  | feedHalted b => exact ⟨b, rfl⟩
  | feedAwaitStartStx | feedAwaitStartOther | feedStatus | feedPacketType | feedLengthOk
  | feedLengthOverflowFailclosed | feedLengthOverflowAbort | feedData | feedChecksumMatch | feedChecksumMismatch
  | feedEndOfFrame => simp [Instr.wf, hst] at hw
  | _ => cases hf

theorem exec_feed_halted {s t : State} {i : Instr} (hf : i.format = .fsmByte) (hst : s.st = .halted)
    (hx : exec i s = .next t) : t = s.emit .fault := by
  obtain ⟨r, hr⟩ := exec_feed s hf
  obtain ⟨hd, hw, -⟩ := feedRow_next (hr ▸ hx)
  obtain ⟨b, rfl⟩ := eq_feedHalted_of_wf hf hst hw
  rw [feedInHalted s b hd hst] at hx
  cases hx
  rfl

/-- A READ or a WRITE touches the answer port alone (R56, R133). -/
theorem exec_hostOp_next {s t : State} {i : Instr} (hf : i.format = .hostOp) (hi : i ≠ .reset)
    (hx : exec i s = .next t) : t = { s with resp := t.resp } := by
  cases i with
  | read width a =>
    obtain ⟨-, hx⟩ := between_next hx
    split_ifs at hx
    cases hx
    rfl
  | write a w =>
    obtain ⟨-, hx⟩ := between_next hx
    cases hx
    rfl
  | reset => exact absurd rfl hi
  | _ => cases hf

/-- Settles O46: in Halted only the FEED row of Halted, READ, WRITE and RESET can run. -/
theorem onlyResetLeavesHalted : Obligations.OnlyResetLeavesHalted := by
  intro s t i hd hst hi hx
  obtain hf | hf := exec_idle_format hd hx
  · cases exec_feed_halted hf hst hx
    exact ⟨rfl, .inr rfl⟩
  · rw [exec_hostOp_next hf hi hx]
    exact ⟨rfl, .inl rfl⟩

end Sys2Proof.Machine
end
